-- ==== Sys2Proof/Word.lean ====
section
/-! DEFINITION. The word types of the block and the 8-bit-per-component colour (spec/00_scope.md R7, R8, R11). -/

namespace Sys2Proof

/-- A byte of a shared region. -/
abbrev Byte := BitVec 8

/-- A 16-bit bus word. -/
abbrev Word := BitVec 16

/-- An address as a bus access carries it; `ADDR_BITS[p]` of its bits reach the router. -/
abbrev Addr := BitVec 32

/-- A palette index, 13 bits wide (R8(c)). -/
abbrev Pen := BitVec 13

/-- What a pixel source gives: a palette index, or `none` for `TRANSPARENT` (R13). -/
abbrev Px := Option Pen

/-- One operation as it is presented to the block: see `Sys2Proof.Decode`. -/
abbrev OpWord := BitVec 96

/-- A palette colour: an RGB triple of 8 bits per component (R7). -/
structure RGB where
  r : Byte
  g : Byte
  b : Byte
  deriving DecidableEq, Repr, Inhabited

end Sys2Proof
end

