-- ==== Sys2Proof/Syntax.lean ====
section
/-! DEFINITION. The operations of the block: one constructor of `Instr` for each row of
spec/opcode_table.json, and the names its operands are drawn from. -/

namespace Sys2Proof

/-- The two general CPUs (00_scope.md R10). A C148 instance is named by its CPU. -/
inductive Gen where
  | master
  | slave
  deriving DecidableEq, Repr, Inhabited

/-- The four processors (00_scope.md R10). -/
inductive Proc where
  | master
  | slave
  | sound
  | io
  deriving DecidableEq, Repr, Inhabited

/-- The five interrupt sources of a C148 instance (10_state.md R33). -/
inductive Source where
  | vblank
  | posirq
  | exirq
  | scirq
  | cpuirq
  deriving DecidableEq, Repr, Inhabited

/-- The lane mask of a 16-bit write (20_memory.md R88): a word, the byte at the even address,
the byte at the odd address. -/
inductive Lanes where
  | both
  | high
  | low
  deriving DecidableEq, Repr, Inhabited

/-- A tile layer, 0 to 5. -/
abbrev Layer := Fin 6

/-- A ROZ plane, 0 or 1. -/
abbrev Plane := Fin 2

/-- A video register as a code `kind ++ idx` names it (30_encoding.md R123); a tile word also
carries the tile index that its address gives. -/
inductive VidReg where
  | tile (l : Layer) (t : Word)
  | scrollX (l : Layer)
  | scrollY (l : Layer)
  | bank (l : Layer)
  | pri (l : Layer)
  | flip
  | sprBank
  | rozCtrl (p : Plane) (r : BitVec 3)
  | rozPri (p : Plane)
  deriving DecidableEq, Repr, Inhabited

/-- One bus access of a processor (30_encoding.md R120): what a core makes during its turn. -/
inductive BusAccess where
  | rd8 (a : Addr)
  | wr8 (a : Addr) (v : Byte)
  | rd16 (a : Addr)
  | wr16 (a : Addr) (v : Word) (m : Lanes)
  | ifetch (a : Addr)
  deriving DecidableEq, Repr, Inhabited

/-- The operations, one constructor for each row of spec/opcode_table.json, in the table's order. -/
inductive Instr where
  -- format BUS (40_router.md R150-R154)
  | rd8 (p : Proc) (a : Addr)
  | wr8 (p : Proc) (a : Addr) (v : Byte)
  | rd16 (p : Proc) (a : Addr)
  | wr16 (p : Proc) (a : Addr) (v : Word) (m : Lanes)
  | ifetch (p : Proc) (a : Addr)
  -- format C148 (41_c148.md R174-R198)
  | lvlWrCpuirq (k : Gen) (v : Word) (m : Lanes)
  | lvlWrExirq (k : Gen) (v : Word) (m : Lanes)
  | lvlWrPosirq (k : Gen) (v : Word) (m : Lanes)
  | lvlWrScirq (k : Gen) (v : Word) (m : Lanes)
  | lvlWrVblank (k : Gen) (v : Word) (m : Lanes)
  | lvlRdCpuirq (k : Gen)
  | lvlRdExirq (k : Gen)
  | lvlRdPosirq (k : Gen)
  | lvlRdScirq (k : Gen)
  | lvlRdVblank (k : Gen)
  | cpuirqTrig (k : Gen)
  | ackCpuirq (k : Gen)
  | ackExirq (k : Gen)
  | ackPosirq (k : Gen)
  | ackScirq (k : Gen)
  | ackVblank (k : Gen)
  | ackReadCpuirq (k : Gen)
  | ackReadExirq (k : Gen)
  | ackReadPosirq (k : Gen)
  | ackReadScirq (k : Gen)
  | ackReadVblank (k : Gen)
  | eepromRdy (k : Gen)
  | eepromRdyWr (k : Gen)
  | rstsndWr (k : Gen) (v : Word) (m : Lanes)
  | rstslvWr (k : Gen) (v : Word) (m : Lanes)
  | rstsndRd (k : Gen)
  | rstslvRd (k : Gen)
  | wdtKick (k : Gen) (wr : Bool)
  | c148RsvdS01 (k : Gen) (wr : Bool) (s : BitVec 1)
  | c148RsvdS2 (k : Gen) (wr : Bool)
  | c148RsvdS89 (k : Gen) (wr : Bool) (s : BitVec 1)
  | c148RsvdRdS10 (k : Gen)
  | c148RsvdS2023 (k : Gen) (wr : Bool) (s : BitVec 2)
  | c148RsvdS2431 (k : Gen) (wr : Bool) (s : BitVec 3)
  -- format VID (42_tilemap.md, 43_sprite.md, 44_roz.md, 30_encoding.md R132)
  | tileWr (l : Layer) (t : Word) (v : Word) (m : Lanes)
  | scrollxWr (l : Layer) (v : Word) (m : Lanes)
  | scrollyWr (l : Layer) (v : Word) (m : Lanes)
  | bankWr (l : Layer) (v : Word) (m : Lanes)
  | lpriWr (l : Layer) (v : Word) (m : Lanes)
  | flipWr (v : Word) (m : Lanes)
  | sprbankWr (v : Word) (m : Lanes)
  | rozctrlWr (p : Plane) (r : BitVec 3) (v : Word) (m : Lanes)
  | rozpriWr (p : Plane) (v : Word) (m : Lanes)
  | vidRd (p : Proc) (r : VidReg)
  | vidRsvdK9 (p : Proc) (c : BitVec 9)
  | vidRsvdKAB (p : Proc) (wr : Bool) (c : BitVec 5)
  | vidRsvdKCF (p : Proc) (wr : Bool) (c : BitVec 6)
  -- format EVT (41_c148.md R173, 46_scheduler.md R376)
  | evtRaiseVblank (k : Gen)
  | evtRaisePosirq (k : Gen)
  | evtRaiseExirq (k : Gen)
  | evtRaiseScirq (k : Gen)
  | evtRaiseCpuirq (k : Gen)
  | evtRsvdSrc5 (k : Gen)
  | evtRsvdSrc67 (c : BitVec 2)
  -- format SCH (30_encoding.md R125)
  | slice
  | frameEnd
  | machineReset
  | composite
  | palScan
  | renderLayer (l : Layer)
  | drawLayer (l : Layer)
  | drawRoz (p : Plane)
  | drawSprites (v : BitVec 4)
  deriving DecidableEq, Repr, Inhabited

end Sys2Proof
end

