-- ==== Sys2Proof/Config.lean ====
section
/-! DEFINITION. The configuration of the block: every parameter of spec/00_scope.md R9 and every free value,
as the fields of `Board`. R9: "the model takes each one as an argument": the shared operations take a `Board`,
and the machine's own board is the ONE opaque constant `Config.board`, of which nothing can be proved, so that
every theorem about the machine holds of every board (log 5). -/

namespace Sys2Proof

/-- The board variants the source names (R3). -/
inductive Variant where
  | default
  | finalLap
  | metalHawk
  deriving DecidableEq, Repr, Inhabited

/-- `PRI_BITS`: 3 or 4 (R9). -/
inductive PriBits where
  | three
  | four
  deriving DecidableEq, Repr, Inhabited

/-- `SPRITE_LAYOUT` (R9, 43_sprite.md R271). -/
inductive SpriteLayout where
  | default
  | finalLap
  deriving DecidableEq, Repr, Inhabited

/-- `ROZ_PLANES`: 1 or 2 (R9). -/
inductive RozPlanes where
  | one
  | two
  deriving DecidableEq, Repr, Inhabited

/-- `CPUIRQ_ACK_BY` (R9, 41_c148.md R185). -/
inductive AckBy where
  | peer
  | self
  deriving DecidableEq, Repr, Inhabited

/-- The shared regions (10_state.md R39). -/
inductive Region where
  | dpram
  | sprram
  | sciram
  | rozram (p : Plane)
  | palram
  | vram
  | eeprom
  deriving DecidableEq, Repr, Inhabited

/-- The byte arrays the store is kept in: the shared regions, with the bytes of `VRAM` that hold tile
words kept apart, one array for each layer (10_state.md R42; log 8). -/
inductive Bank where
  | region (r : Region)
  | tiles (l : Layer)
  deriving DecidableEq, Repr, Inhabited

/-- The opaque peripherals (00_scope.md R5(c), R5(d); 20_memory.md R84). -/
inductive Peripheral where
  | ym2151
  | c140
  | analog
  deriving DecidableEq, Repr, Inhabited

/-- What an address range is mapped to (10_state.md R55): a region with a base offset, the C148 window of
the accessing CPU, the video registers of `VIDREG_MAP`, or an opaque peripheral. -/
inductive Target where
  | region (r : Region) (base : Nat)
  | c148
  | video
  | peripheral (d : Peripheral)
  deriving DecidableEq, Repr, Inhabited

/-- An entry of a router table (10_state.md R55); `stop` is the last address of the range. -/
structure AddressRange where
  start : Nat
  stop : Nat
  target : Target
  deriving DecidableEq, Repr, Inhabited

/-- The code a video address stands for (30_encoding.md R123): kind, idx, and the tile index for a tile word. -/
structure VidSel where
  kind : BitVec 4
  idx : BitVec 4
  t : Word
  deriving DecidableEq, Repr, Inhabited

/-- The logical values of a ROZ control block (10_state.md R48): four 16.16 deltas, two 12.4 starts. -/
structure RozCtl where
  rightDx : BitVec 32
  rightDy : BitVec 32
  downDx : BitVec 32
  downDy : BitVec 32
  startX : Word
  startY : Word
  deriving DecidableEq, Repr, Inhabited

/-- The fields `SPRITE_DECODE` places (43_sprite.md R270), as raw numbers. The region is not among them:
R271 gives it. -/
structure SpriteFields where
  posX : Nat
  posY : Nat
  sizeClass : BitVec 1
  reqW : Nat
  reqH : Nat
  code : Nat
  flipX : Bool
  flipY : Bool
  pri : Nat
  color : Nat
  deriving DecidableEq, Repr, Inhabited

/-- The four words of a sprite descriptor (10_state.md R47). -/
structure SpriteWords where
  w0 : Word
  w1 : Word
  w2 : Word
  w3 : Word
  deriving DecidableEq, Repr, Inhabited

/-- The two fields of the sprite-bank-select register (10_state.md R46). -/
structure SprBank where
  bank : BitVec 4
  rozColor : Nat
  deriving DecidableEq, Repr, Inhabited

/-- Every parameter of 00_scope.md R9, under its own name there. The fields from `initRam` on are the free
values: what the spec calls "unspecified" or "a draw" (log 6, log 7, log 11). -/
structure Board where
  /-- `VARIANT` -/
  variant : Variant
  /-- `PRI_BITS` -/
  priBits : PriBits
  /-- `SPRITE_LAYOUT` -/
  spriteLayout : SpriteLayout
  /-- `ROZ_PLANES` -/
  rozPlanes : RozPlanes
  /-- `ROZ_PRESENT[p]` -/
  rozPresent : Plane → Bool
  /-- `SLICES_PER_FRAME` (default 100) -/
  slicesPerFrame : Nat
  /-- `CYCLES_PER_SLICE[p]`: handed to the core, read by no rule of the block (R459) -/
  cyclesPerSlice : Proc → Nat
  /-- `WDT_LIMIT` -/
  wdtLimit : Nat
  /-- `OPEN_BUS_8` (default 0xFF) -/
  openBus8 : Byte
  /-- `OPEN_BUS_16` (default 0xFFFF) -/
  openBus16 : Word
  /-- `EEPROM_READY_VALUE` (default 0xFFFF) -/
  eepromReady : Word
  /-- `MAP[p]`, in registration order -/
  map : Proc → List AddressRange
  /-- `C148_BASE` (default 0x1C0000): where every `MAP[k]` of a general CPU must map the C148 window (20_memory.md R93(a)) -/
  c148Base : Nat
  /-- `ADDR_BITS[p]` (defaults 24, 24, 16, 16) -/
  addrBits : Proc → Nat
  /-- `CPUIRQ_ACK_BY` (default PEER) -/
  cpuirqAckBy : AckBy
  /-- `ACK_ON_READ` (default false) -/
  ackOnRead : Bool
  /-- `RESET_CTRL_ON_SLAVE` (default false) -/
  resetCtrlOnSlave : Bool
  /-- `TILE_REMAP` -/
  tileRemap : Word → Word
  /-- `TILE_GFX(code, x, y)` -/
  tileGfx : Word → Nat → Nat → Nat
  /-- `TILE_MASK(code, x, y)`: false is a transparent pixel -/
  tileMask : Word → Nat → Nat → Bool
  /-- `LAYER_ORIGIN_X[l]` (default 0) -/
  layerOriginX : Layer → Int
  /-- `LAYER_ORIGIN_Y[l]` (default 0) -/
  layerOriginY : Layer → Int
  /-- `TILE_BANK_BITS` -/
  tileBankBits : Nat
  /-- `TILE_BANK_STRIDE` -/
  tileBankStride : Nat
  /-- `SPRITE_DECODE` -/
  spriteDecode : SpriteWords → SpriteFields
  /-- `SPRITE_GFX(region, code, sizeClass, x, y)` -/
  spriteGfx : BitVec 1 → Nat → BitVec 1 → Nat → Nat → Byte
  /-- `SPRITE_REGION_WORD` -/
  spriteRegionWord : Fin 4
  /-- `FIXED_REGION` (default 0) -/
  fixedRegion : BitVec 1
  /-- `SPRITE_ORIGIN_X` -/
  spriteOriginX : Int
  /-- `SPRITE_ORIGIN_Y` -/
  spriteOriginY : Int
  /-- `SPRITE_POS_BITS` -/
  spritePosBits : Nat
  /-- `SPRITE_TRANSPARENT_PEN` (default 0xFF) -/
  spriteTransparentPen : Byte
  /-- `SPRITE_BANK_STRIDE` -/
  spriteBankStride : Nat
  /-- `SPRITE_ORDER`: the slots in the order they are drawn (default ascending) -/
  spriteOrder : List (Fin 128)
  /-- `SPRBANK_DECODE` -/
  sprbankDecode : Word → SprBank
  /-- `ROZ_CTRL_DECODE` (default `rozCtrlDefault`) -/
  rozCtrlDecode : Vector Word 8 → RozCtl
  /-- `ROZ_TILE` -/
  rozTile : Word → Nat
  /-- `ROZ_RAM_SIZE[p]` (default 0x20000) -/
  rozRamSize : Plane → Nat
  /-- `PAL_RAM_SIZE` -/
  palRamSize : Nat
  /-- `VRAM_SIZE` -/
  vramSize : Nat
  /-- `EEPROM_SIZE` -/
  eepromSize : Nat
  /-- `ROZ_GFX(p, tile, x, y)` -/
  rozGfx : Plane → Nat → Nat → Nat → Byte
  /-- `ROZ_PAL_BASE` -/
  rozPalBase : Nat
  /-- `ROZ_BANK_STRIDE` -/
  rozBankStride : Nat
  /-- `PAL_DECODE(PALRAM, i)` -/
  palDecode : (Nat → Byte) → Nat → RGB
  /-- `VIDREG_MAP`: the code that an offset of the video window stands for -/
  vidregMap : Addr → VidSel
  /-- `VIDREG_MAP`, its placement of tile words in `VRAM` (10_state.md R42): the tile whose word the 16 bits at
  byte offset `2 n` of `VRAM` hold, if any (log 8). So a tile word lies at an even offset: a DESIGN CHOICE, since the placement is
  OPEN (log 35). It need not place every word, nor each at one place; `Board.placesTiles` asks that it does -/
  vramTile : Nat → Option (Layer × Word)
  /-- The host's restored blob (70_reset_and_hazards.md R443) -/
  eepromBlob : Nat → Byte
  /-- which writes to the analog ports are "start conversion" writes, by their handler offset and their byte lanes: the
  spec leaves every address OPEN (10_state.md R56), so the lane of the control register is left to the board with its
  offset (log 11) -/
  analogControl : Addr → Lanes → Bool
  /-- FREE VALUE `INIT_RAM`: power-on contents of every RAM array (D37, I4) -/
  initRam : Bank → Nat → Byte
  /-- FREE VALUE: the tile cache left by reset number `n` (10_state.md R44, I5) -/
  drawCache : Nat → Layer → Nat → Nat → Px
  /-- FREE VALUE: the frame buffer left by reset number `n` (10_state.md R52, I6) -/
  drawFb : Nat → Nat → Nat → Pen
  /-- FREE VALUE: the colour table left by reset number `n` (10_state.md R51, I6) -/
  drawColour : Nat → Nat → RGB
  /-- FREE VALUE: what a reset or a conversion leaves in an analog latch (10_state.md R56, I7) -/
  drawLatch : Nat → Nat → Byte
  /-- FREE VALUE: what a reset or a conversion leaves in the "conversion complete" bit (R56, I7) -/
  drawDone : Nat → Bool
  /-- FREE VALUE: what the `n`-th read of an opaque peripheral returns (20_memory.md R84, I8); for the analog
  ports it may depend on the latches and the status bit (R56) -/
  drawRead : Nat → Peripheral → Addr → Vector Byte 8 → Bool → Word
  deriving Inhabited

/-- The board this machine is built on: any board at all. Nothing can be proved of its fields (log 5). -/
opaque Config.board : Board

end Sys2Proof
end

