-- ==== Sys2Proof/WellFormed.lean ====
section
/-! DEFINITION. The check of the operations: which are well formed. The types of Syntax.lean already keep every other
operand in range. The check of the boards is in Sys2Proof/Machine/Boards.lean. -/

namespace Sys2Proof

/-- A 9-bit VID code `wr ++ kind ++ idx` that names no register (30_encoding.md R123, R130): kind 0x9 and above,
a layer of 6 or more, a flip or sprite-bank idx other than 0, a ROZ priority plane of 2 or more. -/
def vidCodeReserved (kind idx : Nat) : Bool :=
  (decide (kind ≤ 4) && decide (6 ≤ idx)) || ((decide (kind = 5) || decide (kind = 6)) && decide (idx ≠ 0))
    || (decide (kind = 8) && decide (2 ≤ idx)) || decide (9 ≤ kind)

/-- An operation is well formed. Only VID_RSVD_K9 carries a whole code (log 17): it must be a reserved one that
the rows VID_RSVD_KA_B and VID_RSVD_KC_F do not list. -/
def Instr.wellFormed : Instr → Bool
  | .vidRsvdK9 _ c => vidCodeReserved (c.toNat / 16 % 16) (c.toNat % 16) && decide (c.toNat / 16 % 16 ≤ 9)
  | _ => true

end Sys2Proof
end

