-- ==== Sys2Proof/Decode.lean ====
section
/-! DEFINITION. The operation word, its decoder and its encoder (spec/30_encoding.md R120-R125). The block has no
instruction words: R120-R125 give each of the formats a code of its own, and what tells the formats apart is the
port a code comes in on. The operation word writes both, and the operands, in one 96-bit word (log 1):
bits 15:0 the code, 19:16 the format, 23:20 the processor, 27:24 the lane mask, 31:28 zero, 63:32 the address,
79:64 the data, 95:80 the tile index. Formats: 0 BUS, 1 BUS instruction fetch, 2 C148, 3 VID, 4 EVT, 5 SCH. -/

namespace Sys2Proof

/-- Why an operation word decodes to no operation. -/
inductive DecodeError where
  /-- a reserved EVT code that no row of the table lists, or a reserved SCH code (46_scheduler.md R376) -/
  | reservedCode
  /-- no such format -/
  | badFormat
  /-- no such processor, or one that has no C148 -/
  | badProcessor
  /-- no such lane mask (20_memory.md R88) -/
  | badLanes
  /-- a code wider than its format -/
  | badCode
  deriving DecidableEq, Repr

/-! ### The fields of an operation word -/

/-- Bits 15:0. -/
def opCode (w : OpWord) : Word := w.extractLsb' 0 16
/-- Bits 19:16. -/
def opFormat (w : OpWord) : BitVec 4 := w.extractLsb' 16 4
/-- Bits 23:20. -/
def opProc (w : OpWord) : BitVec 4 := w.extractLsb' 20 4
/-- Bits 27:24. -/
def opLanes (w : OpWord) : BitVec 4 := w.extractLsb' 24 4
/-- Bits 63:32. -/
def opAddr (w : OpWord) : Addr := w.extractLsb' 32 32
/-- Bits 79:64. -/
def opData (w : OpWord) : Word := w.extractLsb' 64 16
/-- Bits 95:80. -/
def opTile (w : OpWord) : Word := w.extractLsb' 80 16

/-- The operation word of its fields. -/
def packOp (code : Word) (format proc lanes : BitVec 4) (addr : Addr) (data tile : Word) : OpWord :=
  tile ++ data ++ addr ++ 0#4 ++ lanes ++ proc ++ format ++ code

/-- Processor numbers. -/
def procOf (n : BitVec 4) : Option Proc :=
  match n.toNat with
  | 0 => some .master
  | 1 => some .slave
  | 2 => some .sound
  | 3 => some .io
  | _ => none

/-- The number of a processor. -/
def procNo : Proc → BitVec 4
  | .master => 0
  | .slave => 1
  | .sound => 2
  | .io => 3

/-- The general CPU a processor is, if it is one. -/
def genOf : Proc → Option Gen
  | .master => some .master
  | .slave => some .slave
  | .sound => none
  | .io => none

/-- The processor a general CPU is. -/
def genProc : Gen → Proc
  | .master => .master
  | .slave => .slave

/-- Lane mask numbers: 0 is 0xFFFF, 1 is 0xFF00, 2 is 0x00FF (20_memory.md R88). -/
def lanesOf (n : BitVec 4) : Option Lanes :=
  match n.toNat with
  | 0 => some .both
  | 1 => some .high
  | 2 => some .low
  | _ => none

/-- The number of a lane mask. -/
def lanesNo : Lanes → BitVec 4
  | .both => 0
  | .high => 1
  | .low => 2

/-- A layer number, if there is such a layer. -/
def layerOf (n : Nat) : Option Layer := if h : n < 6 then some ⟨n, h⟩ else none

/-- The general CPU of an EVT code's bit `k` (R124). -/
def genOfBit (n : Nat) : Gen := if n % 2 = 0 then .master else .slave

/-- The bit `k` of a general CPU. -/
def genBit : Gen → Nat
  | .master => 0
  | .slave => 1

/-- The video register of a code `kind ++ idx` and a tile index (R123); none is a reserved code (R130). -/
def vidRegOf (kind idx : Nat) (t : Word) : Option VidReg :=
  match kind with
  | 0 => (layerOf idx).map fun l => .tile l t
  | 1 => (layerOf idx).map .scrollX
  | 2 => (layerOf idx).map .scrollY
  | 3 => (layerOf idx).map .bank
  | 4 => (layerOf idx).map .pri
  | 5 => if idx = 0 then some .flip else none
  | 6 => if idx = 0 then some .sprBank else none
  | 7 => some (.rozCtrl (if idx / 8 % 2 = 0 then 0 else 1) (BitVec.ofNat 3 idx))
  | 8 => if idx = 0 then some (.rozPri 0) else if idx = 1 then some (.rozPri 1) else none
  | _ => none

/-- The code `kind ++ idx` of a video register, as `16 * kind + idx`. -/
def vidRegNo : VidReg → Nat
  | .tile l _ => l.val
  | .scrollX l => 0x10 + l.val
  | .scrollY l => 0x20 + l.val
  | .bank l => 0x30 + l.val
  | .pri l => 0x40 + l.val
  | .flip => 0x50
  | .sprBank => 0x60
  | .rozCtrl p r => 0x70 + 8 * p.val + r.toNat
  | .rozPri p => 0x80 + p.val

/-- The tile index of a video register (0 for any but a tile word). -/
def vidRegTile : VidReg → Word
  | .tile _ t => t
  | _ => 0

/-! ### The decoder -/

/-- Format BUS (R120). -/
def decodeBus (p : Proc) (c : Nat) (a : Addr) (d : Word) (m : Lanes) : Except DecodeError Instr :=
  match c with
  | 0 => .ok (.rd8 p a)
  | 1 => .ok (.wr8 p a (d.setWidth 8))
  | 2 => .ok (.rd16 p a)
  | 3 => .ok (.wr16 p a d m)
  | _ => .error .badCode

/-- Format BUS, instruction fetch: the codes of the two reads (40_router.md R154). -/
def decodeFetch (p : Proc) (c : Nat) (a : Addr) : Except DecodeError Instr :=
  if c = 0 ∨ c = 2 then .ok (.ifetch p a) else .error .badCode

/-- Format C148 (R121, R122): `wr` and the selector `s`. -/
def decodeC148 (k : Gen) (wr : Bool) (s : Nat) (d : Word) (m : Lanes) : Instr :=
  match s with
  | 0 => .c148RsvdS01 k wr 0
  | 1 => .c148RsvdS01 k wr 1
  | 2 => .c148RsvdS2 k wr
  | 3 => if wr then .lvlWrCpuirq k d m else .lvlRdCpuirq k
  | 4 => if wr then .lvlWrExirq k d m else .lvlRdExirq k
  | 5 => if wr then .lvlWrPosirq k d m else .lvlRdPosirq k
  | 6 => if wr then .lvlWrScirq k d m else .lvlRdScirq k
  | 7 => if wr then .lvlWrVblank k d m else .lvlRdVblank k
  | 8 => .c148RsvdS89 k wr 0
  | 9 => .c148RsvdS89 k wr 1
  | 10 => if wr then .cpuirqTrig k else .c148RsvdRdS10 k
  | 11 => if wr then .ackCpuirq k else .ackReadCpuirq k
  | 12 => if wr then .ackExirq k else .ackReadExirq k
  | 13 => if wr then .ackPosirq k else .ackReadPosirq k
  | 14 => if wr then .ackScirq k else .ackReadScirq k
  | 15 => if wr then .ackVblank k else .ackReadVblank k
  | 16 => if wr then .eepromRdyWr k else .eepromRdy k
  | 17 => if wr then .rstsndWr k d m else .rstsndRd k
  | 18 => if wr then .rstslvWr k d m else .rstslvRd k
  | 19 => .wdtKick k wr
  | 20 => .c148RsvdS2023 k wr 0
  | 21 => .c148RsvdS2023 k wr 1
  | 22 => .c148RsvdS2023 k wr 2
  | 23 => .c148RsvdS2023 k wr 3
  | n => .c148RsvdS2431 k wr (BitVec.ofNat 3 n)

/-- The write operation of a video register (R123). -/
def vidWriteOp (r : VidReg) (d : Word) (m : Lanes) : Instr :=
  match r with
  | .tile l t => .tileWr l t d m
  | .scrollX l => .scrollxWr l d m
  | .scrollY l => .scrollyWr l d m
  | .bank l => .bankWr l d m
  | .pri l => .lpriWr l d m
  | .flip => .flipWr d m
  | .sprBank => .sprbankWr d m
  | .rozCtrl p i => .rozctrlWr p i d m
  | .rozPri p => .rozpriWr p d m

/-- Format VID (R123), with the reserved codes of R130 (log 17). -/
def decodeVid (p : Proc) (c : BitVec 9) (t : Word) (d : Word) (m : Lanes) : Instr :=
  match vidRegOf (c.toNat / 16 % 16) (c.toNat % 16) t with
  | some r => if c.getLsbD 8 then vidWriteOp r d m else .vidRd p r
  | none =>
    if c.toNat / 16 % 16 ≤ 9 then .vidRsvdK9 p c
    else if c.toNat / 16 % 16 ≤ 11 then .vidRsvdKAB p (c.getLsbD 8) (c.setWidth 5)
    else .vidRsvdKCF p (c.getLsbD 8) (c.setWidth 6)

/-- Format EVT (R124): `0001 ++ src3 ++ k`; every other code is reserved. -/
def decodeEvt (c : Nat) : Except DecodeError Instr :=
  match c / 2 with
  | 8 => .ok (.evtRaiseVblank (genOfBit c))
  | 9 => .ok (.evtRaisePosirq (genOfBit c))
  | 10 => .ok (.evtRaiseExirq (genOfBit c))
  | 11 => .ok (.evtRaiseScirq (genOfBit c))
  | 12 => .ok (.evtRaiseCpuirq (genOfBit c))
  | 13 => .ok (.evtRsvdSrc5 (genOfBit c))
  | 14 => .ok (.evtRsvdSrc67 (BitVec.ofNat 2 c))
  | 15 => .ok (.evtRsvdSrc67 (BitVec.ofNat 2 c))
  | _ => .error .reservedCode

/-- Format SCH (R125). -/
def decodeSch (c : Nat) : Except DecodeError Instr :=
  match c / 16, c % 16 with
  | 0, 1 => .ok .slice
  | 0, 2 => .ok .frameEnd
  | 0, 3 => .ok .machineReset
  | 1, 0 => .ok .composite
  | 1, 1 => .ok .palScan
  | 2, n => match layerOf n with
    | some l => .ok (.renderLayer l)
    | none => .error .reservedCode
  | 3, n => match layerOf n with
    | some l => .ok (.drawLayer l)
    | none => .error .reservedCode
  | 4, 0 => .ok (.drawRoz 0)
  | 4, 1 => .ok (.drawRoz 1)
  | 5, n => .ok (.drawSprites (BitVec.ofNat 4 n))
  | _, _ => .error .reservedCode

/-- Decode the fields of an operation word. -/
def decodeFields (code : Word) (format : Nat) (p : Proc) (m : Lanes) (a : Addr) (d t : Word) : Except DecodeError Instr :=
  match format with
  | 0 => decodeBus p code.toNat a d m
  | 1 => decodeFetch p code.toNat a
  | 2 => match genOf p with
    | some k => if code.toNat < 64 then .ok (decodeC148 k (code.getLsbD 5) (code.toNat % 32) d m) else .error .badCode
    | none => .error .badProcessor
  | 3 => if code.toNat < 512 then .ok (decodeVid p (code.setWidth 9) t d m) else .error .badCode
  | 4 => if code.toNat < 256 then decodeEvt code.toNat else .error .badCode
  | 5 => if code.toNat < 256 then decodeSch code.toNat else .error .badCode
  | _ => .error .badFormat

/-- The operation an operation word stands for; total, rejecting by name. -/
def decode (w : OpWord) : Except DecodeError Instr :=
  match procOf (opProc w), lanesOf (opLanes w) with
  | none, _ => .error .badProcessor
  | _, none => .error .badLanes
  | some p, some m => decodeFields (opCode w) (opFormat w).toNat p m (opAddr w) (opData w) (opTile w)

/-! ### The encoder -/

/-- A BUS operation (R120). -/
def encBus (c : Nat) (p : Proc) (a : Addr) (d : Word) (m : Lanes) : OpWord :=
  packOp (BitVec.ofNat 16 c) 0 (procNo p) (lanesNo m) a d 0

/-- A C148 operation (R121): `wr ++ s`. -/
def encC148 (wr : Bool) (s : Nat) (k : Gen) (d : Word) (m : Lanes) : OpWord :=
  packOp (BitVec.ofNat 16 ((if wr then 32 else 0) + s)) 2 (procNo (genProc k)) (lanesNo m) 0 d 0

/-- A VID operation of processor `p` (R123): `wr ++ kind ++ idx`. -/
def encVid (wr : Bool) (n : Nat) (p : Proc) (t d : Word) (m : Lanes) : OpWord :=
  packOp (BitVec.ofNat 16 ((if wr then 256 else 0) + n)) 3 (procNo p) (lanesNo m) 0 d t

/-- An EVT operation (R124): `0001 ++ src3 ++ k`. -/
def encEvt (src k : Nat) : OpWord := packOp (BitVec.ofNat 16 (16 + 2 * src + k)) 4 0 0 0 0 0

/-- A SCH operation (R125). -/
def encSch (c : Nat) : OpWord := packOp (BitVec.ofNat 16 c) 5 0 0 0 0 0

/-- The operation word of an operation, from the tables of R120-R125. -/
def encode : Instr → OpWord
  | .rd8 p a => encBus 0 p a 0 .both
  | .wr8 p a v => encBus 1 p a (v.setWidth 16) .both
  | .rd16 p a => encBus 2 p a 0 .both
  | .wr16 p a v m => encBus 3 p a v m
  | .ifetch p a => packOp (match genOf p with | some _ => 2 | none => 0) 1 (procNo p) 0 a 0 0
  | .lvlWrCpuirq k v m => encC148 true 3 k v m
  | .lvlWrExirq k v m => encC148 true 4 k v m
  | .lvlWrPosirq k v m => encC148 true 5 k v m
  | .lvlWrScirq k v m => encC148 true 6 k v m
  | .lvlWrVblank k v m => encC148 true 7 k v m
  | .lvlRdCpuirq k => encC148 false 3 k 0 .both
  | .lvlRdExirq k => encC148 false 4 k 0 .both
  | .lvlRdPosirq k => encC148 false 5 k 0 .both
  | .lvlRdScirq k => encC148 false 6 k 0 .both
  | .lvlRdVblank k => encC148 false 7 k 0 .both
  | .cpuirqTrig k => encC148 true 10 k 0 .both
  | .ackCpuirq k => encC148 true 11 k 0 .both
  | .ackExirq k => encC148 true 12 k 0 .both
  | .ackPosirq k => encC148 true 13 k 0 .both
  | .ackScirq k => encC148 true 14 k 0 .both
  | .ackVblank k => encC148 true 15 k 0 .both
  | .ackReadCpuirq k => encC148 false 11 k 0 .both
  | .ackReadExirq k => encC148 false 12 k 0 .both
  | .ackReadPosirq k => encC148 false 13 k 0 .both
  | .ackReadScirq k => encC148 false 14 k 0 .both
  | .ackReadVblank k => encC148 false 15 k 0 .both
  | .eepromRdy k => encC148 false 16 k 0 .both
  | .eepromRdyWr k => encC148 true 16 k 0 .both
  | .rstsndWr k v m => encC148 true 17 k v m
  | .rstslvWr k v m => encC148 true 18 k v m
  | .rstsndRd k => encC148 false 17 k 0 .both
  | .rstslvRd k => encC148 false 18 k 0 .both
  | .wdtKick k wr => encC148 wr 19 k 0 .both
  | .c148RsvdS01 k wr s => encC148 wr s.toNat k 0 .both
  | .c148RsvdS2 k wr => encC148 wr 2 k 0 .both
  | .c148RsvdS89 k wr s => encC148 wr (8 + s.toNat) k 0 .both
  | .c148RsvdRdS10 k => encC148 false 10 k 0 .both
  | .c148RsvdS2023 k wr s => encC148 wr (20 + s.toNat) k 0 .both
  | .c148RsvdS2431 k wr s => encC148 wr (24 + s.toNat) k 0 .both
  | .tileWr l t v m => encVid true (vidRegNo (.tile l t)) .master t v m
  | .scrollxWr l v m => encVid true (vidRegNo (.scrollX l)) .master 0 v m
  | .scrollyWr l v m => encVid true (vidRegNo (.scrollY l)) .master 0 v m
  | .bankWr l v m => encVid true (vidRegNo (.bank l)) .master 0 v m
  | .lpriWr l v m => encVid true (vidRegNo (.pri l)) .master 0 v m
  | .flipWr v m => encVid true (vidRegNo .flip) .master 0 v m
  | .sprbankWr v m => encVid true (vidRegNo .sprBank) .master 0 v m
  | .rozctrlWr p r v m => encVid true (vidRegNo (.rozCtrl p r)) .master 0 v m
  | .rozpriWr p v m => encVid true (vidRegNo (.rozPri p)) .master 0 v m
  | .vidRd p r => encVid false (vidRegNo r) p (vidRegTile r) 0 .both
  | .vidRsvdK9 p c => encVid false c.toNat p 0 0 .both
  | .vidRsvdKAB p wr c => encVid wr (0xA0 + c.toNat) p 0 0 .both
  | .vidRsvdKCF p wr c => encVid wr (0xC0 + c.toNat) p 0 0 .both
  | .evtRaiseVblank k => encEvt 0 (genBit k)
  | .evtRaisePosirq k => encEvt 1 (genBit k)
  | .evtRaiseExirq k => encEvt 2 (genBit k)
  | .evtRaiseScirq k => encEvt 3 (genBit k)
  | .evtRaiseCpuirq k => encEvt 4 (genBit k)
  | .evtRsvdSrc5 k => encEvt 5 (genBit k)
  | .evtRsvdSrc67 c => encEvt 6 c.toNat
  | .slice => encSch 0x01
  | .frameEnd => encSch 0x02
  | .machineReset => encSch 0x03
  | .composite => encSch 0x10
  | .palScan => encSch 0x11
  | .renderLayer l => encSch (0x20 + l.val)
  | .drawLayer l => encSch (0x30 + l.val)
  | .drawRoz p => encSch (0x40 + p.val)
  | .drawSprites v => encSch (0x50 + v.toNat)

/-! ### The opcode table's words -/

/-- The format a word of spec/opcode_table.json is read in. The table numbers each format's codes from bit 0 and
gives the format no bits, so words of different formats coincide (0x10 is EEPROM_RDY, EVT_RAISE_VBLANK and
COMPOSITE); for such a word one format is chosen here (log 2). Words of more than one byte are VID codes. -/
def tableFormat (nbits w : Nat) : BitVec 4 :=
  if 8 < nbits then 3
  else if w < 4 then 0
  else if w = 0x10 ∨ w = 0x11 then 5
  else if w = 0x12 then 4
  else if w = 0x14 ∨ w = 0x15 ∨ (0x16 ≤ w ∧ w ≤ 0x1F) then 4
  else if (0x20 ≤ w ∧ w ≤ 0x22) ∨ w = 0x30 ∨ (0x40 ≤ w ∧ w ≤ 0x5F) then 5
  else if w < 64 then 2
  else if 0x90 ≤ w then 3
  else 5

/-- The operation word of a word of the table, every other operand bit zero. -/
def tableOp (nbits w : Nat) : OpWord := packOp (BitVec.ofNat 16 w) (tableFormat nbits w) 0 0 0 0 0

/-- The operation the decoder reads from a word of the table. -/
def decodeTableWord (nbits w : Nat) : Option Instr :=
  match decode (tableOp nbits w) with
  | .ok i => some i
  | .error _ => none

end Sys2Proof
end

