-- ==== Sys2Proof/Machine/Geometry.lean ====
section
/-! DEFINITION. Sizes and shapes: the tables that hold the frame, cache and colours, the tile layers' geometry
(spec/42_tilemap.md R230), the regions' sizes (10_state.md R39) and the key of a byte in the store. -/

namespace Sys2Proof.Machine

/-- The table of `f 0` to `f (n - 1)`. -/
def tab {α : Type} (n : Nat) (f : Nat → α) : List α := (List.range n).map f

/-- The table of `f x y` for `x < w` and `y < h`, held row by row. -/
def grid {α : Type} (w h : Nat) (f : Nat → Nat → α) : List (List α) := tab h fun y => tab w fun x => f x y

/-- The entry of a table of rows at column `x` of row `y`. -/
def gridAt {α : Type} (d : α) (g : List (List α)) (x y : Nat) : α := (g.getD y []).getD x d

/-- The screen's width (00_scope.md R7). -/
def screenW : Nat := 288

/-- The screen's height (00_scope.md R7). -/
def screenH : Nat := 224

/-- The number of palette entries (00_scope.md R7). -/
def paletteSize : Nat := 8192

/-- `PRI_BITS` as a number. -/
def priBits (b : Board) : Nat :=
  match b.priBits with
  | .three => 3
  | .four => 4

/-- `PRI_MAX` (00_scope.md R9). -/
def priMax (b : Board) : Nat := 2 ^ priBits b - 1

/-- Plane `p` exists: `p < ROZ_PLANES` (00_scope.md R9). -/
def planeExists (b : Board) (p : Plane) : Bool := p == 0 || b.rozPlanes == .two

/-- `cols(l)` (R230): layers 0 to 3 are scroll layers, 4 and 5 fixed layers. -/
def cols (l : Layer) : Nat := if l.val < 4 then 64 else 36

/-- `rows(l)` (R230). -/
def rows (l : Layer) : Nat := if l.val < 4 then 64 else 28

/-- `ntiles(l)` (R230). -/
def ntiles (l : Layer) : Nat := cols l * rows l

/-- `LW(l)` (R230). -/
def layerW (l : Layer) : Nat := 8 * cols l

/-- `LH(l)` (R230). -/
def layerH (l : Layer) : Nat := 8 * rows l

/-- The dirty bitmap with the bit of every tile of layer `l` set. -/
def allDirty (l : Layer) : BitVec 4096 := BitVec.allOnes 4096 >>> (4096 - ntiles l)

/-- The size of a shared region in bytes (10_state.md R39). DESIGN CHOICE: a table may name the ROZ RAM of a plane the board
does not have, which the spec does not give it, and it is RAM of that plane's `ROZ_RAM_SIZE` (log 33). -/
def regionSize (b : Board) : Region → Nat
  | .dpram => 0x800
  | .sprram => 0x4000
  | .sciram => 0x4000
  | .rozram p => b.rozRamSize p
  | .palram => b.palRamSize
  | .vram => b.vramSize
  | .eeprom => b.eepromSize

/-- The number of a byte array in the store's keys. -/
def bankNo : Bank → Nat
  | .region .dpram => 0
  | .region .sprram => 1
  | .region .sciram => 2
  | .region (.rozram p) => 3 + p.val
  | .region .palram => 5
  | .region .vram => 6
  | .region .eeprom => 7
  | .tiles l => 8 + l.val

/-- The byte array of a number; the numbers above 13 name no array, and no key uses them. -/
def bankOf (n : Nat) : Bank :=
  match n with
  | 0 => .region .dpram
  | 1 => .region .sprram
  | 2 => .region .sciram
  | 3 => .region (.rozram 0)
  | 4 => .region (.rozram 1)
  | 5 => .region .palram
  | 6 => .region .vram
  | 7 => .region .eeprom
  | 8 => .tiles 0
  | 9 => .tiles 1
  | 10 => .tiles 2
  | 11 => .tiles 3
  | 12 => .tiles 4
  | _ => .tiles 5

/-- The key of byte `o` of an array in the store: 16 times the offset, plus the array's number. -/
def key (k : Bank) (o : Nat) : Nat := 16 * o + bankNo k

/-- What an unlisted byte of the store reads as: its power-on value (10_state.md R39, D37): the restored blob
for the EEPROM, the free value `initRam` for every other array (log 6). -/
def initByte (b : Board) (n : Nat) : Byte :=
  match bankOf (n % 16) with
  | .region .eeprom => b.eepromBlob (n / 16)
  | k => b.initRam k (n / 16)

end Sys2Proof.Machine
end

