-- ==== Sys2Proof/Machine/State.lean ====
section
/-! DEFINITION. The state of the block as plain data (spec/10_state.md R30-R56), its faults and refusals, and the
state after reset (70_reset_and_hazards.md R440). -/

namespace Sys2Proof.Machine

/-- One thing for each general CPU. -/
structure PerGen (α : Type) where
  master : α
  slave : α
  deriving DecidableEq, Repr

/-- One thing for each processor. -/
structure PerProc (α : Type) where
  master : α
  slave : α
  sound : α
  io : α
  deriving DecidableEq, Repr

/-- The five level registers of a C148 instance (R33). -/
structure Levels where
  vblank : BitVec 3
  posirq : BitVec 3
  exirq : BitVec 3
  scirq : BitVec 3
  cpuirq : BitVec 3
  deriving DecidableEq, Repr

/-- A C148 instance: its level registers (R33) and its internal level register, `owner[L - 1]` for the levels
`L` in 1..7 (R34). -/
structure C148 where
  levels : Levels
  owner : Vector (Option Source) 7
  deriving DecidableEq, Repr

/-- A tile layer (R40, R43, R44). `cache` lists the tiles in order, each as 64 pixels in row order. The tile words
themselves (R42) are in the store. -/
structure TileLayer where
  /-- u16 -/
  scrollX : Word
  /-- u16 -/
  scrollY : Word
  /-- u(`TILE_BANK_BITS`) -/
  colorBank : Word
  /-- u(`PRI_BITS`) -/
  pri : BitVec 4
  /-- bit `t` is the dirty bit of tile `t` -/
  dirty : BitVec 4096
  cache : List (List Px)
  deriving DecidableEq, Repr

/-- The compositor phase (R53). -/
inductive Phase where
  | done
  | init
  | perLevel (n : Nat)
  deriving DecidableEq, Repr

/-- What the block puts out (00_scope.md R13, 46_scheduler.md R371, 45_compositor.md R345, 20_memory.md R84,
60_exceptions.md R401). -/
inductive Output where
  /-- the byte an 8-bit read returns to processor `p` -/
  | data8 (p : Proc) (v : Byte)
  /-- the word a 16-bit read returns to processor `p` -/
  | data16 (p : Proc) (v : Word)
  /-- `setInterruptLine(k, L, b)` -/
  | irqLine (k : Gen) (L : BitVec 3) (b : Bool)
  /-- `setResetLine(p, b)` -/
  | resetLine (p : Proc) (b : Bool)
  /-- `execute(cycles)` of core `p`: its turn begins -/
  | execute (p : Proc) (cycles : Nat)
  /-- `YIELD(k)` -/
  | yield (k : Gen)
  /-- a write to an opaque peripheral -/
  | peripheralWrite (d : Peripheral) (off : Addr) (v : Word) (m : Lanes)
  /-- the diagnostic record of an open-bus access -/
  | openBus (p : Proc) (a : Addr) (w16 wr : Bool)
  /-- `OUTPUT_FRAME`: the indexed frame and the RGB frame -/
  | frame (idx : List (List Pen)) (rgb : List (List RGB))
  deriving DecidableEq, Repr

/-- The state. The first group of fields is the model's own, the second the levels of the block's output wires,
the rest the state of 10_state.md R30. -/
structure State where
  /-- MODEL: operations presented to the block and not yet executed, oldest first (log 3) -/
  pending : List OpWord
  /-- MODEL: the accesses each core will make, a list of turns (log 4) -/
  cores : PerProc (List (List BusAccess))
  /-- MODEL: what the block put out during the last step, oldest first (log 10) -/
  out : List Output
  /-- MODEL: YIELD has ended the running turn (46_scheduler.md R374; log 4) -/
  turnOver : Bool
  /-- MODEL: the number of the next free value (log 11) -/
  draws : Nat
  /-- bit `L` is the level of interrupt line `L`, as last driven (41_c148.md R199) -/
  irqPin : PerGen (BitVec 8)
  /-- the level of each reset line, as last driven -/
  rstPin : PerProc Bool
  /-- R33, R34 -/
  c148 : PerGen C148
  /-- R37 -/
  rstSound : BitVec 1
  /-- R37 -/
  rstSlaveIO : BitVec 1
  /-- R38 -/
  wdt : Nat
  /-- R39, R42, R47, R50 -/
  mem : List Host.Cell
  /-- R40, R43, R44 -/
  layers : Vector TileLayer 6
  /-- R41 -/
  flip : BitVec 1
  /-- R46 -/
  sprBank : Word
  /-- R48 -/
  rozBus : Vector (Vector Word 8) 2
  /-- R49 -/
  rozPri : Vector (BitVec 4) 2
  /-- R51: bit `i` is `visible[i]` -/
  visible : BitVec 8192
  /-- R51 -/
  prevRGB : Option (List RGB)
  /-- R51 -/
  colourTable : List RGB
  /-- R52, row by row -/
  fb : List (List Pen)
  /-- R53 -/
  phase : Phase
  /-- R54 -/
  frame : Nat
  /-- R54 -/
  slice : Nat
  /-- R54 -/
  turn : Proc
  /-- R56 -/
  analogLatch : Vector Byte 8
  /-- R56, "conversion complete"; when it sets is OPEN (log 11) -/
  analogDone : Bool
  deriving DecidableEq, Repr

/-- Why the machine stops with a fault. -/
inductive Fault where
  /-- Raised by DRAW_LAYER alone, on a layer with a dirty tile (42_tilemap.md R240, 60_exceptions.md R402).
  Safe: the model stops where the source gives no effect. -/
  | staleTileCache
  deriving DecidableEq, Repr

/-- Why an operation is given no meaning. -/
inductive Refusal where
  /-- Raised by no arm of `exec` any more: every instruction has its meaning. Safe. -/
  | notModelled (mnemonic : String)
  /-- Raised by a 16-bit access at an odd address, or from SOUND or IO (20_memory.md R90, 40_router.md R151,
  60_exceptions.md R402). Safe: the spec refuses it. -/
  | misalignedWord
  /-- Raised by a reserved EVT or SCH code (46_scheduler.md R376, 60_exceptions.md R402). Safe: the spec refuses it. -/
  | reservedCode
  /-- Raised by DRAW_ROZ of a plane the board does not have (44_roz.md R319: it "is not issued"; log 15). Safe. -/
  | noSuchPlane
  /-- Raised by an operation word that is no operation of the spec: no such format, processor, lane mask or code
  of the format's width (log 1). Safe. -/
  | badOperation
  deriving DecidableEq, Repr

/-- The outputs a reset drives (70_reset_and_hazards.md R440, after the table): every interrupt line of both CPUs
low, SOUND, SLAVE and IO held, MASTER reset and released. DESIGN CHOICE: the spec gives the calls of the interrupt lines no
order ("for every k and L"), and here they are MASTER's lines 1 to 7, then SLAVE's (log 34). -/
def resetOutputs : List Output :=
  ([1, 2, 3, 4, 5, 6, 7] : List (BitVec 3)).map (fun L => Output.irqLine .master L false)
    ++ ([1, 2, 3, 4, 5, 6, 7] : List (BitVec 3)).map (fun L => Output.irqLine .slave L false)
    ++ [.resetLine .sound true, .resetLine .slave true, .resetLine .io true, .resetLine .master true,
      .resetLine .master false]

/-- A C148 instance after reset: every level 0, every owner none (R440). -/
def C148.reset : C148 := ⟨⟨0, 0, 0, 0, 0⟩, Vector.replicate 7 none⟩

/-- Layer `l` after reset number `n` (R440): registers 0, every tile dirty, the cache unspecified. -/
def TileLayer.reset (b : Board) (n : Nat) (l : Layer) : TileLayer :=
  { scrollX := 0, scrollY := 0, colorBank := 0, pri := 0, dirty := allDirty l
    cache := tab (ntiles l) fun t => tab 64 fun i => b.drawCache n l t i }

/-- The state the reset procedure leaves on board `b` (70_reset_and_hazards.md R440), with memory at its power-on
contents and nothing presented; `n` numbers the reset, so that what R440 leaves unspecified is drawn afresh. -/
def State.afterReset (b : Board) (n : Nat) : State :=
  { pending := []
    cores := ⟨[], [], [], []⟩
    out := resetOutputs
    turnOver := false
    draws := n + 1
    irqPin := ⟨0, 0⟩
    rstPin := ⟨false, true, true, true⟩
    c148 := ⟨C148.reset, C148.reset⟩
    rstSound := 0
    rstSlaveIO := 0
    wdt := 0
    mem := []
    layers := #v[TileLayer.reset b n 0, TileLayer.reset b n 1, TileLayer.reset b n 2, TileLayer.reset b n 3,
      TileLayer.reset b n 4, TileLayer.reset b n 5]
    flip := 0
    sprBank := 0
    rozBus := Vector.replicate 2 (Vector.replicate 8 0)
    rozPri := Vector.replicate 2 0
    visible := 0
    prevRGB := none
    colourTable := tab paletteSize fun i => b.drawColour n i
    fb := grid screenW screenH fun x y => b.drawFb n x y
    phase := .done
    frame := 0
    slice := 0
    turn := .master
    analogLatch := Vector.ofFn fun i => b.drawLatch n i.val
    analogDone := b.drawDone n }

/-- The machine right after power-on (70_reset_and_hazards.md R440). -/
def State.reset : State := State.afterReset Config.board 0

end Sys2Proof.Machine
end

