-- ==== Sys2Proof/Machine/Operands.lean ====
section
/-! DEFINITION. The operand forms: lanes and byte order (spec/20_memory.md R81, R88), the fields of a data operand
(30_encoding.md R126, R127), addresses and selectors (R120, R121), and access by name to what State holds once
for each CPU, processor, source, level or plane. -/

namespace Sys2Proof.Machine

/-! ### Bytes and lanes -/

/-- The big-endian word of two bytes (R81): the byte at the even address is bits 15:8. -/
def ofBytes (hi lo : Byte) : Word := hi ++ lo

/-- Bits 15:8, the byte at the even address. -/
def hiByte (w : Word) : Byte := w.extractLsb' 8 8

/-- Bits 7:0, the byte at the odd address. -/
def loByte (w : Word) : Byte := w.extractLsb' 0 8

/-- The byte of a word that an 8-bit access at address `a` reads (40_router.md R150). -/
def byteAt (a : Nat) (w : Word) : Byte := if a % 2 = 0 then hiByte w else loByte w

/-- The lane mask as a word (R88). -/
def laneMask : Lanes → Word
  | .both => 0xFFFF
  | .high => 0xFF00
  | .low => 0x00FF

/-- The lane of a byte write at address `a` (R88). -/
def lanesAt (a : Nat) : Lanes := if a % 2 = 0 then .high else .low

/-- A byte in the lane of address `a` (R88, 40_router.md R152). -/
def byteInLane (a : Nat) (v : Byte) : Word := if a % 2 = 0 then ofBytes v 0 else ofBytes 0 v

/-- The lane merge of R88: `(old & ~m) | (v & m)`. -/
def merge (old v : Word) (m : Lanes) : Word := (old &&& ~~~laneMask m) ||| (v &&& laneMask m)

/-! ### The fields of a data operand -/

/-- A level: `d[2:0]` (R126). -/
def levelField (d : Word) : BitVec 3 := d.setWidth 3

/-- A single bit: `d[0]` (R126, R127). -/
def bitField (d : Word) : BitVec 1 := d.setWidth 1

/-- A colour bank: `d[TILE_BANK_BITS-1:0]` (R127). -/
def bankField (b : Board) (d : Word) : Word := BitVec.ofNat 16 (d.toNat % 2 ^ b.tileBankBits)

/-- A priority: `d[PRI_BITS-1:0]` (R127). -/
def priField (b : Board) (d : Word) : BitVec 4 := BitVec.ofNat 4 (d.toNat % 2 ^ priBits b)

/-! ### Addresses -/

/-- The address the router sees: the low `ADDR_BITS[p]` bits (20_memory.md R80, R120; log 12). -/
def busAddr (b : Board) (p : Proc) (a : Addr) : Nat := a.toNat % 2 ^ b.addrBits p

/-- The offset `a - R.start` that a handler gets (20_memory.md R84), on 32 bits (log 21). -/
def handlerOff (R : AddressRange) (a : Nat) : Addr := BitVec.ofNat 32 a - BitVec.ofNat 32 R.start

/-- The offset of the even address of a byte access, `a - R.start - (a mod 2)` (40_router.md R150). DESIGN CHOICE: at the
odd start of a handler range that is -1, to which the spec gives no meaning: here it is 0xFFFFFFFF, the last offset of 32
bits (log 21). -/
def handlerOffEven (R : AddressRange) (a : Nat) : Addr := handlerOff R a - BitVec.ofNat 32 (a % 2)

/-- The C148 selector `off[17:13]` (30_encoding.md R121). -/
def selector (off : Addr) : BitVec 5 := off.extractLsb' 13 5

/-- A 16-bit access is refused: its address is odd, or the processor is not a general CPU (20_memory.md R90,
40_router.md R151). Which addresses are odd does not depend on ADDR_BITS: bit 0 is on every bus (log 12). -/
def refused16 (p : Proc) (a : Addr) : Bool := a.getLsbD 0 || (genOf p).isNone

/-! ### Access by name -/

/-- The thing of general CPU `k`. -/
def PerGen.get {α : Type} (x : PerGen α) : Gen → α
  | .master => x.master
  | .slave => x.slave

/-- Replace the thing of general CPU `k`. -/
def PerGen.set {α : Type} (x : PerGen α) (k : Gen) (v : α) : PerGen α :=
  match k with
  | .master => { x with master := v }
  | .slave => { x with slave := v }

/-- The thing of processor `p`. -/
def PerProc.get {α : Type} (x : PerProc α) : Proc → α
  | .master => x.master
  | .slave => x.slave
  | .sound => x.sound
  | .io => x.io

/-- Replace the thing of processor `p`. -/
def PerProc.set {α : Type} (x : PerProc α) (p : Proc) (v : α) : PerProc α :=
  match p with
  | .master => { x with master := v }
  | .slave => { x with slave := v }
  | .sound => { x with sound := v }
  | .io => { x with io := v }

/-- The level register of a source (10_state.md R33). -/
def Levels.get (x : Levels) : Source → BitVec 3
  | .vblank => x.vblank
  | .posirq => x.posirq
  | .exirq => x.exirq
  | .scirq => x.scirq
  | .cpuirq => x.cpuirq

/-- Replace the level register of a source. -/
def Levels.set (x : Levels) (src : Source) (v : BitVec 3) : Levels :=
  match src with
  | .vblank => { x with vblank := v }
  | .posirq => { x with posirq := v }
  | .exirq => { x with exirq := v }
  | .scirq => { x with scirq := v }
  | .cpuirq => { x with cpuirq := v }

/-- The place of level `L` among the owners (10_state.md R34). -/
def ownerIdx (L : BitVec 3) : Fin 7 := ⟨L.toNat - 1, by have := L.isLt; omega⟩

/-- `owner[k][L]`; level 0 has none (10_state.md R34). -/
def C148.ownerAt (c : C148) (L : BitVec 3) : Option Source := if L = 0 then none else c.owner[ownerIdx L]

/-- Set `owner[k][L]`; level 0 has none. -/
def C148.setOwner (c : C148) (L : BitVec 3) (o : Option Source) : C148 :=
  if L = 0 then c else { c with owner := c.owner.set (ownerIdx L).val o (ownerIdx L).isLt }

/-- The other general CPU (00_scope.md R10). -/
def peer : Gen → Gen
  | .master => .slave
  | .slave => .master

/-- Set or clear one bit of a row of wires. -/
def setWire {n : Nat} (w : BitVec n) (i : Nat) (v : Bool) : BitVec n :=
  if v then w ||| BitVec.twoPow n i else w &&& ~~~BitVec.twoPow n i

/-- Layer `l` of the state. -/
def State.layer (s : State) (l : Layer) : TileLayer := s.layers[l]

/-- The source that the selectors 3-7, and less 8 the selectors 11-15, name (41_c148.md, srcOf). -/
def srcOf (s : Nat) : Source :=
  match s with
  | 3 => .cpuirq
  | 4 => .exirq
  | 5 => .posirq
  | 6 => .scirq
  | _ => .vblank

end Sys2Proof.Machine
end

