-- ==== Sys2Proof/Machine/Flags.lean ====
section
/-! DEFINITION. The derived flags of the block: interrupt lines and requests (spec/10_state.md R35, R36,
60_exceptions.md R404), held processors (R37), dirty bits (R43) and visible flags (R51). -/

namespace Sys2Proof.Machine

/-- `line[k][L]` (R35): some source owns the level. -/
def line (s : State) (k : Gen) (L : BitVec 3) : Bool := ((s.c148.get k).ownerAt L).isSome

/-- `ipl[k]` (R35): the highest asserted level, 0 if none is. -/
def ipl (s : State) (k : Gen) : Nat :=
  ([1, 2, 3, 4, 5, 6, 7] : List (BitVec 3)).foldl (fun n L => if line s k L then L.toNat else n) 0

/-- The level of a source of instance `k` (R33). -/
def levelOf (s : State) (k : Gen) (src : Source) : BitVec 3 := (s.c148.get k).levels.get src

/-- The source is enabled (60_exceptions.md R404). -/
def enabled (s : State) (k : Gen) (src : Source) : Bool := levelOf s k src ≠ 0

/-- The source is pending (R404), which is the line-asserted state of R36. -/
def sourcePending (s : State) (k : Gen) (src : Source) : Bool :=
  enabled s k src && decide ((s.c148.get k).ownerAt (levelOf s k src) = some src)

/-- The processor is held in reset (R37). -/
def held (s : State) : Proc → Bool
  | .master => false
  | .slave => s.rstSlaveIO = 0
  | .sound => s.rstSound = 0
  | .io => s.rstSlaveIO = 0

/-- `dirty[l][t]` (R43). -/
def dirtyAt (s : State) (l : Layer) (t : Nat) : Bool := (s.layer l).dirty.getLsbD t

/-- Some tile of the layer is dirty. -/
def anyDirty (s : State) (l : Layer) : Bool := (s.layer l).dirty ≠ 0

/-- The bitmap with the bit of tile `t` set too. -/
def markTile (d : BitVec 4096) (t : Nat) : BitVec 4096 := setWire d t true

/-- `visible[i]` (R51). -/
def visibleAt (s : State) (i : Nat) : Bool := s.visible.getLsbD i

/-- The visible set of a list of palette indices (45_compositor.md R347). -/
def markPens (pens : List Pen) : BitVec 8192 := pens.foldl (fun v c => setWire v c.toNat true) 0

end Sys2Proof.Machine
end

