-- ==== Sys2Proof/Machine/Memory.lean ====
section
/-! DEFINITION. The shared-region store: a list of (key, byte) cells in one canonical form, keys strictly rising
and no cell equal to what an unlisted byte reads as. `init` is that power-on value (`initByte`). -/

namespace Sys2Proof.Machine

/-- The byte a cell list holds for key `n`, if it lists one. -/
def memFind : List Host.Cell → Nat → Option Byte
  | [], _ => none
  | c :: m, n => if c.1 = n then some c.2 else memFind m n

/-- Read the byte of key `n`. -/
def memRead (init : Nat → Byte) (m : List Host.Cell) (n : Nat) : Byte := (memFind m n).getD (init n)

/-- Drop every cell of key `n`. -/
def memErase : List Host.Cell → Nat → List Host.Cell
  | [], _ => []
  | c :: m, n => if c.1 = n then memErase m n else c :: memErase m n

/-- Put byte `v` in the cell of key `n`, in key order. -/
def memPut : List Host.Cell → Nat → Byte → List Host.Cell
  | [], n, v => [(n, v)]
  | c :: m, n, v => if n < c.1 then (n, v) :: c :: m else if c.1 = n then (n, v) :: m else c :: memPut m n v

/-- Write byte `v` at key `n`: the cell is dropped where `v` is what an unlisted byte reads as. -/
def memWrite (init : Nat → Byte) (m : List Host.Cell) (n : Nat) (v : Byte) : List Host.Cell :=
  if v = init n then memErase m n else memPut m n v

/-- Every key of the list lies above `n`. -/
def memAbove (n : Nat) : List Host.Cell → Bool
  | [] => true
  | c :: m => decide (n < c.1) && memAbove n m

/-- The canonical form: keys strictly rising, no cell at its power-on value. -/
def Memory.wf (init : Nat → Byte) : List Host.Cell → Bool
  | [] => true
  | c :: m => memAbove c.1 m && decide (c.2 ≠ init c.1) && Memory.wf init m

end Sys2Proof.Machine
end

