-- ==== Sys2Proof/Machine/Ops.lean ====
section
/-! DEFINITION. The named operations over the state that the families share: outputs and pins, raising and
acknowledging an interrupt source (spec/41_c148.md R171, R172: the block takes no exception of its own,
60_exceptions.md R400, R407), the yield (46_scheduler.md R374), the shared regions (20_memory.md R83) and the
tile words (10_state.md R42). -/

namespace Sys2Proof.Machine

/-- The outcome of an operation. -/
abbrev Result := Host.Outcome State Fault Refusal

/-! ### Outputs -/

/-- Put out `e`. -/
def emit (e : Output) (s : State) : State := { s with out := s.out ++ [e] }

/-- `setInterruptLine(k, L, v)` (00_scope.md R13). -/
def driveIrq (k : Gen) (L : BitVec 3) (v : Bool) (s : State) : State :=
  { s with irqPin := s.irqPin.set k (setWire (s.irqPin.get k) L.toNat v), out := s.out ++ [.irqLine k L v] }

/-- `setResetLine(p, v)` (00_scope.md R13). -/
def driveReset (p : Proc) (v : Bool) (s : State) : State :=
  { s with rstPin := s.rstPin.set p v, out := s.out ++ [.resetLine p v] }

/-- `YIELD(k)` (46_scheduler.md R374): the turn is over. -/
def yieldTurn (k : Gen) (s : State) : State := { s with turnOver := true, out := s.out ++ [.yield k] }

/-- Return an 8-bit read to processor `p`. -/
def return8 (p : Proc) (v : Byte) (s : State) : State := emit (.data8 p v) s

/-- Return a 16-bit read to processor `p`. -/
def return16 (p : Proc) (v : Word) (s : State) : State := emit (.data16 p v) s

/-! ### Interrupt sources -/

/-- Set `owner[k][L]`. -/
def setOwner (k : Gen) (L : BitVec 3) (o : Option Source) (s : State) : State :=
  { s with c148 := s.c148.set k ((s.c148.get k).setOwner L o) }

/-- `raise(k, src)` (41_c148.md R171): last write wins on the level's owner. -/
def raiseIrq (k : Gen) (src : Source) (s : State) : State :=
  let L := levelOf s k src
  if L = 0 then s else driveIrq k L true (setOwner k L (some src) s)

/-- `acknowledge(k, src)` (41_c148.md R172): clears the level `src` has now, whoever owns it. -/
def acknowledge (k : Gen) (src : Source) (s : State) : State :=
  let L := levelOf s k src
  if L = 0 then s else driveIrq k L false (setOwner k L none s)

/-! ### The store -/

/-- Byte `o` of an array of the store. -/
def readByte (b : Board) (s : State) (k : Bank) (o : Nat) : Byte := memRead (initByte b) s.mem (key k o)

/-- Write byte `o` of an array of the store. -/
def writeByte (b : Board) (k : Bank) (o : Nat) (v : Byte) (s : State) : State :=
  { s with mem := memWrite (initByte b) s.mem (key k o) v }

/-- Replace layer `l`. -/
def setLayer (l : Layer) (x : TileLayer) (s : State) : State :=
  { s with layers := s.layers.set l.val x l.isLt }

/-- Mark tile `t` of layer `l` dirty (10_state.md R43). -/
def markDirty (l : Layer) (t : Nat) (s : State) : State :=
  setLayer l { s.layer l with dirty := markTile (s.layer l).dirty t } s

/-- Where the store keeps byte `o` of a region: a byte of `VRAM` that holds a tile word is kept with the tile
words (10_state.md R42). DESIGN CHOICE: the placement is OPEN; here a tile word lies at an even offset, its high byte
there and its low byte after it, and never at an odd offset (log 35). Any such `vramTile` is admitted; a word it puts
nowhere in `VRAM` is reached through the tile registers alone, and one it puts at two places is one word under both (log 35). That a write to it marks its tile dirty is log 8. -/
def regionPlace (b : Board) (r : Region) (o : Nat) : Bank × Nat :=
  match r with
  | .vram =>
    match b.vramTile (o / 2) with
    | some (l, t) => (.tiles l, 2 * (t.toNat % ntiles l) + o % 2)
    | none => (.region .vram, o)
  | r => (.region r, o)

/-- `Region(r)[o]` (00_scope.md R13). -/
def regionRead (b : Board) (s : State) (r : Region) (o : Nat) : Byte :=
  readByte b s (regionPlace b r o).1 (regionPlace b r o).2

/-- `Region(r)[o] <- v`. A write that reaches a tile word marks its tile dirty (10_state.md R45, 20_memory.md R92;
log 8). -/
def regionWrite (b : Board) (r : Region) (o : Nat) (v : Byte) (s : State) : State :=
  let s' := writeByte b (regionPlace b r o).1 (regionPlace b r o).2 v s
  match (regionPlace b r o).1 with
  | .tiles l => markDirty l ((regionPlace b r o).2 / 2) s'
  | .region _ => s'

/-- The big-endian word at the offsets `o` and `o'` of a region (20_memory.md R81). -/
def regionWord (b : Board) (s : State) (r : Region) (o o' : Nat) : Word :=
  ofBytes (regionRead b s r o) (regionRead b s r o')

/-- `tileWord[l][t]` (10_state.md R42). -/
def tileWord (b : Board) (s : State) (l : Layer) (t : Nat) : Word :=
  ofBytes (readByte b s (.tiles l) (2 * t)) (readByte b s (.tiles l) (2 * t + 1))

/-- `tileWord[l][t] <- w`. -/
def setTileWord (b : Board) (l : Layer) (t : Nat) (w : Word) (s : State) : State :=
  writeByte b (.tiles l) (2 * t + 1) (loByte w) (writeByte b (.tiles l) (2 * t) (hiByte w) s)

end Sys2Proof.Machine
end

