-- ==== Sys2Proof/Machine/Events.lean ====
section
/-! DEFINITION. The external events (spec/41_c148.md R173, 46_scheduler.md R376): the meanings of the EVT rows. -/

namespace Sys2Proof.Machine

/-- EVT RAISE of VBLANK (R173). -/
def execEvtRaiseVblank (k : Gen) (s : State) : Result := .next (raiseIrq k .vblank s)

/-- EVT RAISE of POSIRQ (R173). -/
def execEvtRaisePosirq (k : Gen) (s : State) : Result := .next (raiseIrq k .posirq s)

/-- EVT RAISE of EXIRQ (R173). -/
def execEvtRaiseExirq (k : Gen) (s : State) : Result := .next (raiseIrq k .exirq s)

/-- EVT RAISE of SCIRQ (R173). -/
def execEvtRaiseScirq (k : Gen) (s : State) : Result := .next (raiseIrq k .scirq s)

/-- EVT RAISE of CPUIRQ (R173). -/
def execEvtRaiseCpuirq (k : Gen) (s : State) : Result := .next (raiseIrq k .cpuirq s)

/-- An EVT code with src3 = 5 (R376): refused. -/
def execEvtRsvdSrc5 (_k : Gen) (_s : State) : Result := .refused .reservedCode

/-- An EVT code with src3 = 6 or 7 (R376): refused. -/
def execEvtRsvdSrc67 (_c : BitVec 2) (_s : State) : Result := .refused .reservedCode

end Sys2Proof.Machine
end

