-- ==== Sys2Proof/Machine/Tilemap.lean ====
section
/-! DEFINITION. The Tilemap Layer Manager (spec/42_tilemap.md): the layer registers, rendering and drawing, and the
meanings of TILE_WR, SCROLLX_WR, SCROLLY_WR, BANK_WR, LPRI_WR, FLIP_WR, RENDER_LAYER and DRAW_LAYER. -/

namespace Sys2Proof.Machine

/-! ### The frame buffer -/

/-- `fb[x][y]` (10_state.md R52). -/
def fbAt (s : State) (x y : Nat) : Pen := gridAt 0 s.fb x y

/-- Draw a pixel source over a frame: its non-transparent pixels are written. -/
def overlay (f : Nat → Nat → Px) (g : List (List Pen)) : List (List Pen) :=
  grid screenW screenH fun x y => (f x y).getD (gridAt 0 g x y)

/-- A palette index from a colour bank, its stride, an offset and a pen, modulo 8192 (D47). -/
def palIndex (base bank stride pen : Nat) : Pen := BitVec.ofNat 13 (base + bank * stride + pen)

/-! ### Registers -/

/-- TILE_WR (R231): the tile index wraps, the word merges by lane, the tile is marked dirty. -/
def tileWrite (b : Board) (l : Layer) (t v : Word) (m : Lanes) (s : State) : State :=
  let t' := t.toNat % ntiles l
  markDirty l t' (setTileWord b l t' (merge (tileWord b s l t') v m) s)

/-- SCROLLX_WR (R232). -/
def scrollXWrite (l : Layer) (v : Word) (m : Lanes) (s : State) : State :=
  setLayer l { s.layer l with scrollX := merge (s.layer l).scrollX v m } s

/-- SCROLLY_WR (R233). -/
def scrollYWrite (l : Layer) (v : Word) (m : Lanes) (s : State) : State :=
  setLayer l { s.layer l with scrollY := merge (s.layer l).scrollY v m } s

/-- BANK_WR (R234): a changed bank marks the whole layer dirty, an unchanged one changes nothing. -/
def bankWrite (b : Board) (l : Layer) (v : Word) (m : Lanes) (s : State) : State :=
  let nb := bankField b (merge (s.layer l).colorBank v m)
  if nb = (s.layer l).colorBank then s
  else setLayer l { s.layer l with colorBank := nb, dirty := allDirty l } s

/-- LPRI_WR (R235). -/
def layerPriWrite (b : Board) (l : Layer) (v : Word) (m : Lanes) (s : State) : State :=
  setLayer l { s.layer l with pri := priField b (merge ((s.layer l).pri.setWidth 16) v m) } s

/-- FLIP_WR (R236): every tile of every layer is marked dirty, changed or not. -/
def flipWrite (v : Word) (m : Lanes) (s : State) : State :=
  { s with
    flip := bitField (merge (s.flip.setWidth 16) v m)
    layers := Vector.ofFn fun l => { s.layer l with dirty := allDirty l } }

/-! ### Rendering -/

/-- Pixel (px, py) of `decodeTile(word, bank, f)` (R238). -/
def decodePixel (b : Board) (word bank : Word) (f : BitVec 1) (px py : Nat) : Px :=
  let qx := if f = 1 then 7 - px else px
  let qy := if f = 1 then 7 - py else py
  let code := b.tileRemap word
  if b.tileMask code qx qy then some (palIndex 0 bank.toNat b.tileBankStride (b.tileGfx code qx qy)) else none

/-- `decodeTile(word, bank, f)` (R238), its 64 pixels in row order. -/
def decodeTile (b : Board) (word bank : Word) (f : BitVec 1) : List Px :=
  tab 64 fun i => decodePixel b word bank f (i % 8) (i / 8)

/-- `cache[l][t]` (10_state.md R44). -/
def cacheTile (s : State) (l : Layer) (t : Nat) : List Px := (s.layer l).cache.getD t []

/-- RENDER_LAYER (R237): dirty tiles are decoded, clean ones reused, and every dirty bit is cleared. -/
def renderTiles (b : Board) (l : Layer) (s : State) : State :=
  setLayer l { s.layer l with
    cache := tab (ntiles l) fun t =>
      if dirtyAt s l t then decodeTile b (tileWord b s l t) (s.layer l).colorBank s.flip else cacheTile s l t
    dirty := 0 } s

/-! ### Drawing -/

/-- The layer's pixel column for screen column `ux` (R239). -/
def layerX (b : Board) (s : State) (l : Layer) (ux : Nat) : Nat :=
  (((ux : Int) + b.layerOriginX l + (s.layer l).scrollX.toNat) % (layerW l : Int)).toNat

/-- The layer's pixel row for screen row `uy` (R239). -/
def layerY (b : Board) (s : State) (l : Layer) (uy : Nat) : Nat :=
  (((uy : Int) + b.layerOriginY l + (s.layer l).scrollY.toNat) % (layerH l : Int)).toNat

/-- The tile index `t` that `layerPixel(l, ux, uy)` reads (R239). -/
def tileIndexAt (b : Board) (s : State) (l : Layer) (ux uy : Nat) : Nat :=
  layerY b s l uy / 8 * cols l + layerX b s l ux / 8

/-- `layerPixel(l, ux, uy)` (R239). -/
def layerPixel (b : Board) (s : State) (l : Layer) (ux uy : Nat) : Px :=
  let px := layerX b s l ux % 8
  let py := layerY b s l uy % 8
  let cx := if s.flip = 1 then 7 - px else px
  let cy := if s.flip = 1 then 7 - py else py
  (cacheTile s l (tileIndexAt b s l ux uy)).getD (cy * 8 + cx) none

/-- DRAW_LAYER without its guard (R240). -/
def drawTiles (b : Board) (l : Layer) (s : State) : State :=
  { s with fb := overlay (layerPixel b s l) s.fb }

/-! ### Meanings -/

/-- TILE_WR (R231). -/
def execTileWr (l : Layer) (t v : Word) (m : Lanes) (s : State) : Result := .next (tileWrite Config.board l t v m s)

/-- SCROLLX_WR (R232). -/
def execScrollxWr (l : Layer) (v : Word) (m : Lanes) (s : State) : Result := .next (scrollXWrite l v m s)

/-- SCROLLY_WR (R233). -/
def execScrollyWr (l : Layer) (v : Word) (m : Lanes) (s : State) : Result := .next (scrollYWrite l v m s)

/-- BANK_WR (R234). -/
def execBankWr (l : Layer) (v : Word) (m : Lanes) (s : State) : Result := .next (bankWrite Config.board l v m s)

/-- LPRI_WR (R235). -/
def execLpriWr (l : Layer) (v : Word) (m : Lanes) (s : State) : Result := .next (layerPriWrite Config.board l v m s)

/-- FLIP_WR (R236). -/
def execFlipWr (v : Word) (m : Lanes) (s : State) : Result := .next (flipWrite v m s)

/-- RENDER_LAYER (R237). -/
def execRenderLayer (l : Layer) (s : State) : Result := .next (renderTiles Config.board l s)

/-- DRAW_LAYER (R240): the model guard, then the draw. -/
def execDrawLayer (l : Layer) (s : State) : Result :=
  if anyDirty s l then .fault .staleTileCache else .next (drawTiles Config.board l s)

end Sys2Proof.Machine
end

