-- ==== Sys2Proof/Machine/Roz.lean ====
section
/-! DEFINITION. The ROZ Affine Rasterizer (spec/44_roz.md), and the meanings of ROZCTRL_WR, ROZPRI_WR and
DRAW_ROZ. -/

namespace Sys2Proof.Machine

/-- The default `ROZ_CTRL_DECODE` (10_state.md R48): the deltas are 8.8 in words 0-3, the starts words 4 and 5,
words 6 and 7 unused. -/
def rozCtrlDefault (w : Vector Word 8) : RozCtl :=
  { rightDx := w[0].signExtend 32 <<< 8
    rightDy := w[1].signExtend 32 <<< 8
    downDx := w[2].signExtend 32 <<< 8
    downDy := w[3].signExtend 32 <<< 8
    startX := w[4]
    startY := w[5] }

/-- `rozBus[p][r]` (10_state.md R48). -/
def rozBusAt (s : State) (p : Plane) (r : BitVec 3) : Word := (s.rozBus[p])[r.toNat]

/-- ROZCTRL_WR (R310); a plane the board does not have is a reserved code (30_encoding.md R132, R133). -/
def rozCtrlWrite (b : Board) (p : Plane) (r : BitVec 3) (v : Word) (m : Lanes) (s : State) : State :=
  if planeExists b p then
    { s with rozBus := s.rozBus.set p.val ((s.rozBus[p]).set r.toNat (merge (rozBusAt s p r) v m) r.isLt) p.isLt }
  else s

/-- ROZPRI_WR (R311); as ROZCTRL_WR for a plane the board does not have. -/
def rozPriWrite (b : Board) (p : Plane) (v : Word) (m : Lanes) (s : State) : State :=
  if planeExists b p then
    { s with rozPri := s.rozPri.set p.val (priField b (merge ((s.rozPri[p]).setWidth 16) v m)) p.isLt }
  else s

/-- The logical control values of plane `p` (10_state.md R48). -/
def rozCtl (b : Board) (s : State) (p : Plane) : RozCtl := b.rozCtrlDecode s.rozBus[p]

/-- `X(ux, uy)` (R312, R313), modulo 2^32. -/
def rozX (c : RozCtl) (ux uy : Nat) : BitVec 32 :=
  (c.startX.signExtend 32 <<< 12) + BitVec.ofNat 32 uy * c.downDx + BitVec.ofNat 32 ux * c.rightDx

/-- `Y(ux, uy)` (R312, R313), modulo 2^32. -/
def rozY (c : RozCtl) (ux uy : Nat) : BitVec 32 :=
  (c.startY.signExtend 32 <<< 12) + BitVec.ofNat 32 uy * c.downDy + BitVec.ofNat 32 ux * c.rightDy

/-- The source-space pixel coordinate of an accumulator, bits 26:16 (R314, 30_encoding.md R129). -/
def rozPixelCoord (x : BitVec 32) : Nat := (x.extractLsb' 16 11).toNat

/-- The byte offset of ROZ RAM entry (tx, ty) (10_state.md R50, R315). -/
def rozEntryOff (b : Board) (p : Plane) (tx ty : Nat) : Nat := 2 * (ty * 256 + tx) % b.rozRamSize p

/-- ROZ RAM entry (tx, ty), big-endian (R315; its second byte wraps within the region, log 26). -/
def rozEntry (b : Board) (s : State) (p : Plane) (tx ty : Nat) : Word :=
  regionWord b s (.rozram p) (rozEntryOff b p tx ty) ((rozEntryOff b p tx ty + 1) % b.rozRamSize p)

/-- The palette index of a ROZ pen, TRANSPARENT for 0xFF (R316, R317). -/
def rozPen (b : Board) (s : State) (pen : Byte) : Px :=
  if pen = 0xFF then none
  else some (palIndex b.rozPalBase (b.sprbankDecode s.sprBank).rozColor b.rozBankStride pen.toNat)

/-- The tile that plane `p` shows at the source-space pixel (sxp, syp) (R315). -/
def rozTileAt (b : Board) (s : State) (p : Plane) (sxp syp : Nat) : Nat := b.rozTile (rozEntry b s p (sxp / 8) (syp / 8))

/-- `rozPixel(p, ux, uy)` (R318). -/
def rozPixel (b : Board) (s : State) (p : Plane) (ux uy : Nat) : Px :=
  if b.rozPresent p then
    let c := rozCtl b s p
    let sxp := rozPixelCoord (rozX c ux uy)
    let syp := rozPixelCoord (rozY c ux uy)
    rozPen b s (b.rozGfx p (rozTileAt b s p sxp syp) (sxp % 8) (syp % 8))
  else none

/-- DRAW_ROZ (R319): a plane without graphics data draws nothing (R320). -/
def drawRozPlane (b : Board) (p : Plane) (s : State) : State :=
  if b.rozPresent p then { s with fb := overlay (rozPixel b s p) s.fb } else s

/-! ### Meanings -/

/-- ROZCTRL_WR (R310). -/
def execRozctrlWr (p : Plane) (r : BitVec 3) (v : Word) (m : Lanes) (s : State) : Result :=
  .next (rozCtrlWrite Config.board p r v m s)

/-- ROZPRI_WR (R311). -/
def execRozpriWr (p : Plane) (v : Word) (m : Lanes) (s : State) : Result := .next (rozPriWrite Config.board p v m s)

/-- DRAW_ROZ (R319): refused for a plane the board does not have, for which it "is not issued" (log 15). -/
def execDrawRoz (p : Plane) (s : State) : Result :=
  if planeExists Config.board p then .next (drawRozPlane Config.board p s) else .refused .noSuchPlane

end Sys2Proof.Machine
end

