-- ==== Sys2Proof/Machine/Sprite.lean ====
section
/-! DEFINITION. The Sprite Renderer (spec/43_sprite.md), and the meanings of SPRBANK_WR and DRAW_SPRITES. -/

namespace Sys2Proof.Machine

/-- SPRBANK_WR (R272). -/
def sprBankWrite (v : Word) (m : Lanes) (s : State) : State := { s with sprBank := merge s.sprBank v m }

/-- The active bank (R273). -/
def activeBank (b : Board) (s : State) : Nat := (b.sprbankDecode s.sprBank).bank.toNat

/-- Word `i` of descriptor (bank, slot) (10_state.md R47). -/
def sprWord (b : Board) (s : State) (bank slot i : Nat) : Word :=
  let o := (bank * 128 + slot) * 8 + 2 * i
  regionWord b s .sprram o (o + 1)

/-- The words of the descriptor of an active slot (R273). -/
def slotWords (b : Board) (s : State) (slot : Fin 128) : SpriteWords :=
  let bank := activeBank b s
  ⟨sprWord b s bank slot.val 0, sprWord b s bank slot.val 1, sprWord b s bank slot.val 2, sprWord b s bank slot.val 3⟩

/-- Word number `i` of a descriptor. -/
def descriptorWord (w : SpriteWords) (i : Fin 4) : Word :=
  match i with
  | 0 => w.w0
  | 1 => w.w1
  | 2 => w.w2
  | 3 => w.w3

/-- The `region` field (R271): bit 13 of word `SPRITE_REGION_WORD`, or `FIXED_REGION`. -/
def spriteRegion (b : Board) (w : SpriteWords) : BitVec 1 :=
  match b.spriteLayout with
  | .default => (descriptorWord w b.spriteRegionWord).extractLsb' 13 1
  | .finalLap => b.fixedRegion

/-- The `pri` field: 3 bits or 4 bits (R270, R271). -/
def spritePri (b : Board) (f : SpriteFields) : Nat :=
  match b.spriteLayout with
  | .default => f.pri % 8
  | .finalLap => f.pri % 16

/-- `N(e)` (R276). -/
def nativeSize (f : SpriteFields) : Nat := if f.sizeClass = 0 then 16 else 32

/-- The two's-complement value of the low `n` bits of `v` (00_scope.md R11). -/
def signExtendNat (n v : Nat) : Int :=
  if v % 2 ^ n < 2 ^ (n - 1) then ((v % 2 ^ n : Nat) : Int) else ((v % 2 ^ n : Nat) : Int) - (2 ^ n : Nat)

/-- `X0` (R275). -/
def spriteX0 (b : Board) (f : SpriteFields) : Int := signExtendNat b.spritePosBits f.posX + b.spriteOriginX

/-- `Y0` (R275). -/
def spriteY0 (b : Board) (f : SpriteFields) : Int := signExtendNat b.spritePosBits f.posY + b.spriteOriginY

/-- `sx'` (R276, R277): nearest-neighbour scaling, then the sprite's own flip. -/
def spriteSx (f : SpriteFields) (dx : Nat) : Nat :=
  let sx := dx * nativeSize f / f.reqW
  if f.flipX then nativeSize f - 1 - sx else sx

/-- `sy'` (R276, R277). -/
def spriteSy (f : SpriteFields) (dy : Nat) : Nat :=
  let sy := dy * nativeSize f / f.reqH
  if f.flipY then nativeSize f - 1 - sy else sy

/-- The palette index of a sprite pen, TRANSPARENT for `SPRITE_TRANSPARENT_PEN` (R278). -/
def spritePen (b : Board) (f : SpriteFields) (pen : Byte) : Px :=
  if pen = b.spriteTransparentPen then none else some (palIndex 0 f.color b.spriteBankStride pen.toNat)

/-- `spritePixel(e, dx, dy)` (R278). -/
def spritePixel (b : Board) (w : SpriteWords) (dx dy : Nat) : Px :=
  let f := b.spriteDecode w
  spritePen b f (b.spriteGfx (spriteRegion b w) f.code f.sizeClass (spriteSx f dx) (spriteSy f dy))

/-- What a sprite shows at screen pixel (X, Y): `spritePixel` at the offset of that pixel in its rectangle, or
nothing outside it (R275). -/
def spriteAt (b : Board) (w : SpriteWords) (X Y : Nat) : Px :=
  let f := b.spriteDecode w
  let dx := (X : Int) - spriteX0 b f
  let dy := (Y : Int) - spriteY0 b f
  if 0 ≤ dx ∧ dx < f.reqW ∧ 0 ≤ dy ∧ dy < f.reqH then spritePixel b w dx.toNat dy.toNat else none

/-- A sprite is drawn at level `v` (R279): its height class is not zero, its priority is `v`, and no priority
above `PRI_MAX` is ever drawn (log 16). -/
def drawnAt (b : Board) (v : Nat) (w : SpriteWords) : Bool :=
  decide ((b.spriteDecode w).reqH ≠ 0) && decide (spritePri b (b.spriteDecode w) = v) && decide (v ≤ priMax b)

/-- One slot of `DRAW_SPRITES(v)` over a frame (R279). -/
def drawSlot (b : Board) (s : State) (v : Nat) (g : List (List Pen)) (slot : Fin 128) : List (List Pen) :=
  if drawnAt b v (slotWords b s slot) then overlay (spriteAt b (slotWords b s slot)) g else g

/-- DRAW_SPRITES (R279): the slots of level `v` in `SPRITE_ORDER`, later ones over earlier ones. -/
def drawSpritesAt (b : Board) (v : Nat) (s : State) : State :=
  { s with fb := b.spriteOrder.foldl (drawSlot b s v) s.fb }

/-! ### Meanings -/

/-- SPRBANK_WR (R272). -/
def execSprbankWr (v : Word) (m : Lanes) (s : State) : Result := .next (sprBankWrite v m s)

/-- DRAW_SPRITES (R279). -/
def execDrawSprites (v : BitVec 4) (s : State) : Result := .next (drawSpritesAt Config.board v.toNat s)

end Sys2Proof.Machine
end

