-- ==== Sys2Proof/Machine/Compositor.lean ====
section
/-! DEFINITION. The Priority Compositor and the Palette Visibility Tracker (spec/45_compositor.md), and the
meanings of COMPOSITE and PAL_SCAN. -/

namespace Sys2Proof.Machine

/-- The tile layers, in index order. -/
def allLayers : List Layer := [0, 1, 2, 3, 4, 5]

/-- The ROZ planes of the board, in index order. -/
def allPlanes (b : Board) : List Plane := ([0, 1] : List Plane).filter (planeExists b)

/-! ### The palette visibility tracker -/

/-- The tile columns that layer `l` shows on the screen. -/
def screenCols (b : Board) (s : State) (l : Layer) : List Nat :=
  ((List.range screenW).map fun ux => layerX b s l ux / 8).eraseDups

/-- The tile rows that layer `l` shows on the screen. -/
def screenRows (b : Board) (s : State) (l : Layer) : List Nat :=
  ((List.range screenH).map fun uy => layerY b s l uy / 8).eraseDups

/-- The tiles `t` that `layerPixel` reads for some pixel of the screen (R348): `t` is made of a row that depends
on `uy` alone and a column that depends on `ux` alone. -/
def screenTiles (b : Board) (s : State) (l : Layer) : List Nat :=
  (screenRows b s l).flatMap fun row => (screenCols b s l).map fun col => row * cols l + col

/-- `TILE_PENS()` (R348). -/
def tilePens (b : Board) (s : State) : List Pen :=
  allLayers.flatMap fun l => (screenTiles b s l).flatMap fun t =>
    (decodeTile b (tileWord b s l t) (s.layer l).colorBank 0).filterMap id

/-- The palette indices of the 8 x 8 pixels of a ROZ tile. -/
def rozTilePens (b : Board) (s : State) (p : Plane) (tile : Nat) : List Pen :=
  (List.range 64).filterMap fun i => rozPen b s (b.rozGfx p tile (i % 8) (i / 8))

/-- The source-space pixels that plane `p` samples (R349): the addressing of R312-R314 replayed over the screen. -/
def rozSamples (b : Board) (s : State) (p : Plane) : List (Nat × Nat) :=
  let c := rozCtl b s p
  (List.range screenH).flatMap fun uy => (List.range screenW).map fun ux =>
    (rozPixelCoord (rozX c ux uy), rozPixelCoord (rozY c ux uy))

/-- `ROZ_PENS()` (R349). -/
def rozPens (b : Board) (s : State) : List Pen :=
  (allPlanes b).flatMap fun p =>
    if b.rozPresent p then (rozSamples b s p).flatMap fun q => rozTilePens b s p (rozTileAt b s p q.1 q.2) else []

/-- The palette indices of a sprite's native graphics (R350). -/
def spritePensOf (b : Board) (w : SpriteWords) : List Pen :=
  let f := b.spriteDecode w
  let n := nativeSize f
  (List.range (n * n)).filterMap fun i =>
    spritePen b f (b.spriteGfx (spriteRegion b w) f.code f.sizeClass (i % n) (i / n))

/-- `SPRITE_PENS()` (R350): every active descriptor, at every priority and position. -/
def spritePens (b : Board) (s : State) : List Pen :=
  (List.finRange 128).flatMap fun slot =>
    if (b.spriteDecode (slotWords b s slot)).reqH = 0 then [] else spritePensOf b (slotWords b s slot)

/-- The palette indices this frame's content references (R347). -/
def framePens (b : Board) (s : State) : List Pen := tilePens b s ++ rozPens b s ++ spritePens b s

/-- PAL_SCAN (R347); index 0 is never visible (R351). -/
def palScan (b : Board) (s : State) : State := { s with visible := setWire (markPens (framePens b s)) 0 false }

/-! ### The composite pass -/

/-- `rgb(i)` for every palette entry (10_state.md R51, R352). -/
def paletteColours (b : Board) (s : State) : List RGB :=
  tab paletteSize (b.palDecode fun o => regionRead b s .palram (o % b.palRamSize))

/-- REBUILD_COLOURS (R352): skipped when no colour changed since the last rebuild. -/
def rebuildColours (b : Board) (s : State) : State :=
  if s.prevRGB = some (paletteColours b s) then s
  else { s with colourTable := paletteColours b s, prevRGB := some (paletteColours b s) }

/-- `screen(x, y)` (R344): the global flip mirrors the whole frame on both axes. -/
def screenAt (s : State) (x y : Nat) : Pen :=
  if s.flip = 1 then fbAt s (screenW - 1 - x) (screenH - 1 - y) else fbAt s x y

/-- The indexed frame of OUTPUT_FRAME (R345). -/
def indexFrame (s : State) : List (List Pen) := grid screenW screenH (screenAt s)

/-- The RGB frame of OUTPUT_FRAME (R345). -/
def rgbFrame (s : State) : List (List RGB) :=
  grid screenW screenH fun x y => s.colourTable.getD (screenAt s x y).toNat default

/-- OUTPUT_FRAME (R345). -/
def outputFrame (s : State) : State := emit (.frame (indexFrame s) (rgbFrame s)) s

/-- The tile layers of level `n`, in index order (R342). -/
def drawLayersAt (b : Board) (n : Nat) (s : State) : State :=
  allLayers.foldl (fun s l => if (s.layer l).pri.toNat = n then drawTiles b l s else s) s

/-- The ROZ planes of level `n`, in index order (R342). -/
def drawPlanesAt (b : Board) (n : Nat) (s : State) : State :=
  (allPlanes b).foldl (fun s p => if (s.rozPri[p]).toNat = n then drawRozPlane b p s else s) s

/-- `PER_LEVEL(n)` (R342), in phase `perLevel(n)`. -/
def perLevel (b : Board) (s : State) (n : Nat) : State :=
  drawSpritesAt b n (drawPlanesAt b n (drawLayersAt b n { s with phase := .perLevel n }))

/-- The frame buffer cleared to background pen 0, in phase `init` (R340). -/
def clearFrame (s : State) : State := { s with phase := .init, fb := grid screenW screenH fun _ _ => 0 }

/-- Every layer rendered (R341). -/
def renderAll (b : Board) (s : State) : State := allLayers.foldl (fun s l => renderTiles b l s) s

/-- The phase `init` of a composite (R340). -/
def compositeInit (b : Board) (s : State) : State := renderAll b (palScan b (clearFrame s))

/-- The levels 0 to `PRI_MAX`, in order (R343). -/
def drawLevels (b : Board) (s : State) : State := (List.range (priMax b + 1)).foldl (perLevel b) s

/-- COMPOSITE (R340). -/
def composite (b : Board) (s : State) : State :=
  outputFrame (rebuildColours b { drawLevels b (compositeInit b s) with phase := .done })

/-! ### Meanings -/

/-- COMPOSITE (R340). -/
def execComposite (s : State) : Result := .next (composite Config.board s)

/-- PAL_SCAN (R347). -/
def execPalScan (s : State) : Result := .next (palScan Config.board s)

end Sys2Proof.Machine
end

