-- ==== Sys2Proof/Machine/C148.lean ====
section
/-! DEFINITION. The C148 interrupt controller (spec/41_c148.md): its register operations, the dispatch of its
window on the selector (R170), and the meaning of every C148 row of the opcode table. -/

namespace Sys2Proof.Machine

/-! ### Operations -/

/-- LVL_WR (R174-R178): the low three bits of the merged data become the level; owners and lines stay. -/
def levelWrite (k : Gen) (src : Source) (v : Word) (m : Lanes) (s : State) : State :=
  let c := s.c148.get k
  let d := merge ((c.levels.get src).setWidth 16) v m
  { s with c148 := s.c148.set k { c with levels := c.levels.set src (levelField d) } }

/-- LVL_RD (R179-R183): the zero-extended level. -/
def levelRead (k : Gen) (src : Source) (s : State) : Word := (levelOf s k src).setWidth 16

/-- CPUIRQ_TRIG (R184): raise CPUIRQ on the peer's instance. -/
def triggerPeer (k : Gen) (s : State) : State := raiseIrq (peer k) .cpuirq s

/-- The instance that an acknowledge write by CPU `k` acts on: its own, but for CPUIRQ as `CPUIRQ_ACK_BY` says
(R185-R189). -/
def ackTarget (b : Board) (k : Gen) : Source → Gen
  | .cpuirq => match b.cpuirqAckBy with
    | .peer => peer k
    | .self => k
  | _ => k

/-- ACK (R185-R189). -/
def ackWrite (b : Board) (k : Gen) (src : Source) (s : State) : State := acknowledge (ackTarget b k src) src s

/-- The side effect of ACK_READ (R190): that of the write where `ACK_ON_READ`, else none. -/
def ackRead (b : Board) (k : Gen) (src : Source) (s : State) : State :=
  if b.ackOnRead then ackWrite b k src s else s

/-- The reset controls of instance `k` take effect (R193, R194). -/
def resetCtrlActive (b : Board) (k : Gen) : Bool := decide (k = .master) || b.resetCtrlOnSlave

/-- RSTSND_WR (R193). -/
def rstSoundWrite (b : Board) (k : Gen) (v : Word) (m : Lanes) (s : State) : State :=
  if resetCtrlActive b k then
    let new := bitField (merge (s.rstSound.setWidth 16) v m)
    let s1 := { s with rstSound := new }
    if new = 0 then driveReset .sound true s1
    else if s.rstSound = 0 then yieldTurn k (driveReset .sound false s1)
    else driveReset .sound false s1
  else s

/-- RSTSLV_WR (R194). -/
def rstSlaveWrite (b : Board) (k : Gen) (v : Word) (m : Lanes) (s : State) : State :=
  if resetCtrlActive b k then
    let new := bitField (merge (s.rstSlaveIO.setWidth 16) v m)
    let s1 := { s with rstSlaveIO := new }
    if new = 0 then driveReset .io true (driveReset .slave true s1)
    else if s.rstSlaveIO = 0 then yieldTurn k (driveReset .io false (driveReset .slave false s1))
    else driveReset .io false (driveReset .slave false s1)
  else s

/-- WDT_KICK (R197). -/
def watchdogKick (s : State) : State := { s with wdt := 0 }

/-! ### Dispatch of the window (R170) -/

/-- `C148[k].write16(off, v, m)`. -/
def c148Write (b : Board) (k : Gen) (off : Addr) (v : Word) (m : Lanes) (s : State) : State :=
  match (selector off).toNat with
  | 3 => levelWrite k .cpuirq v m s
  | 4 => levelWrite k .exirq v m s
  | 5 => levelWrite k .posirq v m s
  | 6 => levelWrite k .scirq v m s
  | 7 => levelWrite k .vblank v m s
  | 10 => triggerPeer k s
  | 11 => ackWrite b k .cpuirq s
  | 12 => ackWrite b k .exirq s
  | 13 => ackWrite b k .posirq s
  | 14 => ackWrite b k .scirq s
  | 15 => ackWrite b k .vblank s
  | 17 => rstSoundWrite b k v m s
  | 18 => rstSlaveWrite b k v m s
  | 19 => watchdogKick s
  | _ => s

/-- The side effect of `C148[k].read16(off)`: an acknowledge selector where `ACK_ON_READ`, the watchdog. -/
def c148ReadEffect (b : Board) (k : Gen) (off : Addr) (s : State) : State :=
  match (selector off).toNat with
  | 11 => ackRead b k .cpuirq s
  | 12 => ackRead b k .exirq s
  | 13 => ackRead b k .posirq s
  | 14 => ackRead b k .scirq s
  | 15 => ackRead b k .vblank s
  | 19 => watchdogKick s
  | _ => s

/-- The value of `C148[k].read16(off)`; none is a reserved selector, which reads as open bus of the access's own
width (R198; log 13). -/
def c148ReadValue (b : Board) (k : Gen) (off : Addr) (s : State) : Option Word :=
  match (selector off).toNat with
  | 3 => some (levelRead k .cpuirq s)
  | 4 => some (levelRead k .exirq s)
  | 5 => some (levelRead k .posirq s)
  | 6 => some (levelRead k .scirq s)
  | 7 => some (levelRead k .vblank s)
  | 11 => some b.openBus16
  | 12 => some b.openBus16
  | 13 => some b.openBus16
  | 14 => some b.openBus16
  | 15 => some b.openBus16
  | 16 => some b.eepromReady
  | 17 => some (s.rstSound.setWidth 16)
  | 18 => some (s.rstSlaveIO.setWidth 16)
  | 19 => some b.openBus16
  | _ => none

/-- A reserved C148 selector (R198): a read returns open bus, a write does nothing. -/
def c148Reserved (b : Board) (k : Gen) (wr : Bool) (s : State) : State :=
  if wr then s else return16 (genProc k) b.openBus16 s

/-! ### Meanings -/

/-- LVL_WR CPUIRQ (R174). -/
def execLvlWrCpuirq (k : Gen) (v : Word) (m : Lanes) (s : State) : Result := .next (levelWrite k .cpuirq v m s)

/-- LVL_WR EXIRQ (R175). -/
def execLvlWrExirq (k : Gen) (v : Word) (m : Lanes) (s : State) : Result := .next (levelWrite k .exirq v m s)

/-- LVL_WR POSIRQ (R176). -/
def execLvlWrPosirq (k : Gen) (v : Word) (m : Lanes) (s : State) : Result := .next (levelWrite k .posirq v m s)

/-- LVL_WR SCIRQ (R177). -/
def execLvlWrScirq (k : Gen) (v : Word) (m : Lanes) (s : State) : Result := .next (levelWrite k .scirq v m s)

/-- LVL_WR VBLANK (R178). -/
def execLvlWrVblank (k : Gen) (v : Word) (m : Lanes) (s : State) : Result := .next (levelWrite k .vblank v m s)

/-- LVL_RD CPUIRQ (R179). -/
def execLvlRdCpuirq (k : Gen) (s : State) : Result := .next (return16 (genProc k) (levelRead k .cpuirq s) s)

/-- LVL_RD EXIRQ (R180). -/
def execLvlRdExirq (k : Gen) (s : State) : Result := .next (return16 (genProc k) (levelRead k .exirq s) s)

/-- LVL_RD POSIRQ (R181). -/
def execLvlRdPosirq (k : Gen) (s : State) : Result := .next (return16 (genProc k) (levelRead k .posirq s) s)

/-- LVL_RD SCIRQ (R182). -/
def execLvlRdScirq (k : Gen) (s : State) : Result := .next (return16 (genProc k) (levelRead k .scirq s) s)

/-- LVL_RD VBLANK (R183). -/
def execLvlRdVblank (k : Gen) (s : State) : Result := .next (return16 (genProc k) (levelRead k .vblank s) s)

/-- CPUIRQ_TRIG (R184). -/
def execCpuirqTrig (k : Gen) (s : State) : Result := .next (triggerPeer k s)

/-- ACK CPUIRQ (R185). -/
def execAckCpuirq (k : Gen) (s : State) : Result := .next (ackWrite Config.board k .cpuirq s)

/-- ACK EXIRQ (R186). -/
def execAckExirq (k : Gen) (s : State) : Result := .next (ackWrite Config.board k .exirq s)

/-- ACK POSIRQ (R187). -/
def execAckPosirq (k : Gen) (s : State) : Result := .next (ackWrite Config.board k .posirq s)

/-- ACK SCIRQ (R188). -/
def execAckScirq (k : Gen) (s : State) : Result := .next (ackWrite Config.board k .scirq s)

/-- ACK VBLANK (R189). -/
def execAckVblank (k : Gen) (s : State) : Result := .next (ackWrite Config.board k .vblank s)

/-- ACK_READ of the CPUIRQ selector (R190). -/
def execAckReadCpuirq (k : Gen) (s : State) : Result :=
  .next (return16 (genProc k) Config.board.openBus16 (ackRead Config.board k .cpuirq s))

/-- ACK_READ of the EXIRQ selector (R190). -/
def execAckReadExirq (k : Gen) (s : State) : Result :=
  .next (return16 (genProc k) Config.board.openBus16 (ackRead Config.board k .exirq s))

/-- ACK_READ of the POSIRQ selector (R190). -/
def execAckReadPosirq (k : Gen) (s : State) : Result :=
  .next (return16 (genProc k) Config.board.openBus16 (ackRead Config.board k .posirq s))

/-- ACK_READ of the SCIRQ selector (R190). -/
def execAckReadScirq (k : Gen) (s : State) : Result :=
  .next (return16 (genProc k) Config.board.openBus16 (ackRead Config.board k .scirq s))

/-- ACK_READ of the VBLANK selector (R190). -/
def execAckReadVblank (k : Gen) (s : State) : Result :=
  .next (return16 (genProc k) Config.board.openBus16 (ackRead Config.board k .vblank s))

/-- EEPROM_RDY (R191). -/
def execEepromRdy (k : Gen) (s : State) : Result := .next (return16 (genProc k) Config.board.eepromReady s)

/-- A write to the EEPROM-ready selector (R192): ignored. -/
def execEepromRdyWr (_k : Gen) (s : State) : Result := .next s

/-- RSTSND_WR (R193). -/
def execRstsndWr (k : Gen) (v : Word) (m : Lanes) (s : State) : Result :=
  .next (rstSoundWrite Config.board k v m s)

/-- RSTSLV_WR (R194). -/
def execRstslvWr (k : Gen) (v : Word) (m : Lanes) (s : State) : Result :=
  .next (rstSlaveWrite Config.board k v m s)

/-- RSTSND_RD (R195). -/
def execRstsndRd (k : Gen) (s : State) : Result := .next (return16 (genProc k) (s.rstSound.setWidth 16) s)

/-- RSTSLV_RD (R196). -/
def execRstslvRd (k : Gen) (s : State) : Result := .next (return16 (genProc k) (s.rstSlaveIO.setWidth 16) s)

/-- WDT_KICK (R197): any access kicks; a read returns open bus. -/
def execWdtKick (k : Gen) (wr : Bool) (s : State) : Result :=
  .next (if wr then watchdogKick s else return16 (genProc k) Config.board.openBus16 (watchdogKick s))

/-- Reserved selectors 0 and 1 (R198). -/
def execC148RsvdS01 (k : Gen) (wr : Bool) (_sel : BitVec 1) (s : State) : Result := .next (c148Reserved Config.board k wr s)

/-- Reserved selector 2 (R198). -/
def execC148RsvdS2 (k : Gen) (wr : Bool) (s : State) : Result := .next (c148Reserved Config.board k wr s)

/-- Reserved selectors 8 and 9 (R198). -/
def execC148RsvdS89 (k : Gen) (wr : Bool) (_sel : BitVec 1) (s : State) : Result := .next (c148Reserved Config.board k wr s)

/-- A read of selector 10 (R198). -/
def execC148RsvdRdS10 (k : Gen) (s : State) : Result := .next (c148Reserved Config.board k false s)

/-- Reserved selectors 20-23 (R198). -/
def execC148RsvdS2023 (k : Gen) (wr : Bool) (_sel : BitVec 2) (s : State) : Result := .next (c148Reserved Config.board k wr s)

/-- Reserved selectors 24-31 (R198). -/
def execC148RsvdS2431 (k : Gen) (wr : Bool) (_sel : BitVec 3) (s : State) : Result := .next (c148Reserved Config.board k wr s)

end Sys2Proof.Machine
end

