-- ==== Sys2Proof/Machine/Video.lean ====
section
/-! DEFINITION. The video register window (spec/30_encoding.md R123, R132): reads and writes by register, the
handler the router calls, and the meanings of VID_RD and of the reserved VID rows. -/

namespace Sys2Proof.Machine

/-- VID_RD (42_tilemap.md R241): the register, zero-extended; none is a plane the board does not have, which reads
as reserved (30_encoding.md R132, R133). -/
def vidRead (b : Board) (s : State) : VidReg → Option Word
  | .tile l t => some (tileWord b s l (t.toNat % ntiles l))
  | .scrollX l => some (s.layer l).scrollX
  | .scrollY l => some (s.layer l).scrollY
  | .bank l => some (s.layer l).colorBank
  | .pri l => some ((s.layer l).pri.setWidth 16)
  | .flip => some (s.flip.setWidth 16)
  | .sprBank => some s.sprBank
  | .rozCtrl p r => if planeExists b p then some (rozBusAt s p r) else none
  | .rozPri p => if planeExists b p then some ((s.rozPri[p]).setWidth 16) else none

/-- A write to a video register (R123). -/
def vidWrite (b : Board) (r : VidReg) (v : Word) (m : Lanes) (s : State) : State :=
  match r with
  | .tile l t => tileWrite b l t v m s
  | .scrollX l => scrollXWrite l v m s
  | .scrollY l => scrollYWrite l v m s
  | .bank l => bankWrite b l v m s
  | .pri l => layerPriWrite b l v m s
  | .flip => flipWrite v m s
  | .sprBank => sprBankWrite v m s
  | .rozCtrl p i => rozCtrlWrite b p i v m s
  | .rozPri p => rozPriWrite b p v m s

/-- The register an offset of the window stands for (`VIDREG_MAP`); none is a reserved code. DESIGN CHOICE: `VIDREG_MAP` is
asked for the offset a handler gets (20_memory.md R84), not for the bus address, so two video ranges of a table reach the
same registers (log 32). -/
def videoReg (b : Board) (off : Addr) : Option VidReg :=
  let c := b.vidregMap off
  vidRegOf c.kind.toNat c.idx.toNat c.t

/-- A read of the window; none reads as open bus (R132). -/
def videoReadValue (b : Board) (off : Addr) (s : State) : Option Word :=
  match videoReg b off with
  | some r => vidRead b s r
  | none => none

/-- A write to the window; a reserved code discards it (R132). -/
def videoWrite (b : Board) (off : Addr) (v : Word) (m : Lanes) (s : State) : State :=
  match videoReg b off with
  | some r => vidWrite b r v m s
  | none => s

/-- A reserved VID code (R132): a read returns open bus, a write is discarded. -/
def vidReserved (b : Board) (p : Proc) (wr : Bool) (s : State) : State :=
  if wr then s else return16 p b.openBus16 s

/-! ### Meanings -/

/-- VID_RD (42_tilemap.md R241). -/
def execVidRd (p : Proc) (r : VidReg) (s : State) : Result :=
  .next (return16 p ((vidRead Config.board s r).getD Config.board.openBus16) s)

/-- VID_RSVD_K9 (R132): kind 0x9, and an idx out of range (log 17). -/
def execVidRsvdK9 (p : Proc) (c : BitVec 9) (s : State) : Result := .next (vidReserved Config.board p (c.getLsbD 8) s)

/-- VID_RSVD_KA_B (R132): kinds 0xA and 0xB. -/
def execVidRsvdKAB (p : Proc) (wr : Bool) (_c : BitVec 5) (s : State) : Result := .next (vidReserved Config.board p wr s)

/-- VID_RSVD_KC_F (R132): kinds 0xC to 0xF. -/
def execVidRsvdKCF (p : Proc) (wr : Bool) (_c : BitVec 6) (s : State) : Result := .next (vidReserved Config.board p wr s)

end Sys2Proof.Machine
end

