-- ==== Sys2Proof/Machine/Router.lean ====
section
/-! DEFINITION. The Address Space Router (spec/20_memory.md R82-R92, 40_router.md R150-R154), and the meanings of
RD8, WR8, RD16, WR16 and IFETCH. -/

namespace Sys2Proof.Machine

/-- `resolve(p, a)` (R82): the last-registered range of the table that contains the address. -/
def resolve (table : List AddressRange) (a : Nat) : Option AddressRange :=
  table.foldl (fun hit R => if R.start ≤ a ∧ a ≤ R.stop then some R else hit) none

/-- What an access reaches: nothing, a region, or a handler. A C148 window in the table of SOUND or IO, which have
no C148 (60_exceptions.md R412), reaches nothing (log 9). -/
inductive Hit where
  | openBus
  | region (R : AddressRange) (r : Region) (base : Nat)
  | c148 (R : AddressRange) (k : Gen)
  | video (R : AddressRange)
  | peripheral (R : AddressRange) (d : Peripheral)
  deriving DecidableEq, Repr

/-- What processor `p` reaches at address `a` (R82-R85). -/
def route (b : Board) (p : Proc) (a : Nat) : Hit :=
  match resolve (b.map p) a with
  | none => .openBus
  | some R =>
    match R.target with
    | .region r base => .region R r base
    | .c148 => match genOf p with
      | some k => .c148 R k
      | none => .openBus
    | .video => .video R
    | .peripheral d => .peripheral R d

/-- The region index of address `a` (R83), `n` bytes on: it wraps within the region. -/
def regionIndex (b : Board) (R : AddressRange) (r : Region) (base a n : Nat) : Nat :=
  (a - R.start + base + n) % regionSize b r

/-! ### Opaque peripherals (R84; 10_state.md R56) -/

/-- What a read of an opaque peripheral returns: a fresh free value (log 11). -/
def peripheralValue (b : Board) (d : Peripheral) (off : Addr) (s : State) : Word :=
  b.drawRead s.draws d off s.analogLatch s.analogDone

/-- A read of an opaque peripheral uses up one free value. DESIGN CHOICE: it leaves the analog latches and the "conversion
complete" bit as they are, although when that bit sets is OPEN (10_state.md R56; log 11). -/
def peripheralReadEffect (s : State) : State := { s with draws := s.draws + 1 }

/-- A write to an opaque peripheral is an event outside this spec; one to the analog "start conversion" register
also latches the channels and moves the status bit, both to free values (10_state.md R56). Which offset and which byte
lanes are that register is the board's `analogControl`, since the spec leaves every address OPEN; that the value written
does not matter is a DESIGN CHOICE (log 11). When the status bit sets is OPEN too: that it moves, to a free value, in this
write's own step, and afterwards neither of itself nor on a read, is a DESIGN CHOICE (log 11). -/
def peripheralWrite (b : Board) (d : Peripheral) (off : Addr) (v : Word) (m : Lanes) (s : State) : State :=
  let s1 := emit (.peripheralWrite d off v m) s
  if d = .analog ∧ b.analogControl off m then
    { s1 with
      analogLatch := Vector.ofFn fun i => b.drawLatch s.draws i.val
      analogDone := b.drawDone s.draws
      draws := s.draws + 1 }
  else s1

/-! ### Accesses -/

/-- The side effects of a read at handler offset `off` (R84, R92). -/
def readEffect (b : Board) (p : Proc) (a : Addr) (w16 : Bool) (h : Hit) (off : Addr) (s : State) : State :=
  match h with
  | .openBus => emit (.openBus p a w16 false) s
  | .region _ _ _ => s
  | .c148 _ k => c148ReadEffect b k off s
  | .video _ => s
  | .peripheral _ _ => peripheralReadEffect s

/-- The word a handler returns at offset `off`; none is open bus (R84, R85). -/
def handlerValue (b : Board) (h : Hit) (off : Addr) (s : State) : Option Word :=
  match h with
  | .openBus => none
  | .region _ _ _ => none
  | .c148 _ k => c148ReadValue b k off s
  | .video _ => videoReadValue b off s
  | .peripheral _ d => some (peripheralValue b d off s)

/-- The range of a hit's handler offsets. -/
def hitOff (h : Hit) (off : AddressRange → Addr) : Addr :=
  match h with
  | .openBus => 0
  | .region R _ _ => off R
  | .c148 R _ => off R
  | .video R => off R
  | .peripheral R _ => off R

/-- The value of RD8 (40_router.md R150). -/
def read8Value (b : Board) (p : Proc) (a : Addr) (s : State) : Byte :=
  let x := busAddr b p a
  match route b p x with
  | .region R r base => regionRead b s r (regionIndex b R r base x 0)
  | h => match handlerValue b h (hitOff h fun R => handlerOffEven R x) s with
    | some w => byteAt x w
    | none => b.openBus8

/-- RD8 (40_router.md R150). -/
def busRead8 (b : Board) (p : Proc) (a : Addr) (s : State) : State :=
  let x := busAddr b p a
  let h := route b p x
  return8 p (read8Value b p a s) (readEffect b p a false h (hitOff h fun R => handlerOffEven R x) s)

/-- The value of RD16 (40_router.md R151). -/
def read16Value (b : Board) (p : Proc) (a : Addr) (s : State) : Word :=
  let x := busAddr b p a
  match route b p x with
  | .region R r base => regionWord b s r (regionIndex b R r base x 0) (regionIndex b R r base x 1)
  | h => match handlerValue b h (hitOff h fun R => handlerOff R x) s with
    | some w => w
    | none => b.openBus16

/-- RD16 (40_router.md R151), where it is not refused. -/
def busRead16 (b : Board) (p : Proc) (a : Addr) (s : State) : State :=
  let x := busAddr b p a
  let h := route b p x
  return16 p (read16Value b p a s) (readEffect b p a true h (hitOff h fun R => handlerOff R x) s)

/-- A write to a handler at offset `off` (R84, R88). -/
def handlerWrite (b : Board) (h : Hit) (off : Addr) (v : Word) (m : Lanes) (s : State) : State :=
  match h with
  | .openBus => s
  | .region _ _ _ => s
  | .c148 _ k => c148Write b k off v m s
  | .video _ => videoWrite b off v m s
  | .peripheral _ d => peripheralWrite b d off v m s

/-- WR8 (40_router.md R152). -/
def busWrite8 (b : Board) (p : Proc) (a : Addr) (v : Byte) (s : State) : State :=
  let x := busAddr b p a
  match route b p x with
  | .openBus => emit (.openBus p a false true) s
  | .region R r base => regionWrite b r (regionIndex b R r base x 0) v s
  | h => handlerWrite b h (hitOff h fun R => handlerOffEven R x) (byteInLane x v) (lanesAt x) s

/-- A word write to a region stores only the lanes its mask selects (R88). -/
def regionWrite16 (b : Board) (r : Region) (o o' : Nat) (v : Word) (m : Lanes) (s : State) : State :=
  let s1 := if m = .low then s else regionWrite b r o (hiByte v) s
  if m = .high then s1 else regionWrite b r o' (loByte v) s1

/-- WR16 (40_router.md R153), where it is not refused. -/
def busWrite16 (b : Board) (p : Proc) (a : Addr) (v : Word) (m : Lanes) (s : State) : State :=
  let x := busAddr b p a
  match route b p x with
  | .openBus => emit (.openBus p a true true) s
  | .region R r base => regionWrite16 b r (regionIndex b R r base x 0) (regionIndex b R r base x 1) v m s
  | h => handlerWrite b h (hitOff h fun R => handlerOff R x) v m s

/-- One bus access of processor `p`, or its refusal, which is checked before anything else (60_exceptions.md
R403). A fetch is RD16 for a general CPU and RD8 for the others (40_router.md R154). -/
def access (b : Board) (p : Proc) (o : BusAccess) (s : State) : Except Refusal State :=
  match o with
  | .rd8 a => .ok (busRead8 b p a s)
  | .wr8 a v => .ok (busWrite8 b p a v s)
  | .rd16 a => if refused16 p a then .error .misalignedWord else .ok (busRead16 b p a s)
  | .wr16 a v m => if refused16 p a then .error .misalignedWord else .ok (busWrite16 b p a v m s)
  | .ifetch a =>
    match genOf p with
    | some _ => if refused16 p a then .error .misalignedWord else .ok (busRead16 b p a s)
    | none => .ok (busRead8 b p a s)

/-- An outcome of its success or refusal. -/
def finish (r : Except Refusal State) : Result :=
  match r with
  | .ok s => .next s
  | .error e => .refused e

/-! ### Meanings -/

/-- RD8 (R150). -/
def execRd8 (p : Proc) (a : Addr) (s : State) : Result := finish (access Config.board p (.rd8 a) s)

/-- WR8 (R152). -/
def execWr8 (p : Proc) (a : Addr) (v : Byte) (s : State) : Result := finish (access Config.board p (.wr8 a v) s)

/-- RD16 (R151). -/
def execRd16 (p : Proc) (a : Addr) (s : State) : Result := finish (access Config.board p (.rd16 a) s)

/-- WR16 (R153). -/
def execWr16 (p : Proc) (a : Addr) (v : Word) (m : Lanes) (s : State) : Result :=
  finish (access Config.board p (.wr16 a v m) s)

/-- IFETCH (R154). -/
def execIfetch (p : Proc) (a : Addr) (s : State) : Result := finish (access Config.board p (.ifetch a) s)

end Sys2Proof.Machine
end

