-- ==== Sys2Proof/Machine/Scheduler.lean ====
section
/-! DEFINITION. Scheduling, frame sequencing and the machine reset (spec/46_scheduler.md, 70_reset_and_hazards.md
R440), and the meanings of SLICE, FRAME_END and MACHINE_RESET. -/

namespace Sys2Proof.Machine

/-! ### Slices -/

/-- The turn of processor `p` is over: a YIELD has ended it (46_scheduler.md R374), or `p` has put itself in reset, which
stops it at once (41_c148.md R193, R194, 46_scheduler.md R373; only SLAVE can, where `RESET_CTRL_ON_SLAVE`). -/
def turnEnds (p : Proc) (s : State) : Bool := s.turnOver || held s p

/-- The accesses of a turn, in program order, until the list ends or the turn is over (46_scheduler.md R372-R374); the
accesses left unmade. A refused access refuses the step (log 29). -/
def runAccesses (b : Board) (p : Proc) : List BusAccess → State → Except Refusal (State × List BusAccess)
  | [], s => .ok (s, [])
  | o :: rest, s =>
    match access b p o s with
    | .error e => .error e
    | .ok s' => if turnEnds p s' then .ok (s', rest) else runAccesses b p rest s'

/-- What is left of a core's queue after a turn: unmade accesses come first in its next turn (log 4). -/
def requeue (rest : List BusAccess) (turns : List (List BusAccess)) : List (List BusAccess) :=
  match rest with
  | [] => turns
  | o :: os => (o :: os) :: turns

/-- The turn of processor `p` begins: `execute(CYCLES_PER_SLICE[p])` (46_scheduler.md R371, R372). -/
def beginTurn (b : Board) (p : Proc) (s : State) : State :=
  emit (.execute p (b.cyclesPerSlice p)) { s with turn := p, turnOver := false }

/-- The turn of processor `p` in a round; a held processor is skipped (46_scheduler.md R372, R373). -/
def runTurn (b : Board) (p : Proc) (s : State) : Except Refusal State :=
  if held s p then .ok s
  else
    match s.cores.get p with
    | [] => .ok (beginTurn b p s)
    | t :: ts =>
      match runAccesses b p t (beginTurn b p s) with
      | .error e => .error e
      | .ok (s', rest) => .ok { s' with cores := s'.cores.set p (requeue rest ts) }

/-- The turns of a list of processors, in order. -/
def runTurns (b : Board) : List Proc → State → Except Refusal State
  | [], s => .ok s
  | p :: ps, s =>
    match runTurn b p s with
    | .error e => .error e
    | .ok s' => runTurns b ps s'

/-- The fixed order of a round (46_scheduler.md R372). -/
def roundOrder : List Proc := [.master, .slave, .sound, .io]

/-- SLICE (46_scheduler.md R372): one round. -/
def sliceRound (b : Board) (s : State) : Except Refusal State :=
  match runTurns b roundOrder s with
  | .error e => .error e
  | .ok s' => .ok { s' with slice := s'.slice + 1 }

/-! ### Reset and the end of a frame -/

/-- MACHINE_RESET (46_scheduler.md R380): the reset procedure of 70_reset_and_hazards.md R440 with every RAM array
and the EEPROM kept; what has been presented to the machine and what the cores will do is the environment's
(log 4). -/
def machineReset (b : Board) (s : State) : State :=
  { State.afterReset b s.draws with
    mem := s.mem
    pending := s.pending
    cores := s.cores
    out := s.out ++ resetOutputs }

/-- FRAME_END up to the watchdog check (46_scheduler.md R378). -/
def closeFrame (b : Board) (s : State) : State :=
  let s1 := raiseIrq .slave .vblank (raiseIrq .master .vblank (composite b s))
  { s1 with wdt := s1.wdt + 1 }

/-- FRAME_END (46_scheduler.md R378). -/
def frameEnd (b : Board) (s : State) : State :=
  let s1 := closeFrame b s
  if b.wdtLimit < s1.wdt then machineReset b s1 else { s1 with frame := s1.frame + 1, slice := 0 }

/-! ### Meanings -/

/-- SLICE (R372). -/
def execSlice (s : State) : Result := finish (sliceRound Config.board s)

/-- FRAME_END (R378). -/
def execFrameEnd (s : State) : Result := .next (frameEnd Config.board s)

/-- MACHINE_RESET (R380). -/
def execMachineReset (s : State) : Result := .next (machineReset Config.board s)

/-! ### The loop -/

/-- What the scheduler does next of itself (46_scheduler.md R377, R381): a slice while the frame has slices left,
then the end of the frame. -/
def loopInstr (b : Board) (s : State) : Instr := if s.slice < b.slicesPerFrame then .slice else .frameEnd

/-- The state an operation is executed in: it has been taken from what was presented, and puts its outputs in an
empty list. -/
def takeOp (s : State) (rest : List OpWord) : State := { s with pending := rest, out := [] }

/-- The refusal of an operation word that decodes to nothing. -/
def decodeRefusal : DecodeError → Refusal
  | .reservedCode => .reservedCode
  | .badFormat => .badOperation
  | .badProcessor => .badOperation
  | .badLanes => .badOperation
  | .badCode => .badOperation

end Sys2Proof.Machine
end

