-- ==== Sys2Proof/Machine/Dispatch.lean ====
section
/-! DEFINITION. One arm for each constructor of Instr: the instruction's meaning. -/

namespace Sys2Proof.Machine

def exec (i : Instr) (s : State) : Host.Outcome State Fault Refusal :=
  match i with
  | .rd8 p a => Sys2Proof.Machine.execRd8 p a s
  | .wr8 p a v => Sys2Proof.Machine.execWr8 p a v s
  | .rd16 p a => Sys2Proof.Machine.execRd16 p a s
  | .wr16 p a v m => Sys2Proof.Machine.execWr16 p a v m s
  | .ifetch p a => Sys2Proof.Machine.execIfetch p a s
  | .lvlWrCpuirq k v m => Sys2Proof.Machine.execLvlWrCpuirq k v m s
  | .lvlWrExirq k v m => Sys2Proof.Machine.execLvlWrExirq k v m s
  | .lvlWrPosirq k v m => Sys2Proof.Machine.execLvlWrPosirq k v m s
  | .lvlWrScirq k v m => Sys2Proof.Machine.execLvlWrScirq k v m s
  | .lvlWrVblank k v m => Sys2Proof.Machine.execLvlWrVblank k v m s
  | .lvlRdCpuirq k => Sys2Proof.Machine.execLvlRdCpuirq k s
  | .lvlRdExirq k => Sys2Proof.Machine.execLvlRdExirq k s
  | .lvlRdPosirq k => Sys2Proof.Machine.execLvlRdPosirq k s
  | .lvlRdScirq k => Sys2Proof.Machine.execLvlRdScirq k s
  | .lvlRdVblank k => Sys2Proof.Machine.execLvlRdVblank k s
  | .cpuirqTrig k => Sys2Proof.Machine.execCpuirqTrig k s
  | .ackCpuirq k => Sys2Proof.Machine.execAckCpuirq k s
  | .ackExirq k => Sys2Proof.Machine.execAckExirq k s
  | .ackPosirq k => Sys2Proof.Machine.execAckPosirq k s
  | .ackScirq k => Sys2Proof.Machine.execAckScirq k s
  | .ackVblank k => Sys2Proof.Machine.execAckVblank k s
  | .ackReadCpuirq k => Sys2Proof.Machine.execAckReadCpuirq k s
  | .ackReadExirq k => Sys2Proof.Machine.execAckReadExirq k s
  | .ackReadPosirq k => Sys2Proof.Machine.execAckReadPosirq k s
  | .ackReadScirq k => Sys2Proof.Machine.execAckReadScirq k s
  | .ackReadVblank k => Sys2Proof.Machine.execAckReadVblank k s
  | .eepromRdy k => Sys2Proof.Machine.execEepromRdy k s
  | .eepromRdyWr k => Sys2Proof.Machine.execEepromRdyWr k s
  | .rstsndWr k v m => Sys2Proof.Machine.execRstsndWr k v m s
  | .rstslvWr k v m => Sys2Proof.Machine.execRstslvWr k v m s
  | .rstsndRd k => Sys2Proof.Machine.execRstsndRd k s
  | .rstslvRd k => Sys2Proof.Machine.execRstslvRd k s
  | .wdtKick k wr => Sys2Proof.Machine.execWdtKick k wr s
  | .c148RsvdS01 k wr sel => Sys2Proof.Machine.execC148RsvdS01 k wr sel s
  | .c148RsvdS2 k wr => Sys2Proof.Machine.execC148RsvdS2 k wr s
  | .c148RsvdS89 k wr sel => Sys2Proof.Machine.execC148RsvdS89 k wr sel s
  | .c148RsvdRdS10 k => Sys2Proof.Machine.execC148RsvdRdS10 k s
  | .c148RsvdS2023 k wr sel => Sys2Proof.Machine.execC148RsvdS2023 k wr sel s
  | .c148RsvdS2431 k wr sel => Sys2Proof.Machine.execC148RsvdS2431 k wr sel s
  | .tileWr l t v m => Sys2Proof.Machine.execTileWr l t v m s
  | .scrollxWr l v m => Sys2Proof.Machine.execScrollxWr l v m s
  | .scrollyWr l v m => Sys2Proof.Machine.execScrollyWr l v m s
  | .bankWr l v m => Sys2Proof.Machine.execBankWr l v m s
  | .lpriWr l v m => Sys2Proof.Machine.execLpriWr l v m s
  | .flipWr v m => Sys2Proof.Machine.execFlipWr v m s
  | .sprbankWr v m => Sys2Proof.Machine.execSprbankWr v m s
  | .rozctrlWr p r v m => Sys2Proof.Machine.execRozctrlWr p r v m s
  | .rozpriWr p v m => Sys2Proof.Machine.execRozpriWr p v m s
  | .vidRd p r => Sys2Proof.Machine.execVidRd p r s
  | .vidRsvdK9 p c => Sys2Proof.Machine.execVidRsvdK9 p c s
  | .vidRsvdKAB p wr c => Sys2Proof.Machine.execVidRsvdKAB p wr c s
  | .vidRsvdKCF p wr c => Sys2Proof.Machine.execVidRsvdKCF p wr c s
  | .evtRaiseVblank k => Sys2Proof.Machine.execEvtRaiseVblank k s
  | .evtRaisePosirq k => Sys2Proof.Machine.execEvtRaisePosirq k s
  | .evtRaiseExirq k => Sys2Proof.Machine.execEvtRaiseExirq k s
  | .evtRaiseScirq k => Sys2Proof.Machine.execEvtRaiseScirq k s
  | .evtRaiseCpuirq k => Sys2Proof.Machine.execEvtRaiseCpuirq k s
  | .evtRsvdSrc5 k => Sys2Proof.Machine.execEvtRsvdSrc5 k s
  | .evtRsvdSrc67 c => Sys2Proof.Machine.execEvtRsvdSrc67 c s
  | .slice => Sys2Proof.Machine.execSlice s
  | .frameEnd => Sys2Proof.Machine.execFrameEnd s
  | .machineReset => Sys2Proof.Machine.execMachineReset s
  | .composite => Sys2Proof.Machine.execComposite s
  | .palScan => Sys2Proof.Machine.execPalScan s
  | .renderLayer l => Sys2Proof.Machine.execRenderLayer l s
  | .drawLayer l => Sys2Proof.Machine.execDrawLayer l s
  | .drawRoz p => Sys2Proof.Machine.execDrawRoz p s
  | .drawSprites v => Sys2Proof.Machine.execDrawSprites v s

end Sys2Proof.Machine
end

