-- ==== Sys2Proof/Machine/Step.lean ====
section
/-! DEFINITION. One step of the machine (spec/46_scheduler.md R377, R381): the operation presented first, or the
scheduler's own next step where nothing is presented. -/

namespace Sys2Proof.Machine

/-- One step. -/
def step (s : State) : Host.Outcome State Fault Refusal :=
  match s.pending with
  | w :: rest =>
    match decode w with
    | .ok i => exec i (takeOp s rest)
    | .error e => .refused (decodeRefusal e)
  | [] => exec (loopInstr Config.board s) (takeOp s [])

/-- The state with the operation of a word of spec/opcode_table.json presented first (log 2, log 3). -/
def State.withFetchWord (s : State) (nbits w : Nat) : State :=
  { s with pending := tableOp nbits w :: s.pending }

end Sys2Proof.Machine
end

