-- ==== Sys2Proof/Safety.lean ====
section
/-! DEFINITION. What counts as a safe run, and the invariants the claims are about. -/

namespace Sys2Proof.Machine

/-- An outcome is a next state. -/
def isNext : Result → Bool
  | .next _ => true
  | _ => false

/-- `n` steps from `s` run without a fault or a refusal. -/
def SafeRun (n : Nat) (s : State) : Prop := isNext (Sys2Proof.core.run n s) = true

/-- Every step keeps `P`. -/
def StepKeeps (P : State → Prop) : Prop := ∀ s t : State, P s → step s = .next t → P t

/-- The store is in its canonical form. -/
def MemoryCanonical (b : Board) (s : State) : Prop := Memory.wf (initByte b) s.mem = true

/-- 41_c148.md R199: what the block last signalled on every interrupt line is the line, and every reset line is
driven as the reset controls say (10_state.md R37). -/
structure PinsAgree (s : State) : Prop where
  irq : ∀ (k : Gen) (L : BitVec 3), L ≠ 0 → (s.irqPin.get k).getLsbD L.toNat = line s k L
  reset : ∀ p : Proc, s.rstPin.get p = held s p

/-- 10_state.md R45: a clean tile's cache is its decoded word. -/
def CacheCoherent (b : Board) (s : State) : Prop :=
  ∀ (l : Layer) (t : Nat), t < ntiles l → dirtyAt s l t = false →
    cacheTile s l t = decodeTile b (tileWord b s l t) (s.layer l).colorBank s.flip

/-- Every register narrower than the field that holds it stays within its width (10_state.md R40, R43, R49). -/
structure WidthsLegal (b : Board) (s : State) : Prop where
  bank : ∀ l : Layer, (s.layer l).colorBank.toNat < 2 ^ b.tileBankBits
  pri : ∀ l : Layer, (s.layer l).pri.toNat < 2 ^ priBits b
  rozPri : ∀ p : Plane, (s.rozPri[p]).toNat < 2 ^ priBits b
  dirty : ∀ (l : Layer) (t : Nat), ntiles l ≤ t → dirtyAt s l t = false

/-- Between steps the compositor is done (45_compositor.md R340), background pen 0 is not visible (R351), and the
colour table is that of the last rebuild (R352). -/
structure FrameSettled (s : State) : Prop where
  phase : s.phase = .done
  pen0 : visibleAt s 0 = false
  colours : ∀ c, s.prevRGB = some c → s.colourTable = c

/-! ### Names for the claims

The operations of one shape, by source; the state by name; what a claim says in its own words rather than with the
definition the meanings use. -/

/-- The LVL_WR of a source (41_c148.md R174-R178). -/
def lvlWrOp (k : Gen) (src : Source) (v : Word) (m : Lanes) : Instr :=
  match src with
  | .cpuirq => .lvlWrCpuirq k v m
  | .exirq => .lvlWrExirq k v m
  | .posirq => .lvlWrPosirq k v m
  | .scirq => .lvlWrScirq k v m
  | .vblank => .lvlWrVblank k v m

/-- The LVL_RD of a source (41_c148.md R179-R183). -/
def lvlRdOp (k : Gen) (src : Source) : Instr :=
  match src with
  | .cpuirq => .lvlRdCpuirq k
  | .exirq => .lvlRdExirq k
  | .posirq => .lvlRdPosirq k
  | .scirq => .lvlRdScirq k
  | .vblank => .lvlRdVblank k

/-- The ACK of a source (41_c148.md R185-R189). -/
def ackOp (k : Gen) (src : Source) : Instr :=
  match src with
  | .cpuirq => .ackCpuirq k
  | .exirq => .ackExirq k
  | .posirq => .ackPosirq k
  | .scirq => .ackScirq k
  | .vblank => .ackVblank k

/-- The ACK_READ of a source (41_c148.md R190). -/
def ackReadOp (k : Gen) (src : Source) : Instr :=
  match src with
  | .cpuirq => .ackReadCpuirq k
  | .exirq => .ackReadExirq k
  | .posirq => .ackReadPosirq k
  | .scirq => .ackReadScirq k
  | .vblank => .ackReadVblank k

/-- The EVT RAISE of a source (41_c148.md R173). -/
def raiseOp (k : Gen) (src : Source) : Instr :=
  match src with
  | .cpuirq => .evtRaiseCpuirq k
  | .exirq => .evtRaiseExirq k
  | .posirq => .evtRaisePosirq k
  | .scirq => .evtRaiseScirq k
  | .vblank => .evtRaiseVblank k

/-- `owner[k][L]` (10_state.md R34). -/
def ownerOf (s : State) (k : Gen) (L : BitVec 3) : Option Source := (s.c148.get k).ownerAt L

/-- The level that interrupt line `L` of CPU `k` was last driven to. -/
def irqPinAt (s : State) (k : Gen) (L : BitVec 3) : Bool := (s.irqPin.get k).getLsbD L.toNat

/-- What a 16-bit write of `v` under a lane mask leaves of a register that held `old`, byte by byte
(20_memory.md R88). -/
def laneWord (old v : Word) (m : Lanes) : Word :=
  match m with
  | .both => v
  | .high => v.extractLsb' 8 8 ++ old.extractLsb' 0 8
  | .low => old.extractLsb' 8 8 ++ v.extractLsb' 0 8

/-- Nothing but layer `l` changed. -/
def OnlyLayer (l : Layer) (s t : State) : Prop :=
  { t with layers := s.layers } = s ∧ ∀ l' : Layer, l' ≠ l → t.layer l' = s.layer l'

/-- Every byte of the store but those of `P` reads as before. -/
def BytesKept (b : Board) (s t : State) (P : Bank → Nat → Prop) : Prop :=
  ∀ (k : Bank) (o : Nat), ¬ P k o → readByte b t k o = readByte b s k o

/-- The table of 70_reset_and_hazards.md R440, but for what it leaves unspecified, and the levels its outputs leave
the lines at. -/
structure ResetDone (s : State) : Prop where
  levels : ∀ k src, levelOf s k src = 0
  owners : ∀ k L, ownerOf s k L = none
  rstSound : s.rstSound = 0
  rstSlaveIO : s.rstSlaveIO = 0
  wdt : s.wdt = 0
  scroll : ∀ l, (s.layer l).scrollX = 0 ∧ (s.layer l).scrollY = 0
  bank : ∀ l, (s.layer l).colorBank = 0
  pri : ∀ l, (s.layer l).pri = 0
  flip : s.flip = 0
  dirty : ∀ (l : Layer) (t : Nat), t < ntiles l → dirtyAt s l t = true
  sprBank : s.sprBank = 0
  rozBus : ∀ p r, rozBusAt s p r = 0
  rozPri : ∀ p : Plane, s.rozPri[p] = 0
  visible : ∀ i, visibleAt s i = false
  prevRGB : s.prevRGB = none
  phase : s.phase = .done
  frame : s.frame = 0
  slice : s.slice = 0
  turn : s.turn = .master
  irqLines : ∀ k L, irqPinAt s k L = false
  rstLines : s.rstPin = ⟨false, true, true, true⟩

/-- The operations that may clear an interrupt line: the acknowledges, the resets, and those that make bus accesses
(60_exceptions.md R404). -/
def mayClear : Instr → Bool
  | .ackCpuirq _ | .ackExirq _ | .ackPosirq _ | .ackScirq _ | .ackVblank _ => true
  | .ackReadCpuirq _ | .ackReadExirq _ | .ackReadPosirq _ | .ackReadScirq _ | .ackReadVblank _ => true
  | .machineReset | .frameEnd | .slice => true
  | .rd8 _ _ | .wr8 _ _ _ | .rd16 _ _ | .wr16 _ _ _ _ | .ifetch _ _ => true
  | _ => false

/-- The pixel a layer shows at u-coordinate (ux, uy) by its tile words alone (42_tilemap.md R239): no cache and no
flip enter it. -/
def tilePixel (b : Board) (s : State) (l : Layer) (ux uy : Nat) : Px :=
  let lx := (((ux : Int) + b.layerOriginX l + (s.layer l).scrollX.toNat) % (layerW l : Int)).toNat
  let ly := (((uy : Int) + b.layerOriginY l + (s.layer l).scrollY.toNat) % (layerH l : Int)).toNat
  let code := b.tileRemap (tileWord b s l (ly / 8 * cols l + lx / 8))
  if b.tileMask code (lx % 8) (ly % 8) then
    some (BitVec.ofNat 13 ((s.layer l).colorBank.toNat * b.tileBankStride + b.tileGfx code (lx % 8) (ly % 8)))
  else none

/-- The sprites of level `n`, in drawing order (43_sprite.md R279): those with a height and priority `n`. -/
def spritesAt (b : Board) (s : State) (n : Nat) : List (Fin 128) :=
  b.spriteOrder.filter fun slot =>
    decide ((b.spriteDecode (slotWords b s slot)).reqH ≠ 0)
      && decide (spritePri b (b.spriteDecode (slotWords b s slot)) = n)

/-- The elements of level `n`, in the order 45_compositor.md R342 draws them, each as the pixel it shows. -/
def levelElements (b : Board) (s : State) (n : Nat) : List (Nat → Nat → Px) :=
  (([0, 1, 2, 3, 4, 5] : List Layer).filter fun l => (s.layer l).pri.toNat = n).map (tilePixel b s)
    ++ (([0, 1] : List Plane).filter fun p => planeExists b p && decide ((s.rozPri[p]).toNat = n)).map (rozPixel b s)
    ++ (spritesAt b s n).map fun slot => spriteAt b (slotWords b s slot)

/-- The elements of a frame in drawing order, level 0 first (R343). -/
def frameElements (b : Board) (s : State) : List (Nat → Nat → Px) :=
  (List.range (priMax b + 1)).flatMap (levelElements b s)

/-- What is seen of a list of elements at a pixel: the last one that is not transparent there, and background pen 0
where none is (R346, R340). -/
def topPen (es : List (Nat → Nat → Px)) (x y : Nat) : Pen := (es.reverse.findSome? fun f => f x y).getD 0

/-! ### Slices -/

/-- The accesses of a list are made in order, from `s` to `t`; none but the last ends the turn, by a yield or by putting the
processor itself in reset. -/
inductive Performs (b : Board) (p : Proc) : List BusAccess → State → State → Prop
  | nil (s : State) : Performs b p [] s s
  | last (o : BusAccess) (s t : State) : access b p o s = .ok t → (t.turnOver = true ∨ held t p = true) →
      Performs b p [o] s t
  | cons (o : BusAccess) (os : List BusAccess) (s u t : State) : access b p o s = .ok u → u.turnOver = false →
      held u p = false → Performs b p os u t → Performs b p (o :: os) s t

/-- The turn of processor `p` takes `s` to `t` (46_scheduler.md R372-R374): nothing where it is held; else its core is
run, makes the accesses of its next turn in order until they end, or a yield or its own hold ends the turn, and keeps the
rest. -/
inductive TurnOf (b : Board) (p : Proc) : State → State → Prop
  | held (s : State) : held s p = true → TurnOf b p s s
  | idle (s : State) : held s p = false → s.cores.get p = [] →
      TurnOf b p s { s with turn := p, turnOver := false, out := s.out ++ [.execute p (b.cyclesPerSlice p)] }
  | whole (s t : State) (os : List BusAccess) (ts : List (List BusAccess)) : held s p = false →
      s.cores.get p = os :: ts →
      Performs b p os { s with turn := p, turnOver := false, out := s.out ++ [.execute p (b.cyclesPerSlice p)] } t →
      TurnOf b p s { t with cores := t.cores.set p ts }
  | cut (s t : State) (made : List BusAccess) (o : BusAccess) (rest : List BusAccess) (ts : List (List BusAccess)) :
      held s p = false → s.cores.get p = (made ++ o :: rest) :: ts →
      Performs b p made { s with turn := p, turnOver := false, out := s.out ++ [.execute p (b.cyclesPerSlice p)] } t →
      (t.turnOver = true ∨ held t p = true) → TurnOf b p s { t with cores := t.cores.set p ((o :: rest) :: ts) }

/-- An access is not refused (60_exceptions.md R402): a 16-bit one is at an even address, from a general CPU. -/
def legalAccess (p : Proc) : BusAccess → Bool
  | .rd8 _ | .wr8 _ _ => true
  | .rd16 a | .wr16 a _ _ => !a.getLsbD 0 && (genOf p).isSome
  | .ifetch a => !a.getLsbD 0 || (genOf p).isNone

/-- The address of an access. -/
def accessAddr : BusAccess → Addr
  | .rd8 a => a
  | .wr8 a _ => a
  | .rd16 a => a
  | .wr16 a _ _ => a
  | .ifetch a => a

/-- No access of any core's next turn is refused. -/
def TurnsLegal (s : State) : Prop := ∀ p : Proc, ∀ os ∈ (s.cores.get p).head?, ∀ o ∈ os, legalAccess p o = true

end Sys2Proof.Machine
end

