-- ==== Sys2Proof/Certificates/Slice0/Obligations.lean ====
section
/-! DEFINITION. The statements for the provers. Each says which rule of spec/ it formalises. The machine's board is
the opaque `Config.board`, so a statement about `exec` holds of every board; statements about the shared operations
take the board as an argument. -/

open Sys2Proof Sys2Proof.Machine

/-! ### Encoding and the step -/

/-- 30_encoding.md R120-R125: the operation word of a well-formed operation decodes to it, with every operand. The
word that carries the codes is the model's own (log 1). -/
def Obligations.DecodeEncodeAgree : Prop :=
  ∀ i : Instr, i.wellFormed = true → decode (encode i) = .ok i

/-- Codes of R120 to R125, written out in operation words (log 1), decode to the operations they stand for. -/
def Obligations.SpecCodesDecode : Prop :=
  decode 0x000000000018001000000002#96 = .ok (.rd16 .master 0x180010)
    ∧ decode 0x000000050000000000020023#96 = .ok (.lvlWrCpuirq .master 5 .both)
    ∧ decode 0x00000000000000000012000F#96 = .ok (.ackReadVblank .slave)
    ∧ decode 0x004112340000000000030100#96 = .ok (.tileWr 0 65 0x1234 .both)
    ∧ decode 0x00000001000000000003017C#96 = .ok (.rozctrlWr 1 4 1 .both)
    ∧ decode 0x000000000000000000040014#96 = .ok (.evtRaiseExirq .master)
    ∧ decode 0x000000000000000000050010#96 = .ok .composite
    ∧ decode 0x000000000000000000050057#96 = .ok (.drawSprites 7)

/-- 46_scheduler.md R376: a reserved EVT or SCH code is refused. -/
def Obligations.ReservedCodesRefused : Prop :=
  (∀ (k : Gen) (s : State), exec (.evtRsvdSrc5 k) s = .refused .reservedCode)
    ∧ (∀ (c : BitVec 2) (s : State), exec (.evtRsvdSrc67 c) s = .refused .reservedCode)
    ∧ (∀ (c : Nat) (s : State) (rest : List OpWord), c < 256 → (c < 0x10 ∨ 0x1A ≤ c) →
        s.pending = packOp (BitVec.ofNat 16 c) 4 0 0 0 0 0 :: rest → step s = .refused .reservedCode)
    ∧ (∀ (c : Nat) (s : State) (rest : List OpWord), c < 256 →
        c ∉ [0x01, 0x02, 0x03, 0x10, 0x11, 0x20, 0x21, 0x22, 0x23, 0x24, 0x25, 0x30, 0x31, 0x32, 0x33, 0x34, 0x35, 0x40, 0x41] →
        c / 16 ≠ 5 →
        s.pending = packOp (BitVec.ofNat 16 c) 5 0 0 0 0 0 :: rest → step s = .refused .reservedCode)

/-- 46_scheduler.md R381: a step runs the operation presented first, on the state with it taken away and an empty
list of outputs. -/
def Obligations.StepRunsPresentedOperation : Prop :=
  ∀ (s : State) (w : OpWord) (rest : List OpWord) (i : Instr), s.pending = w :: rest → decode w = .ok i →
    step s = exec i { s with pending := rest, out := [] }

/-- 46_scheduler.md R377: with nothing presented, a step is a SLICE while the frame has slices left, and FRAME_END
after them. That the loop runs of itself where nothing is presented (log 3), and that the counter slice tells which, a
SLICE presented on its own counted in (log 14), are the model's. -/
def Obligations.LoopRunsSlicesThenFrameEnd : Prop :=
  ∀ s : State, s.pending = [] →
    step s = exec (if s.slice < Config.board.slicesPerFrame then .slice else .frameEnd) { s with pending := [], out := [] }

/-- 46_scheduler.md R377, R379: a frame always runs to completion. From its start, whatever the cores do (no access
refused), SLICES_PER_FRAME slices and a FRAME_END later the next frame starts, or the watchdog has reset the machine. That the loop
runs of itself (log 3) by the counter slice (log 14), and that the cores are queues of turns (log 4), are the model's. -/
def Obligations.FrameRunsToCompletion : Prop :=
  ∀ s : State, s.pending = [] → s.slice = 0 →
    (∀ p : Proc, ∀ os ∈ s.cores.get p, ∀ o ∈ os, legalAccess p o = true) →
    ∃ t : State, Sys2Proof.core.run (Config.board.slicesPerFrame + 1) s = .next t ∧ t.slice = 0 ∧ t.phase = .done
      ∧ ((t.frame = s.frame + 1 ∧ 0 < t.wdt ∧ t.wdt ≤ Config.board.wdtLimit) ∨ (t.frame = 0 ∧ t.wdt = 0))

/-! ### Reset -/

/-- 70_reset_and_hazards.md R440, 46_scheduler.md R380: the reset procedure, at power-on and by MACHINE_RESET, which
keeps every byte of memory. The order of the interrupt lines' calls in `resetOutputs` (log 34), and that what is presented
and what the cores will do are kept (log 3, log 4), are the model's. -/
def Obligations.ResetProcedure : Prop :=
  ResetDone State.reset
    ∧ (∀ o : Nat, readByte Config.board State.reset (.region .eeprom) o = Config.board.eepromBlob o)
    ∧ State.reset.out = resetOutputs
    ∧ (∀ (k : Gen) (L : BitVec 3), L ≠ 0 → Output.irqLine k L false ∈ resetOutputs)
    ∧ (∃ pre : List Output, resetOutputs = pre ++ [.resetLine .sound true, .resetLine .slave true, .resetLine .io true,
        .resetLine .master true, .resetLine .master false])
    ∧ ∀ s : State, ∃ t : State, exec .machineReset s = .next t ∧ ResetDone t ∧ t.mem = s.mem
        ∧ t.pending = s.pending ∧ t.cores = s.cores ∧ t.out = s.out ++ resetOutputs

/-! ### The C148 -/

/-- 41_c148.md R171, R173: EVT RAISE. -/
def Obligations.RaiseSource : Prop :=
  ∀ (k : Gen) (src : Source) (s : State), ∃ t : State, exec (raiseOp k src) s = .next t
    ∧ (∀ (k' : Gen) (L : BitVec 3), ownerOf t k' L
        = if k' = k ∧ L = levelOf s k src ∧ L ≠ 0 then some src else ownerOf s k' L)
    ∧ (∀ (k' : Gen) (L : BitVec 3), irqPinAt t k' L
        = if k' = k ∧ L = levelOf s k src ∧ L ≠ 0 then true else irqPinAt s k' L)
    ∧ (∀ (k' : Gen) (src' : Source), levelOf t k' src' = levelOf s k' src')
    ∧ t.out = s.out ++ (if levelOf s k src = 0 then [] else [.irqLine k (levelOf s k src) true])
    ∧ { t with c148 := s.c148, irqPin := s.irqPin, out := s.out } = s

/-- 41_c148.md R172, R185-R189: ACK. -/
def Obligations.AcknowledgeSource : Prop :=
  ∀ (k : Gen) (src : Source) (s : State), ∃ (j : Gen) (t : State), exec (ackOp k src) s = .next t
    ∧ j = (if src = .cpuirq ∧ Config.board.cpuirqAckBy = .peer then peer k else k)
    ∧ (∀ (k' : Gen) (L : BitVec 3), ownerOf t k' L
        = if k' = j ∧ L = levelOf s j src ∧ L ≠ 0 then none else ownerOf s k' L)
    ∧ (∀ (k' : Gen) (L : BitVec 3), irqPinAt t k' L
        = if k' = j ∧ L = levelOf s j src ∧ L ≠ 0 then false else irqPinAt s k' L)
    ∧ (∀ (k' : Gen) (src' : Source), levelOf t k' src' = levelOf s k' src')
    ∧ t.out = s.out ++ (if levelOf s j src = 0 then [] else [.irqLine j (levelOf s j src) false])
    ∧ { t with c148 := s.c148, irqPin := s.irqPin, out := s.out } = s

/-- 41_c148.md R190: ACK_READ. -/
def Obligations.AcknowledgeRead : Prop :=
  ∀ (k : Gen) (src : Source) (s : State), ∃ t u : State, exec (ackReadOp k src) s = .next t
    ∧ t = { u with out := u.out ++ [.data16 (genProc k) Config.board.openBus16] }
    ∧ (if Config.board.ackOnRead then exec (ackOp k src) s = .next u else u = s)

/-- 41_c148.md R184: CPUIRQ_TRIG. -/
def Obligations.TriggerPeer : Prop :=
  ∀ (k : Gen) (s : State), ∃ (j : Gen) (t : State), j ≠ k ∧ exec (.cpuirqTrig k) s = .next t
    ∧ exec (.evtRaiseCpuirq j) s = .next t
    ∧ (levelOf s j .cpuirq = 0 → t = s)
    ∧ (levelOf s j .cpuirq ≠ 0 → line t j (levelOf s j .cpuirq) = true ∧ sourcePending t j .cpuirq = true)

/-- 41_c148.md R174-R178: LVL_WR. -/
def Obligations.LevelWrite : Prop :=
  ∀ (k : Gen) (src : Source) (v : Word) (m : Lanes) (s : State), ∃ t : State,
    exec (lvlWrOp k src v m) s = .next t
      ∧ (∀ (k' : Gen) (src' : Source), levelOf t k' src' = if k' = k ∧ src' = src then
          (if m = .high then levelOf s k src else v.extractLsb' 0 3) else levelOf s k' src')
      ∧ (∀ (k' : Gen) (L : BitVec 3), ownerOf t k' L = ownerOf s k' L)
      ∧ { t with c148 := s.c148 } = s

/-- 41_c148.md R179-R183, R191, R192, R195-R197: the reads of the C148 that have no effect, the ignored write, and the
watchdog kick. -/
def Obligations.C148ReadsAndKick : Prop :=
  ∀ (k : Gen) (s : State),
    (∀ src : Source, exec (lvlRdOp k src) s
        = .next { s with out := s.out ++ [.data16 (genProc k) ((levelOf s k src).setWidth 16)] })
      ∧ exec (.eepromRdy k) s = .next { s with out := s.out ++ [.data16 (genProc k) Config.board.eepromReady] }
      ∧ exec (.eepromRdyWr k) s = .next s
      ∧ exec (.rstsndRd k) s = .next { s with out := s.out ++ [.data16 (genProc k) (s.rstSound.setWidth 16)] }
      ∧ exec (.rstslvRd k) s = .next { s with out := s.out ++ [.data16 (genProc k) (s.rstSlaveIO.setWidth 16)] }
      ∧ exec (.wdtKick k true) s = .next { s with wdt := 0 }
      ∧ exec (.wdtKick k false) s
          = .next { s with wdt := 0, out := s.out ++ [.data16 (genProc k) Config.board.openBus16] }

/-- 41_c148.md R193: RSTSND_WR. -/
def Obligations.SoundResetControl : Prop :=
  ∀ (k : Gen) (v : Word) (m : Lanes) (s : State), ∃ (t : State) (n : BitVec 1), exec (.rstsndWr k v m) s = .next t
    ∧ n = (if m = .high then s.rstSound else v.extractLsb' 0 1)
    ∧ if k = .slave ∧ Config.board.resetCtrlOnSlave = false then t = s else
        t.rstSound = n
          ∧ t.rstPin = { s.rstPin with sound := decide (n = 0) }
          ∧ t.turnOver = (s.turnOver || decide (n = 1 ∧ s.rstSound = 0))
          ∧ t.out = s.out ++ .resetLine .sound (decide (n = 0)) :: (if n = 1 ∧ s.rstSound = 0 then [.yield k] else [])
          ∧ { t with rstSound := s.rstSound, rstPin := s.rstPin, turnOver := s.turnOver, out := s.out } = s

/-- 41_c148.md R194: RSTSLV_WR; the C148 state of the held CPU is kept (R199). -/
def Obligations.SlaveIoResetControl : Prop :=
  ∀ (k : Gen) (v : Word) (m : Lanes) (s : State), ∃ (t : State) (n : BitVec 1), exec (.rstslvWr k v m) s = .next t
    ∧ n = (if m = .high then s.rstSlaveIO else v.extractLsb' 0 1)
    ∧ if k = .slave ∧ Config.board.resetCtrlOnSlave = false then t = s else
        t.rstSlaveIO = n
          ∧ t.rstPin = { s.rstPin with slave := decide (n = 0), io := decide (n = 0) }
          ∧ t.turnOver = (s.turnOver || decide (n = 1 ∧ s.rstSlaveIO = 0))
          ∧ t.out = s.out ++ .resetLine .slave (decide (n = 0)) :: .resetLine .io (decide (n = 0))
              :: (if n = 1 ∧ s.rstSlaveIO = 0 then [.yield k] else [])
          ∧ { t with rstSlaveIO := s.rstSlaveIO, rstPin := s.rstPin, turnOver := s.turnOver, out := s.out } = s

/-- 41_c148.md R198: the reserved selectors. -/
def Obligations.ReservedSelectors : Prop :=
  ∀ (k : Gen) (s : State) (c1 : BitVec 1) (c2 : BitVec 2) (c3 : BitVec 3),
    (∀ i ∈ [Instr.c148RsvdS01 k false c1, .c148RsvdS2 k false, .c148RsvdS89 k false c1, .c148RsvdRdS10 k,
        .c148RsvdS2023 k false c2, .c148RsvdS2431 k false c3],
        exec i s = .next { s with out := s.out ++ [.data16 (genProc k) Config.board.openBus16] })
      ∧ ∀ i ∈ [Instr.c148RsvdS01 k true c1, .c148RsvdS2 k true, .c148RsvdS89 k true c1, .c148RsvdS2023 k true c2,
        .c148RsvdS2431 k true c3], exec i s = .next s

/-- 41_c148.md R200: two sources that share a level share its line, and one acknowledge loses the other's raise. -/
def Obligations.SameLevelSharing : Prop :=
  ∀ (k : Gen) (src1 src2 : Source) (L : BitVec 3) (s : State), L ≠ 0 → levelOf s k src1 = L → levelOf s k src2 = L →
    (∀ L' : BitVec 3, ownerOf s k L' = none) →
    ∃ u t : State, exec (raiseOp k src1) s = .next u ∧ exec (raiseOp k src2) u = .next t
      ∧ (∀ L' : BitVec 3, line t k L' = decide (L' = L)) ∧ ownerOf t k L = some src2 ∧ ipl t k = L.toNat
      ∧ ∀ src : Source, src = src1 ∨ src = src2 →
          (∀ L' : BitVec 3, line (acknowledge k src t) k L' = false)
            ∧ sourcePending (acknowledge k src t) k src1 = false ∧ sourcePending (acknowledge k src t) k src2 = false

/-- 70_reset_and_hazards.md R452: a level reprogrammed while its line is asserted. -/
def Obligations.ReprogrammedLevel : Prop :=
  ∀ (k : Gen) (src : Source) (v : Word) (s : State), levelOf s k src ≠ 0 → v.extractLsb' 0 3 ≠ levelOf s k src →
    ∃ u t : State, exec (raiseOp k src) s = .next u ∧ exec (lvlWrOp k src v .both) u = .next t
      ∧ ownerOf t k (levelOf s k src) = some src ∧ line t k (levelOf s k src) = true
      ∧ line (acknowledge k src t) k (v.extractLsb' 0 3) = false
      ∧ line (acknowledge k src t) k (levelOf s k src) = true
      ∧ ∀ src' : Source, line (acknowledge k src' t) k (levelOf s k src)
          = decide (levelOf t k src' ≠ levelOf s k src)

/-- 60_exceptions.md R404 (Cleared), 41_c148.md R199: an operation that is no acknowledge, no reset and no bus access
clears no interrupt line, and a bus access clears none unless it reaches a C148. -/
def Obligations.OnlyAcknowledgeClears : Prop :=
  (∀ (i : Instr) (s t : State) (k : Gen) (L : BitVec 3), mayClear i = false → exec i s = .next t →
      line s k L = true → line t k L = true)
    ∧ ∀ (b : Board) (p : Proc) (o : BusAccess) (s t : State),
        (∀ (R : AddressRange) (k : Gen), route b p (busAddr b p (accessAddr o)) ≠ .c148 R k) →
        access b p o s = .ok t → t.c148 = s.c148

/-! ### Invariants that every step keeps -/

/-- 41_c148.md R199: after every operation, the line last signalled is the line. -/
def Obligations.PinsAgreeKept : Prop := StepKeeps PinsAgree

/-- 10_state.md R45: the cache invariant. That a bus write which reaches a tile word through `VRAM` marks its tile dirty, so
that such a step keeps it too, is the model's reading (log 8). -/
def Obligations.CacheCoherentKept : Prop := StepKeeps (CacheCoherent Config.board)

/-- The store keeps its one canonical form (the model's own, log 6). -/
def Obligations.MemoryCanonicalKept : Prop := StepKeeps (MemoryCanonical Config.board)

/-- 10_state.md R40, R43, R49: every register keeps its width. -/
def Obligations.WidthsLegalKept : Prop := StepKeeps (WidthsLegal Config.board)

/-- 45_compositor.md R340, R351, R352: between steps the compositor is done, index 0 is not visible and the colour
table is the one last rebuilt. -/
def Obligations.FrameSettledKept : Prop := StepKeeps FrameSettled

/-- The five invariants hold right after reset. -/
def Obligations.InvariantsAtReset : Prop :=
  PinsAgree State.reset ∧ CacheCoherent Config.board State.reset ∧ MemoryCanonical Config.board State.reset
    ∧ WidthsLegal Config.board State.reset ∧ FrameSettled State.reset

/-! ### The router -/

/-- 20_memory.md R82: the last-registered range that holds the address wins; none means no range holds it. -/
def Obligations.ResolveLastWins : Prop :=
  ∀ (table : List AddressRange) (a : Nat),
    (∀ R : AddressRange, resolve table a = some R ↔ ∃ pre post : List AddressRange, table = pre ++ R :: post
        ∧ (R.start ≤ a ∧ a ≤ R.stop) ∧ ∀ R' ∈ post, ¬ (R'.start ≤ a ∧ a ≤ R'.stop))
      ∧ (resolve table a = none ↔ ∀ R ∈ table, ¬ (R.start ≤ a ∧ a ≤ R.stop))

/-- 40_router.md R150: RD8, whatever the address reaches. That open bus leaves the diagnostic record which 60_exceptions.md
R401 leaves optional is the model's choice (log 28), and so is that a read leaves the analog input's status bit as it is
(log 11). -/
def Obligations.ByteRead : Prop :=
  ∀ (p : Proc) (a : Addr) (s : State), exec (.rd8 p a) s = .next (
    let b := Config.board
    let x := busAddr b p a
    match resolve (b.map p) x with
    | none => { s with out := s.out ++ [.openBus p a false false, .data8 p b.openBus8] }
    | some R =>
      match R.target, genOf p with
      | .region r base, _ =>
        { s with out := s.out ++ [.data8 p (regionRead b s r ((x - R.start + base) % regionSize b r))] }
      | .c148, some k =>
        let u := c148ReadEffect b k (handlerOffEven R x) s
        { u with out := u.out ++ [.data8 p (match c148ReadValue b k (handlerOffEven R x) s with
          | some w => byteAt x w
          | none => b.openBus8)] }
      | .c148, none => { s with out := s.out ++ [.openBus p a false false, .data8 p b.openBus8] }
      | .video, _ =>
        { s with out := s.out ++ [.data8 p (match videoReadValue b (handlerOffEven R x) s with
          | some w => byteAt x w
          | none => b.openBus8)] }
      | .peripheral d, _ =>
        { s with
          draws := s.draws + 1
          out := s.out ++
            [.data8 p (byteAt x (b.drawRead s.draws d (handlerOffEven R x) s.analogLatch s.analogDone))] })

/-- 40_router.md R151, 20_memory.md R81, R89, R90: RD16, its refusals, and its value whatever the address reaches. That
open bus leaves the diagnostic record which 60_exceptions.md R401 leaves optional is the model's choice (log 28), and so is
that a read leaves the analog input's status bit as it is (log 11). -/
def Obligations.WordRead : Prop :=
  (∀ (p : Proc) (a : Addr) (s : State), a.getLsbD 0 = true ∨ genOf p = none →
      exec (.rd16 p a) s = .refused .misalignedWord)
    ∧ ∀ (p : Proc) (k : Gen) (a : Addr) (s : State), genOf p = some k → a.getLsbD 0 = false →
      exec (.rd16 p a) s = .next (
        let b := Config.board
        let x := busAddr b p a
        match resolve (b.map p) x with
        | none => { s with out := s.out ++ [.openBus p a true false, .data16 p b.openBus16] }
        | some R =>
          match R.target with
          | .region r base =>
            { s with out := s.out ++ [.data16 p (regionRead b s r ((x - R.start + base) % regionSize b r)
              ++ regionRead b s r ((x - R.start + base + 1) % regionSize b r) : BitVec 16)] }
          | .c148 =>
            let u := c148ReadEffect b k (handlerOff R x) s
            { u with out := u.out ++ [.data16 p ((c148ReadValue b k (handlerOff R x) s).getD b.openBus16)] }
          | .video => { s with out := s.out ++ [.data16 p ((videoReadValue b (handlerOff R x) s).getD b.openBus16)] }
          | .peripheral d =>
            { s with
              draws := s.draws + 1
              out := s.out ++ [.data16 p (b.drawRead s.draws d (handlerOff R x) s.analogLatch s.analogDone)] })

/-- 40_router.md R152: WR8, whatever the address reaches; a region write stores one byte and leaves every other, and a
write to an opaque peripheral is an event with no effect on the state but for the analog input (20_memory.md R84,
10_state.md R56). That open bus leaves the diagnostic record which 60_exceptions.md R401 leaves optional is the model's
choice (log 28), and so is what a "start conversion" write does, and when (log 11). -/
def Obligations.ByteWrite : Prop :=
  ∀ (p : Proc) (a : Addr) (v : Byte) (s : State), ∃ t : State, exec (.wr8 p a v) s = .next t ∧
    (let b := Config.board
     let x := busAddr b p a
     let e : AddressRange → Addr := fun R => handlerOffEven R x
     let d : Word := if x % 2 = 0 then v ++ 0#8 else 0#8 ++ v
     let m : Lanes := if x % 2 = 0 then .high else .low
     match resolve (b.map p) x with
     | none => t = { s with out := s.out ++ [.openBus p a false true] }
     | some R =>
       match R.target, genOf p with
       | .region r base, _ =>
         let i := (x - R.start + base) % regionSize b r
         regionRead b t r i = v
           ∧ BytesKept b s t (fun k o => (k, o) = regionPlace b r i)
           ∧ (∀ (l : Layer) (n : Nat), dirtyAt t l n = (dirtyAt s l n
               || decide ((regionPlace b r i).1 = .tiles l ∧ (regionPlace b r i).2 / 2 = n)))
           ∧ (∀ l : Layer, { t.layer l with dirty := (s.layer l).dirty } = s.layer l)
           ∧ { t with mem := s.mem, layers := s.layers } = s
       | .c148, some k => t = c148Write b k (e R) d m s
       | .c148, none => t = { s with out := s.out ++ [.openBus p a false true] }
       | .video, _ => t = videoWrite b (e R) d m s
       | .peripheral dev, _ =>
         let c : Bool := decide (dev = .analog) && b.analogControl (e R) m
         t = { s with
           out := s.out ++ [.peripheralWrite dev (e R) d m]
           analogLatch := if c then Vector.ofFn fun i => b.drawLatch s.draws i.val else s.analogLatch
           analogDone := if c then b.drawDone s.draws else s.analogDone
           draws := if c then s.draws + 1 else s.draws })

/-- 40_router.md R153, 20_memory.md R88-R90: WR16, its refusals, and its effect whatever the address reaches; only the
lanes of the mask are stored, and a write to an opaque peripheral is an event with no effect on the state but for the
analog input (20_memory.md R84, 10_state.md R56). That open bus leaves the diagnostic record which 60_exceptions.md R401
leaves optional is the model's choice (log 28), and so is what a "start conversion" write does, and when (log 11). -/
def Obligations.WordWrite : Prop :=
  (∀ (p : Proc) (a : Addr) (v : Word) (m : Lanes) (s : State), a.getLsbD 0 = true ∨ genOf p = none →
      exec (.wr16 p a v m) s = .refused .misalignedWord)
    ∧ ∀ (p : Proc) (k : Gen) (a : Addr) (v : Word) (m : Lanes) (s : State), genOf p = some k → a.getLsbD 0 = false →
      ∃ t : State, exec (.wr16 p a v m) s = .next t ∧
        (let b := Config.board
         let x := busAddr b p a
         match resolve (b.map p) x with
         | none => t = { s with out := s.out ++ [.openBus p a true true] }
         | some R =>
           match R.target with
           | .region r base =>
             let i := (x - R.start + base) % regionSize b r
             let j := (x - R.start + base + 1) % regionSize b r
             (m ≠ .high → regionRead b t r j = v.extractLsb' 0 8)
               ∧ (m ≠ .low → m = .high ∨ regionPlace b r i ≠ regionPlace b r j → regionRead b t r i = v.extractLsb' 8 8)
               ∧ BytesKept b s t (fun k o => (m ≠ .low ∧ (k, o) = regionPlace b r i)
                   ∨ (m ≠ .high ∧ (k, o) = regionPlace b r j))
               ∧ (∀ (l : Layer) (n : Nat), dirtyAt t l n = (dirtyAt s l n
                   || decide (m ≠ .low ∧ (regionPlace b r i).1 = .tiles l ∧ (regionPlace b r i).2 / 2 = n)
                   || decide (m ≠ .high ∧ (regionPlace b r j).1 = .tiles l ∧ (regionPlace b r j).2 / 2 = n)))
               ∧ (∀ l : Layer, { t.layer l with dirty := (s.layer l).dirty } = s.layer l)
               ∧ { t with mem := s.mem, layers := s.layers } = s
           | .c148 => t = c148Write b k (handlerOff R x) v m s
           | .video => t = videoWrite b (handlerOff R x) v m s
           | .peripheral dev =>
             let c : Bool := decide (dev = .analog) && b.analogControl (handlerOff R x) m
             t = { s with
               out := s.out ++ [.peripheralWrite dev (handlerOff R x) v m]
               analogLatch := if c then Vector.ofFn fun i => b.drawLatch s.draws i.val else s.analogLatch
               analogDone := if c then b.drawDone s.draws else s.analogDone
               draws := if c then s.draws + 1 else s.draws })

/-- 40_router.md R154: an instruction fetch is RD16 for MASTER and SLAVE and RD8 for SOUND and IO. -/
def Obligations.InstructionFetch : Prop :=
  (∀ (p : Proc) (k : Gen) (a : Addr) (s : State), genOf p = some k → exec (.ifetch p a) s = exec (.rd16 p a) s)
    ∧ (∀ (p : Proc) (a : Addr) (s : State), genOf p = none → exec (.ifetch p a) s = exec (.rd8 p a) s)
    ∧ ∀ (p : Proc) (a : Addr) (s : State), genOf p = none ∨ a.getLsbD 0 = false →
        ∃ t : State, exec (.ifetch p a) s = .next t ∧ t.mem = s.mem ∧ t.layers = s.layers

/-- 20_memory.md R83, R95: a byte of a region reads as it was last written, and a write leaves every other byte. Which
bytes are the same: each byte of each region is one of its own (10_state.md R39), but for those of `VRAM` that hold tile
words (R42; log 8, and log 35: at even offsets alone, and on a placement that leaves a word out or places it twice). -/
def Obligations.RegionReadAfterWrite : Prop :=
  (∀ (b : Board) (r : Region) (o : Nat), regionPlace b r o =
      if r = .vram then
        match b.vramTile (o / 2) with
        | some (l, t) => (.tiles l, 2 * (t.toNat % ntiles l) + o % 2)
        | none => (.region .vram, o)
      else (.region r, o))
    ∧ ∀ (b : Board) (r r' : Region) (o o' : Nat) (v : Byte) (s : State),
      regionRead b (regionWrite b r o v s) r' o'
        = if regionPlace b r' o' = regionPlace b r o then v else regionRead b s r' o'

/-- 20_memory.md R86: a write through one processor's table is seen by the next read through any table that maps the
same byte. -/
def Obligations.SharedWindowVisible : Prop :=
  ∀ (b : Board) (p p' : Proc) (a a' : Addr) (v : Byte) (s : State) (R R' : AddressRange) (r : Region) (base base' : Nat),
    resolve (b.map p) (busAddr b p a) = some R → R.target = .region r base →
    resolve (b.map p') (busAddr b p' a') = some R' → R'.target = .region r base' →
    (busAddr b p a - R.start + base) % regionSize b r = (busAddr b p' a' - R'.start + base') % regionSize b r →
    ∃ t : State, access b p (.wr8 a v) s = .ok t
      ∧ access b p' (.rd8 a') t = .ok { t with out := t.out ++ [.data8 p' v] }

/-- 41_c148.md R170, 30_encoding.md R121, R122: what a word access to the C148 window does is the operation of the
code `wr ++ off[17:13]`. -/
def Obligations.C148WindowDispatch : Prop :=
  ∀ (k : Gen) (off : Addr) (v : Word) (m : Lanes) (s : State),
    exec (decodeC148 k true (off.toNat / 8192 % 32) v m) s = .next (c148Write Config.board k off v m s)
      ∧ exec (decodeC148 k false (off.toNat / 8192 % 32) v m) s
          = .next (return16 (genProc k) ((c148ReadValue Config.board k off s).getD Config.board.openBus16)
              (c148ReadEffect Config.board k off s))

/-- 30_encoding.md R123: what a word access to the video window does is the operation of the code
`wr ++ kind ++ idx` that VIDREG_MAP gives it. That VIDREG_MAP is asked for the offset in the range the access resolves to,
and not for the bus address, is the model's choice (log 32). -/
def Obligations.VideoWindowDispatch : Prop :=
  ∀ (p : Proc) (off : Addr) (v : Word) (m : Lanes) (s : State),
    let c := Config.board.vidregMap off
    exec (decodeVid p (1#1 ++ c.kind ++ c.idx) c.t v m) s = .next (videoWrite Config.board off v m s)
      ∧ exec (decodeVid p (0#1 ++ c.kind ++ c.idx) c.t v m) s
          = .next (return16 p ((videoReadValue Config.board off s).getD Config.board.openBus16) s)

/-! ### The video registers -/

/-- 42_tilemap.md R231: TILE_WR. -/
def Obligations.TileWrite : Prop :=
  ∀ (l : Layer) (t v : Word) (m : Lanes) (s : State), ∃ u : State, exec (.tileWr l t v m) s = .next u
    ∧ (let n := t.toNat % ntiles l
       tileWord Config.board u l n = laneWord (tileWord Config.board s l n) v m
         ∧ BytesKept Config.board s u (fun k o => k = .tiles l ∧ o / 2 = n)
         ∧ (∀ (l' : Layer) (i : Nat), dirtyAt u l' i = (dirtyAt s l' i || decide (l' = l ∧ i = n)))
         ∧ (∀ l' : Layer, { u.layer l' with dirty := (s.layer l').dirty } = s.layer l')
         ∧ { u with mem := s.mem, layers := s.layers } = s)

/-- 42_tilemap.md R232, R233, R235: SCROLLX_WR, SCROLLY_WR and LPRI_WR; no dirty bit changes. -/
def Obligations.LayerRegisterWrite : Prop :=
  ∀ (l : Layer) (v : Word) (m : Lanes) (s : State), ∃ (t u w : State) (n : BitVec 4),
    exec (.scrollxWr l v m) s = .next t
      ∧ t.layer l = { s.layer l with scrollX := laneWord (s.layer l).scrollX v m } ∧ OnlyLayer l s t
      ∧ exec (.scrollyWr l v m) s = .next u
      ∧ u.layer l = { s.layer l with scrollY := laneWord (s.layer l).scrollY v m } ∧ OnlyLayer l s u
      ∧ exec (.lpriWr l v m) s = .next w
      ∧ n.toNat = (laneWord ((s.layer l).pri.setWidth 16) v m).toNat % 2 ^ priBits Config.board
      ∧ w.layer l = { s.layer l with pri := n } ∧ OnlyLayer l s w

/-- 42_tilemap.md R234: BANK_WR; a redundant write changes nothing, a change marks every tile of the layer dirty. The
width of the register is held in 16 bits (log 12). -/
def Obligations.BankWrite : Prop :=
  ∀ (l : Layer) (v : Word) (m : Lanes) (s : State), ∃ (t : State) (n : Word), exec (.bankWr l v m) s = .next t
    ∧ n.toNat = (laneWord (s.layer l).colorBank v m).toNat % 2 ^ Config.board.tileBankBits
    ∧ (n = (s.layer l).colorBank → t = s)
    ∧ (n ≠ (s.layer l).colorBank → OnlyLayer l s t ∧ (∀ i : Nat, i < ntiles l → dirtyAt t l i = true)
        ∧ t.layer l = { s.layer l with colorBank := n, dirty := (t.layer l).dirty })

/-- 42_tilemap.md R236: FLIP_WR; every tile of every layer is marked dirty, whether or not the flip changes. -/
def Obligations.FlipWrite : Prop :=
  ∀ (v : Word) (m : Lanes) (s : State), ∃ t : State, exec (.flipWr v m) s = .next t
    ∧ t.flip = (if m = .high then s.flip else v.extractLsb' 0 1)
    ∧ (∀ (l : Layer) (i : Nat), i < ntiles l → dirtyAt t l i = true)
    ∧ (∀ l : Layer, { t.layer l with dirty := (s.layer l).dirty } = s.layer l)
    ∧ { t with flip := s.flip, layers := s.layers } = s

/-- 43_sprite.md R272, 44_roz.md R310, R311, 30_encoding.md R133: SPRBANK_WR, ROZCTRL_WR and ROZPRI_WR, and the
discarding of the ROZ writes for a plane the board does not have. -/
def Obligations.SpriteAndRozRegisterWrite : Prop :=
  ∀ (p : Plane) (r : BitVec 3) (v : Word) (m : Lanes) (s : State), ∃ t u : State,
    exec (.sprbankWr v m) s = .next { s with sprBank := laneWord s.sprBank v m }
      ∧ exec (.rozctrlWr p r v m) s = .next t ∧ exec (.rozpriWr p v m) s = .next u
      ∧ if p.val < (if Config.board.rozPlanes = .two then 2 else 1) then
          (∀ (p' : Plane) (r' : BitVec 3), rozBusAt t p' r'
              = if p' = p ∧ r' = r then laneWord (rozBusAt s p r) v m else rozBusAt s p' r')
            ∧ { t with rozBus := s.rozBus } = s
            ∧ (∀ p' : Plane, (u.rozPri[p']).toNat = if p' = p then
                (laneWord ((s.rozPri[p]).setWidth 16) v m).toNat % 2 ^ priBits Config.board else (s.rozPri[p']).toNat)
            ∧ { u with rozPri := s.rozPri } = s
        else t = s ∧ u = s

/-- 42_tilemap.md R241, 30_encoding.md R132, R133: VID_RD has no effect and returns the register, zero-extended; a
plane the board does not have and a reserved code read as open bus, and a write to a reserved code is discarded. -/
def Obligations.VideoReadAndReserved : Prop :=
  (∀ (p : Proc) (s : State) (c9 : BitVec 9) (c5 : BitVec 5) (c6 : BitVec 6),
    let rd : State := { s with out := s.out ++ [.data16 p Config.board.openBus16] }
    exec (.vidRsvdK9 p c9) s = .next (if c9.toNat < 256 then rd else s)
      ∧ exec (.vidRsvdKAB p false c5) s = .next rd ∧ exec (.vidRsvdKAB p true c5) s = .next s
      ∧ exec (.vidRsvdKCF p false c6) s = .next rd ∧ exec (.vidRsvdKCF p true c6) s = .next s)
    ∧ ∀ (p : Proc) (r : VidReg) (s : State), exec (.vidRd p r) s = .next { s with out := s.out ++ [.data16 p (
    match r with
    | .tile l t => tileWord Config.board s l (t.toNat % ntiles l)
    | .scrollX l => (s.layer l).scrollX
    | .scrollY l => (s.layer l).scrollY
    | .bank l => (s.layer l).colorBank
    | .pri l => (s.layer l).pri.setWidth 16
    | .flip => s.flip.setWidth 16
    | .sprBank => s.sprBank
    | .rozCtrl q i =>
      if q.val < (if Config.board.rozPlanes = .two then 2 else 1) then rozBusAt s q i else Config.board.openBus16
    | .rozPri q =>
      if q.val < (if Config.board.rozPlanes = .two then 2 else 1) then (s.rozPri[q]).setWidth 16
      else Config.board.openBus16)] }

/-! ### Tiles -/

/-- 42_tilemap.md R237: RENDER_LAYER decodes the dirty tiles alone, clears their dirty bits, leaves every tile of the
layer as the cache invariant says where the clean ones were so before, and a second one changes nothing. -/
def Obligations.RenderLayer : Prop :=
  ∀ (l : Layer) (s : State), ∃ t : State, exec (.renderLayer l) s = .next t
    ∧ (∀ i : Nat, i < ntiles l → cacheTile t l i = if dirtyAt s l i then
        decodeTile Config.board (tileWord Config.board s l i) (s.layer l).colorBank s.flip else cacheTile s l i)
    ∧ (∀ i : Nat, dirtyAt t l i = false)
    ∧ OnlyLayer l s t
    ∧ t.layer l = { s.layer l with cache := (t.layer l).cache, dirty := (t.layer l).dirty }
    ∧ (CacheCoherent Config.board s → ∀ i : Nat, i < ntiles l → cacheTile t l i
        = decodeTile Config.board (tileWord Config.board t l i) (t.layer l).colorBank t.flip)
    ∧ exec (.renderLayer l) t = .next t

/-- 42_tilemap.md R238: the pixels of a decoded tile. -/
def Obligations.DecodedTilePixels : Prop :=
  ∀ (b : Board) (word bank : Word) (f : BitVec 1) (px py : Nat), px < 8 → py < 8 →
    (decodeTile b word bank f).getD (py * 8 + px) none
      = let qx := if f = 1 then 7 - px else px
        let qy := if f = 1 then 7 - py else py
        if b.tileMask (b.tileRemap word) qx qy = false then none
        else some (BitVec.ofNat 13 ((bank.toNat * b.tileBankStride + b.tileGfx (b.tileRemap word) qx qy) % 8192))

/-- 42_tilemap.md R240: DRAW_LAYER; the guard, and the pixels it writes. -/
def Obligations.DrawLayer : Prop :=
  ∀ (l : Layer) (s : State),
    ((∃ i : Nat, dirtyAt s l i = true) → exec (.drawLayer l) s = .fault .staleTileCache)
      ∧ ((∀ i : Nat, dirtyAt s l i = false) → ∃ t : State, exec (.drawLayer l) s = .next t
          ∧ (∀ x y : Nat, x < 288 → y < 224 → fbAt t x y = (layerPixel Config.board s l x y).getD (fbAt s x y))
          ∧ { t with fb := s.fb } = s)

/-- 42_tilemap.md R239: where the cache invariant holds, a clean layer's pixel is that of its tile words, unflipped. -/
def Obligations.LayerPixelUnflipped : Prop :=
  ∀ (b : Board) (s : State) (l : Layer) (ux uy : Nat), CacheCoherent b s → (∀ i : Nat, dirtyAt s l i = false) →
    layerPixel b s l ux uy = tilePixel b s l ux uy

/-- 42_tilemap.md R242: after RENDER_LAYER, what a layer shows does not depend on the history of its dirty bits. -/
def Obligations.HistoryIndependent : Prop :=
  ∀ (l : Layer) (s s' : State), CacheCoherent Config.board s → CacheCoherent Config.board s' →
    (∀ i : Nat, i < ntiles l → tileWord Config.board s l i = tileWord Config.board s' l i) →
    (s.layer l).colorBank = (s'.layer l).colorBank → s.flip = s'.flip →
    (s.layer l).scrollX = (s'.layer l).scrollX → (s.layer l).scrollY = (s'.layer l).scrollY →
    ∃ t t' : State, exec (.renderLayer l) s = .next t ∧ exec (.renderLayer l) s' = .next t'
      ∧ ∀ ux uy : Nat, layerPixel Config.board t l ux uy = layerPixel Config.board t' l ux uy

/-! ### Sprites and ROZ -/

/-- 43_sprite.md R279: DRAW_SPRITES shows, at every pixel, the last sprite of its level that is not transparent
there. Where a slot's words lie (10_state.md R47, R273), and the width of its priority (R270, R271; that a wider one is
cut to it is the model's reading, log 23). That a level above PRI_MAX draws nothing is the model's reading (log 16). -/
def Obligations.DrawSprites : Prop :=
  (∀ (b : Board) (s : State) (slot : Fin 128),
      let word : Nat → Word := fun i =>
        let o := ((b.sprbankDecode s.sprBank).bank.toNat * 128 + slot.val) * 8 + 2 * i
        regionRead b s .sprram o ++ regionRead b s .sprram (o + 1)
      slotWords b s slot = ⟨word 0, word 1, word 2, word 3⟩)
    ∧ (∀ (b : Board) (f : SpriteFields), spritePri b f = f.pri % (if b.spriteLayout = .default then 8 else 16))
    ∧ ∀ (v : BitVec 4) (s : State), ∃ t : State, exec (.drawSprites v) s = .next t
      ∧ (∀ x y : Nat, x < 288 → y < 224 → fbAt t x y
          = (((if v.toNat ≤ priMax Config.board then spritesAt Config.board s v.toNat else []).reverse.findSome?
              fun slot => spriteAt Config.board (slotWords Config.board s slot) x y).getD (fbAt s x y)))
      ∧ { t with fb := s.fb } = s

/-- 43_sprite.md R271, R275-R278: the pixel a sprite shows at an offset in its rectangle, and nothing outside it; its
region, and the corner of its rectangle. That a field wider than its width is cut to it is the model's reading (log 23). -/
def Obligations.SpritePixel : Prop :=
  ∀ (b : Board) (w : SpriteWords) (X Y : Nat),
    let f := b.spriteDecode w
    let N := if f.sizeClass = 0 then 16 else 32
    let X0 : Int := (BitVec.ofNat b.spritePosBits f.posX).toInt + b.spriteOriginX
    let Y0 : Int := (BitVec.ofNat b.spritePosBits f.posY).toInt + b.spriteOriginY
    let region : BitVec 1 :=
      if b.spriteLayout = .default then ([w.w0, w.w1, w.w2, w.w3].getD b.spriteRegionWord.val 0).extractLsb' 13 1
      else b.fixedRegion
    spriteX0 b f = X0 ∧ spriteY0 b f = Y0 ∧ spriteRegion b w = region
      ∧ (∀ dx dy : Nat, dx < f.reqW → dy < f.reqH → (X : Int) = X0 + dx → (Y : Int) = Y0 + dy →
        spriteAt b w X Y =
          (let sx := if f.flipX then N - 1 - dx * N / f.reqW else dx * N / f.reqW
           let sy := if f.flipY then N - 1 - dy * N / f.reqH else dy * N / f.reqH
           let pen := b.spriteGfx region f.code f.sizeClass sx sy
           if pen = b.spriteTransparentPen then none
           else some (BitVec.ofNat 13 ((f.color * b.spriteBankStride + pen.toNat) % 8192))))
      ∧ ((∀ dx dy : Nat, dx < f.reqW → dy < f.reqH → ¬ ((X : Int) = X0 + dx ∧ (Y : Int) = Y0 + dy)) →
        spriteAt b w X Y = none)

/-- 43_sprite.md R276, R277, R280: the sampled pixel lies in the native graphics, and at native size it is the 1:1
copy. -/
def Obligations.SpriteSampling : Prop :=
  ∀ (f : SpriteFields) (d : Nat),
    (d < f.reqW → spriteSx f d < nativeSize f
        ∧ (f.reqW = nativeSize f → spriteSx f d = if f.flipX then nativeSize f - 1 - d else d))
      ∧ (d < f.reqH → spriteSy f d < nativeSize f
        ∧ (f.reqH = nativeSize f → spriteSy f d = if f.flipY then nativeSize f - 1 - d else d))

/-- 44_roz.md R319, R320: DRAW_ROZ of a plane of the board; refused for one it does not have (log 15). -/
def Obligations.DrawRoz : Prop :=
  ∀ (p : Plane) (s : State),
    if p = 0 ∨ Config.board.rozPlanes = .two then
      ∃ t : State, exec (.drawRoz p) s = .next t
        ∧ (∀ x y : Nat, x < 288 → y < 224 → fbAt t x y
            = if Config.board.rozPresent p then (rozPixel Config.board s p x y).getD (fbAt s x y) else fbAt s x y)
        ∧ { t with fb := s.fb } = s
    else exec (.drawRoz p) s = .refused .noSuchPlane

/-- 44_roz.md R312, R313, R321: the closed form of the accumulators is the repeated addition the source describes,
and one step of 1.0 past either maximum start samples the column of start 0. -/
def Obligations.RozAccumulationAndWrap : Prop :=
  (∀ (b : Board) (s : State) (p : Plane) (c : RozCtl) (startX : Word) (syp : Nat), c.rightDx = 0x10000 →
    startX = 0x7FF0 ∨ startX = 0x7FFF →
    rozPixelCoord (rozX { c with startX := startX } 1 0) = 0
      ∧ rozTileAt b s p (rozPixelCoord (rozX { c with startX := startX } 1 0)) syp
          = rozTileAt b s p (rozPixelCoord (rozX { c with startX := 0 } 0 0)) syp)
  ∧ ∀ (c : RozCtl) (ux uy : Nat),
    (rozX c 0 0 = c.startX.signExtend 32 <<< 12 ∧ rozY c 0 0 = c.startY.signExtend 32 <<< 12)
      ∧ (rozX c 0 (uy + 1) = rozX c 0 uy + c.downDx ∧ rozY c 0 (uy + 1) = rozY c 0 uy + c.downDy)
      ∧ (rozX c (ux + 1) uy = rozX c ux uy + c.rightDx ∧ rozY c (ux + 1) uy = rozY c ux uy + c.rightDy)

/-- 44_roz.md R314-R318: the pixel of a ROZ plane from its accumulators. -/
def Obligations.RozPixel : Prop :=
  ∀ (b : Board) (s : State) (p : Plane) (ux uy : Nat),
    rozPixel b s p ux uy =
      if b.rozPresent p = false then none
      else
        let c := b.rozCtrlDecode s.rozBus[p]
        let sxp := (rozX c ux uy).toNat / 65536 % 2048
        let syp := (rozY c ux uy).toNat / 65536 % 2048
        let o := 2 * (syp / 8 * 256 + sxp / 8) % b.rozRamSize p
        let entry : Word := regionRead b s (.rozram p) o ++ regionRead b s (.rozram p) ((o + 1) % b.rozRamSize p)
        let pen := b.rozGfx p (b.rozTile entry) (sxp % 8) (syp % 8)
        if pen = 0xFF then none
        else some (BitVec.ofNat 13
          ((b.rozPalBase + (b.sprbankDecode s.sprBank).rozColor * b.rozBankStride + pen.toNat) % 8192))

/-! ### The compositor -/

/-- 45_compositor.md R340, R344, R345: what COMPOSITE leaves and puts out, and what it leaves alone. -/
def Obligations.CompositeFrame : Prop :=
  ∀ s : State, ∃ (t u : State) (idx : List (List Pen)) (rgb : List (List RGB)),
    exec .composite s = .next t ∧ exec .palScan s = .next u
      ∧ t.phase = .done ∧ t.visible = u.visible
      ∧ (∀ (l : Layer) (i : Nat), dirtyAt t l i = false)
      ∧ t.out = s.out ++ [.frame idx rgb]
      ∧ idx.length = 224 ∧ (∀ row ∈ idx, row.length = 288) ∧ rgb.length = 224 ∧ (∀ row ∈ rgb, row.length = 288)
      ∧ (∀ x y : Nat, x < 288 → y < 224 →
          gridAt 0 idx x y = (if s.flip = 1 then fbAt t (287 - x) (223 - y) else fbAt t x y)
            ∧ gridAt default rgb x y = t.colourTable.getD (gridAt 0 idx x y).toNat default)
      ∧ (∀ l : Layer, { t.layer l with cache := (s.layer l).cache, dirty := (s.layer l).dirty } = s.layer l)
      ∧ { t with
          layers := s.layers
          visible := s.visible
          prevRGB := s.prevRGB
          colourTable := s.colourTable
          fb := s.fb
          phase := s.phase
          out := s.out } = s

/-- 45_compositor.md R342, R343, R346: after COMPOSITE every pixel is that of the last element, in the order of
levels and of R342 within a level, that is not transparent there, and background pen 0 where none is. -/
def Obligations.PriorityOrdering : Prop :=
  ∀ s : State, CacheCoherent Config.board s → ∃ t : State, exec .composite s = .next t
    ∧ ∀ x y : Nat, x < 288 → y < 224 → fbAt t x y = topPen (frameElements Config.board s) x y

/-- 45_compositor.md R352: after every COMPOSITE the colour table holds every palette entry's colour, and a rebuild
that would change nothing is skipped. -/
def Obligations.ColourTableCurrent : Prop :=
  ∀ s : State, FrameSettled s → ∃ t : State, exec .composite s = .next t
    ∧ (∀ i : Nat, i < 8192 → t.colourTable.getD i default
        = Config.board.palDecode (fun o => regionRead Config.board s .palram (o % Config.board.palRamSize)) i)
    ∧ t.prevRGB = some t.colourTable
    ∧ (s.prevRGB = some t.colourTable → t.colourTable = s.colourTable)

/-- 45_compositor.md R347-R351: an index is visible after PAL_SCAN exactly if it is not 0 and a tile on the screen, a
ROZ tile reached, or an active sprite references it. -/
def Obligations.PaletteScan : Prop :=
  ∀ s : State, ∃ t : State, exec .palScan s = .next t ∧ { t with visible := s.visible } = s
    ∧ ∀ c : Pen, visibleAt t c.toNat = true ↔ c ≠ 0 ∧
        (let b := Config.board
         (∃ (l : Layer) (ux uy px py : Nat), ux < 288 ∧ uy < 224 ∧ px < 8 ∧ py < 8
            ∧ decodePixel b (tileWord b s l (tileIndexAt b s l ux uy)) (s.layer l).colorBank 0 px py = some c)
          ∨ (∃ (p : Plane) (ux uy px py : Nat), (p = 0 ∨ b.rozPlanes = .two) ∧ b.rozPresent p = true
            ∧ ux < 288 ∧ uy < 224 ∧ px < 8 ∧ py < 8
            ∧ rozPen b s (b.rozGfx p (rozTileAt b s p (rozPixelCoord (rozX (rozCtl b s p) ux uy))
                (rozPixelCoord (rozY (rozCtl b s p) ux uy))) px py) = some c)
          ∨ (∃ (slot : Fin 128) (x y : Nat),
            let w := slotWords b s slot
            let f := b.spriteDecode w
            f.reqH ≠ 0 ∧ x < nativeSize f ∧ y < nativeSize f
              ∧ spritePen b f (b.spriteGfx (spriteRegion b w) f.code f.sizeClass x y) = some c))

/-! ### The scheduler -/

/-- 46_scheduler.md R378: FRAME_END composes, raises VBLANK on both instances, counts the watchdog, and resets the
machine past its limit. -/
def Obligations.FrameEnd : Prop :=
  ∀ s : State, ∃ c u v t : State, exec .composite s = .next c ∧ exec (.evtRaiseVblank .master) c = .next u
    ∧ exec (.evtRaiseVblank .slave) u = .next v ∧ exec .frameEnd s = .next t
    ∧ if s.wdt + 1 ≤ Config.board.wdtLimit then t = { v with wdt := s.wdt + 1, frame := s.frame + 1, slice := 0 }
      else exec .machineReset { v with wdt := s.wdt + 1 } = .next t

/-- 46_scheduler.md R372: a SLICE completes where no access of the turns is refused, and counts itself. -/
def Obligations.SliceCompletes : Prop :=
  ∀ s : State, TurnsLegal s → ∃ t : State, exec .slice s = .next t ∧ sliceRound Config.board s = .ok t
    ∧ t.slice = s.slice + 1 ∧ t.frame = s.frame ∧ t.pending = s.pending

/-- 46_scheduler.md R372-R374: a round is the turns of MASTER, SLAVE, SOUND and IO in order, each skipped where the
processor is held when its turn comes, and ended by a yield or by the processor's own hold (41_c148.md R194). The queues
of turns are the model's (log 4). -/
def Obligations.RoundOfTurns : Prop :=
  ∀ (b : Board) (s t : State), sliceRound b s = .ok t ↔ ∃ s1 s2 s3 s4 : State, TurnOf b .master s s1
    ∧ TurnOf b .slave s1 s2 ∧ TurnOf b .sound s2 s3 ∧ TurnOf b .io s3 s4 ∧ t = { s4 with slice := s4.slice + 1 }

/-- 46_scheduler.md R375: a processor released in a round before its turn runs in that round. -/
def Obligations.ReleasedRunsInRound : Prop :=
  ∀ (b : Board) (s s1 s2 s3 t : State), sliceRound b s = .ok t → runTurn b .master s = .ok s1 →
    runTurn b .slave s1 = .ok s2 → runTurn b .sound s2 = .ok s3 →
    (held s1 .slave = false → Output.execute .slave (b.cyclesPerSlice .slave) ∈ t.out)
      ∧ (held s2 .sound = false → Output.execute .sound (b.cyclesPerSlice .sound) ∈ t.out)
      ∧ (held s3 .io = false → Output.execute .io (b.cyclesPerSlice .io) ∈ t.out)
end

