-- ==== Sys2Proof/Machine/Boards.lean ====
section
/-! DEFINITION. The check of the boards: which boards are boards of the spec (spec/20_memory.md R93, 00_scope.md R3, R9,
10_state.md R39). What a table maps is asked of the router itself, so that a range that later ones shadow, or that lies
above the address space, maps nothing. -/

namespace Sys2Proof

open Sys2Proof.Machine

/-- What address `a` of processor `p` reaches: a region and the byte of it (20_memory.md R83), or a handler and its offset
(R84); none above the address space and on open bus. -/
def Board.place (b : Board) (p : Proc) (a : Nat) : Option (Target × Nat) :=
  if a < 2 ^ b.addrBits p then
    (resolve (b.map p) a).map fun R =>
      match R.target with
      | .region r base => (.region r 0, (a - R.start + base) % regionSize b r)
      | t => (t, a - R.start)
  else none

/-- The addresses at which what processor `p` reaches may change: where its ranges begin and end, and the end of its
address space. Between two of them one range is reached, or none. -/
def Board.cuts (b : Board) (p : Proc) : List Nat :=
  0 :: 2 ^ b.addrBits p :: (b.map p).flatMap fun R => [R.start, R.stop + 1]

/-- A place is of the given region. -/
def inRegion (r : Region) (x : Option (Target × Nat)) : Bool := x.any fun y => decide (y.1 = .region r 0)

/-- A place is of the given handler. -/
def atHandler (t : Target) (x : Option (Target × Nat)) : Bool := x.any fun y => decide (y.1 = t)

/-- Some address of processor `p` reaches what `f` picks out. -/
def Board.reaches (b : Board) (p : Proc) (f : Option (Target × Nat) → Bool) : Bool :=
  (b.cuts p).any fun c => f (b.place p c)

/-- MASTER and SLAVE both reach what `f` picks out, and at the same addresses. -/
def Board.mappedAlike (b : Board) (f : Option (Target × Nat) → Bool) : Bool :=
  b.reaches .master f && (b.cuts .master ++ b.cuts .slave).all fun c =>
    !(f (b.place .master c) || f (b.place .slave c)) || decide (b.place .master c = b.place .slave c)

/-- R93(a): each general CPU reaches its C148 in the whole window of 256 KiB at `C148_BASE` (30_encoding.md R121). -/
def Board.mapsC148 (b : Board) : Bool :=
  ([.master, .slave] : List Proc).all fun p => (b.c148Base :: b.cuts p).all fun c =>
    !(decide (b.c148Base ≤ c) && decide (c ≤ b.c148Base + 0x3FFFF)) || decide (b.place p c = some (.c148, c - b.c148Base))

/-- 60_exceptions.md R412: SOUND and IO reach no C148. -/
def Board.c148OnGeneralOnly (b : Board) : Bool := ([.sound, .io] : List Proc).all fun p => !b.reaches p (atHandler .c148)

/-- R93(b): both general CPUs map SPRRAM, PALRAM, VRAM, every ROZRAM and the video registers at the same addresses. -/
def Board.mapsVideo (b : Board) : Bool :=
  b.mappedAlike (inRegion .sprram) && b.mappedAlike (inRegion .palram) && b.mappedAlike (inRegion .vram)
    && b.mappedAlike (inRegion (.rozram 0)) && (decide (b.rozPlanes = .one) || b.mappedAlike (inRegion (.rozram 1)))
    && b.mappedAlike (atHandler .video)

/-- 10_state.md R39: no processor maps the ROZ RAM of a plane the board does not have (log 33). -/
def Board.mapsOwnRozRam (b : Board) : Bool :=
  decide (b.rozPlanes = .two)
    || ([.master, .slave, .sound, .io] : List Proc).all fun p => !b.reaches p (inRegion (.rozram 1))

/-- R93(c): at least two processors map DPRAM. -/
def Board.mapsDpram (b : Board) : Bool :=
  decide (2 ≤ (([.master, .slave, .sound, .io] : List Proc).filter fun p => b.reaches p (inRegion .dpram)).length)

/-- R93(d): at least one general CPU maps SCIRAM. -/
def Board.mapsSciram (b : Board) : Bool := ([.master, .slave] : List Proc).any fun p => b.reaches p (inRegion .sciram)

/-- R93(e): at least one general CPU maps the EEPROM. -/
def Board.mapsEeprom (b : Board) : Bool := ([.master, .slave] : List Proc).any fun p => b.reaches p (inRegion .eeprom)

/-- D43: 4-bit priorities, and the Final Lap sprite layout, exactly on the Final Lap board. -/
def Board.variantPriority (b : Board) : Bool :=
  decide (b.priBits = .four ↔ b.variant = .finalLap) && decide (b.spriteLayout = .finalLap ↔ b.variant = .finalLap)

/-- R3, R9: two ROZ planes exactly on the Metal Hawk board. -/
def Board.variantPlanes (b : Board) : Bool := decide (b.rozPlanes = .two ↔ b.variant = .metalHawk)

/-- Every region whose size the board gives has a byte, and VRAM room for the tile words (10_state.md R39). -/
def Board.sizes (b : Board) : Bool :=
  decide (0 < b.rozRamSize 0) && decide (0 < b.rozRamSize 1) && decide (0 < b.palRamSize) && decide (0 < b.eepromSize)
    && decide (2 * (4 * 4096 + 2 * 1008) ≤ b.vramSize)

/-- `SPRITE_ORDER` is an order of the 128 slots. -/
def Board.ordersSlots (b : Board) : Bool := b.spriteOrder.isPerm (List.finRange 128)

/-- 10_state.md R42: every tile word lives in `VRAM`, at one place, and that at an even offset (log 35). The placement is OPEN, and the machine runs on any
`vramTile`, also one that puts a word nowhere or at two places (log 35); a board of the spec has none such. -/
def Board.placesTiles (b : Board) : Prop :=
  ∀ (l : Layer) (t : Nat), t < ntiles l →
    ∃! n : Nat, 2 * n + 1 < b.vramSize ∧ ∃ t' : Word, b.vramTile n = some (l, t') ∧ t'.toNat % ntiles l = t

/-- The checks of a board that are evaluated. -/
def Board.checks (b : Board) : Bool :=
  b.mapsC148 && b.c148OnGeneralOnly && b.mapsVideo && b.mapsOwnRozRam && b.mapsDpram && b.mapsSciram && b.mapsEeprom
    && b.variantPriority && b.variantPlanes && b.sizes && b.ordersSlots

/-- A board of the spec. -/
def Board.wellFormed (b : Board) : Prop := b.checks = true ∧ b.placesTiles

end Sys2Proof
end

