-- ==== Sys2Proof/Laws/Boards.lean ====
section
/-! SUPPORT. What the checks of a board's tables say (20_memory.md R93): each is asked at finitely many addresses, the
cuts, and says what it says at every address. -/

namespace Sys2Proof.Laws

open Sys2Proof.Machine

/-- What lies `d` addresses past a place, in the same range. -/
def advance (b : Board) (d : Nat) (x : Option (Target × Nat)) : Option (Target × Nat) :=
  x.map fun y =>
    match y.1 with
    | .region r n => (.region r n, (y.2 + d) % regionSize b r)
    | t => (t, y.2 + d)

/-- A list that holds 0 has a last member at or below any address. -/
theorem exists_last_le (l : List Nat) (h0 : 0 ∈ l) (a : Nat) : ∃ c ∈ l, c ≤ a ∧ ∀ x ∈ l, ¬ (c < x ∧ x ≤ a) := by
  have key : ∀ m : List Nat, ∀ c ≤ a, ∃ c' ∈ c :: m, c' ≤ a ∧ c ≤ c' ∧ ∀ x ∈ m, ¬ (c' < x ∧ x ≤ a) := by
    intro m
    induction m with
    | nil => intro c hc; exact ⟨c, by simp, hc, le_rfl, by simp⟩
    | cons y m ih =>
      intro c hc
      obtain ⟨c', h1, h2, h3, h4⟩ := ih c hc
      by_cases hy : c' < y ∧ y ≤ a
      · refine ⟨y, by simp, hy.2, by omega, fun x hx hxx => ?_⟩
        rcases List.mem_cons.mp hx with rfl | hx
        · omega
        · exact h4 x hx ⟨by omega, hxx.2⟩
      · refine ⟨c', by rcases List.mem_cons.mp h1 with rfl | h1 <;> simp_all, h2, h3, fun x hx => ?_⟩
        rcases List.mem_cons.mp hx with rfl | hx
        · exact hy
        · exact h4 x hx
  obtain ⟨c, h1, h2, -, h4⟩ := key l 0 (Nat.zero_le a)
  refine ⟨c, ?_, h2, h4⟩
  rcases List.mem_cons.mp h1 with rfl | h1
  · exact h0
  · exact h1

theorem zero_mem_cuts (b : Board) (p : Proc) : 0 ∈ b.cuts p := by simp [Board.cuts]

/-- Two addresses that every range holds or leaves out together resolve alike. -/
theorem resolve_congr {table : List AddressRange} {a c : Nat}
    (h : ∀ R ∈ table, (R.start ≤ a ∧ a ≤ R.stop) ↔ (R.start ≤ c ∧ c ≤ R.stop)) : resolve table a = resolve table c := by
  unfold resolve
  generalize (none : Option AddressRange) = x
  induction table generalizing x with
  | nil => rfl
  | cons R t ih =>
    simp only [List.foldl_cons]
    have e := h R (by simp)
    rw [ih fun Q hQ => h Q (by simp [hQ])]
    congr 1
    simp only [e]

/-- A range that an address resolves to holds it. -/
theorem start_le_of_resolve {table : List AddressRange} {a : Nat} {R : AddressRange} (h : resolve table a = some R) :
    R.start ≤ a := by
  unfold resolve at h
  suffices key : ∀ (t : List AddressRange) (x : Option AddressRange), (∀ R, x = some R → R.start ≤ a) →
      ∀ R, t.foldl (fun hit R => if R.start ≤ a ∧ a ≤ R.stop then some R else hit) x = some R → R.start ≤ a from
    key table none (by simp) R h
  intro t
  induction t with
  | nil => intro x hx; exact hx
  | cons Q t ih =>
    intro x hx
    refine ih _ fun R hR => ?_
    dsimp only at hR
    split at hR
    · rename_i hq; cases hR; exact hq.1
    · exact hx R hR

/-- Between two cuts a processor reaches the following bytes of one range, or nothing. -/
theorem place_between {b : Board} {p : Proc} {c a : Nat} (hc : c ≤ a) (h : ∀ x ∈ b.cuts p, ¬ (c < x ∧ x ≤ a)) :
    b.place p a = advance b (a - c) (b.place p c) := by
  have hlim := h (2 ^ b.addrBits p) (by simp [Board.cuts])
  have hr : resolve (b.map p) a = resolve (b.map p) c := by
    refine resolve_congr fun R hR => ?_
    have h1 := h R.start (by simp only [Board.cuts, List.mem_cons, List.mem_flatMap]; exact .inr (.inr ⟨R, hR, .inl rfl⟩))
    have h2 := h (R.stop + 1) (by
      simp only [Board.cuts, List.mem_cons, List.mem_flatMap]; exact .inr (.inr ⟨R, hR, .inr (.inl rfl)⟩))
    constructor <;> rintro ⟨h3, h4⟩ <;> constructor <;> omega
  unfold Board.place
  by_cases hl : c < 2 ^ b.addrBits p
  · rw [if_pos (by omega), if_pos hl, hr]
    cases hx : resolve (b.map p) c with
    | none => rfl
    | some R =>
      have hs := start_le_of_resolve hx
      simp only [advance, Option.map_some]
      cases R.target with
      | region r base =>
        simp only
        rw [Nat.mod_add_mod]
        congr 3
        omega
      | _ => simp only; congr 2; omega
  · rw [if_neg (by omega), if_neg hl]; rfl

/-- Some address reaches what `f` picks out, for an `f` that looks at the target alone. -/
theorem reaches_iff {b : Board} {p : Proc} {f : Option (Target × Nat) → Bool} (hf : ∀ d x, f (advance b d x) = f x) :
    b.reaches p f = true ↔ ∃ a, f (b.place p a) = true := by
  simp only [Board.reaches, List.any_eq_true]
  constructor
  · rintro ⟨c, -, h⟩; exact ⟨c, h⟩
  · rintro ⟨a, h⟩
    obtain ⟨c, hm, hc, hno⟩ := exists_last_le _ (zero_mem_cuts b p) a
    rw [place_between hc hno, hf] at h
    exact ⟨c, hm, h⟩

/-- R93(b): the check says that some address of MASTER reaches what `f` picks out, and that every address of either
general CPU that does reaches the same byte for both. -/
theorem mappedAlike_iff {b : Board} {f : Option (Target × Nat) → Bool} (hf : ∀ d x, f (advance b d x) = f x) :
    b.mappedAlike f = true ↔ (∃ a, f (b.place .master a) = true)
      ∧ ∀ a, f (b.place .master a) = true ∨ f (b.place .slave a) = true → b.place .master a = b.place .slave a := by
  simp only [Board.mappedAlike, Bool.and_eq_true, reaches_iff hf, List.all_eq_true]
  refine and_congr_right fun _ => ⟨fun h a ha => ?_, fun h c _ => ?_⟩
  · obtain ⟨c, hm, hc, hno⟩ := exists_last_le (b.cuts .master ++ b.cuts .slave) (by simp [zero_mem_cuts]) a
    have e1 := place_between (b := b) (p := .master) hc fun x hx => hno x (by simp [hx])
    have e2 := place_between (b := b) (p := .slave) hc fun x hx => hno x (by simp [hx])
    rw [e1, e2, hf, hf] at ha
    have := h c hm
    have e : b.place .master c = b.place .slave c := by
      rcases ha with ha | ha <;> simpa [ha] using this
    rw [e1, e2, e]
  · by_cases ha : f (b.place .master c) = true ∨ f (b.place .slave c) = true
    · simp [h c ha]
    · rw [not_or, Bool.not_eq_true, Bool.not_eq_true] at ha
      simp [ha.1, ha.2]

/-- Which region is reached is the same between two cuts. -/
theorem inRegion_advance (b : Board) (r : Region) (d : Nat) (x : Option (Target × Nat)) :
    inRegion r (advance b d x) = inRegion r x := by
  rcases x with _ | ⟨t, i⟩
  · rfl
  · cases t <;> rfl

/-- Which handler is reached is the same between two cuts. -/
theorem atHandler_advance (b : Board) (t : Target) (d : Nat) (x : Option (Target × Nat)) :
    atHandler t (advance b d x) = atHandler t x := by
  rcases x with _ | ⟨t', i⟩
  · rfl
  · cases t' <;> rfl

/-- R93(b) for one region. -/
theorem mappedAlike_inRegion (b : Board) (r : Region) : b.mappedAlike (inRegion r) = true ↔
    (∃ a, inRegion r (b.place .master a) = true)
      ∧ ∀ a, inRegion r (b.place .master a) = true ∨ inRegion r (b.place .slave a) = true →
        b.place .master a = b.place .slave a :=
  mappedAlike_iff (inRegion_advance b r)

/-- R93(b) for the video registers. -/
theorem mappedAlike_atHandler (b : Board) (t : Target) : b.mappedAlike (atHandler t) = true ↔
    (∃ a, atHandler t (b.place .master a) = true)
      ∧ ∀ a, atHandler t (b.place .master a) = true ∨ atHandler t (b.place .slave a) = true →
        b.place .master a = b.place .slave a :=
  mappedAlike_iff (atHandler_advance b t)

/-- R93(a): the check says that every address of the window at `C148_BASE` reaches the C148 of its own processor. -/
theorem mapsC148_iff (b : Board) : b.mapsC148 = true ↔
    ∀ k : Gen, ∀ a, b.c148Base ≤ a → a ≤ b.c148Base + 0x3FFFF → b.place (genProc k) a = some (.c148, a - b.c148Base) := by
  have hw : ∀ p, (b.c148Base :: b.cuts p).all (fun c => !(decide (b.c148Base ≤ c) && decide (c ≤ b.c148Base + 0x3FFFF))
      || decide (b.place p c = some (.c148, c - b.c148Base))) = true ↔
      ∀ a, b.c148Base ≤ a → a ≤ b.c148Base + 0x3FFFF → b.place p a = some (.c148, a - b.c148Base) := by
    intro p
    rw [List.all_eq_true]
    refine ⟨fun h a h1 h2 => ?_, fun h c _ => ?_⟩
    · obtain ⟨c, hm, hc, hno⟩ := exists_last_le (b.c148Base :: b.cuts p) (by simp [zero_mem_cuts]) a
      have hb : b.c148Base ≤ c := by
        have := hno b.c148Base (by simp)
        omega
      have e := h c hm
      rw [decide_eq_true hb, decide_eq_true (show c ≤ b.c148Base + 0x3FFFF by omega)] at e
      have e : b.place p c = some (.c148, c - b.c148Base) := by simpa using e
      rw [place_between hc fun x hx => hno x (by simp [hx]), e]
      simp only [advance, Option.map_some]
      congr 2
      omega
    · by_cases hc : b.c148Base ≤ c ∧ c ≤ b.c148Base + 0x3FFFF
      · rw [h c hc.1 hc.2]; simp
      · rw [not_and_or] at hc; rcases hc with hc | hc <;> simp [hc]
  unfold Board.mapsC148
  simp only [List.all_cons, List.all_nil, Bool.and_true, Bool.and_eq_true] at hw ⊢
  rw [hw, hw]
  exact ⟨fun h k => by cases k; exacts [h.1, h.2], fun h => ⟨h .master, h .slave⟩⟩

end Sys2Proof.Laws
end

