-- ==== Sys2Proof/Laws/Operands.lean ====
section
/-! SUPPORT. The laws of access by name, of the lanes of a 16-bit write, and of rows of wires. -/

namespace Sys2Proof.Machine

/-! ### Access by name -/

@[simp] theorem perGen_get_set {α : Type} (x : PerGen α) (k k' : Gen) (v : α) :
    (x.set k v).get k' = if k' = k then v else x.get k' := by
  cases k <;> cases k' <;> rfl

@[simp] theorem perGen_set_get {α : Type} (x : PerGen α) (k : Gen) : x.set k (x.get k) = x := by
  cases k <;> rfl

theorem perGen_ext {α : Type} {x y : PerGen α} (h : ∀ k, x.get k = y.get k) : x = y := by
  have h1 := h .master
  have h2 := h .slave
  cases x; cases y
  simp_all [PerGen.get]

@[simp] theorem perProc_get_set {α : Type} (x : PerProc α) (p p' : Proc) (v : α) :
    (x.set p v).get p' = if p' = p then v else x.get p' := by
  cases p <;> cases p' <;> rfl

@[simp] theorem levels_get_set (x : Levels) (src src' : Source) (v : BitVec 3) :
    (x.set src v).get src' = if src' = src then v else x.get src' := by
  cases src <;> cases src' <;> rfl

theorem ownerIdx_inj {L L' : BitVec 3} (hL : L ≠ 0) (hL' : L' ≠ 0) (h : (ownerIdx L).val = (ownerIdx L').val) : L = L' := by
  have h1 : L.toNat ≠ 0 := fun e => hL (BitVec.eq_of_toNat_eq (by simpa using e))
  have h2 : L'.toNat ≠ 0 := fun e => hL' (BitVec.eq_of_toNat_eq (by simpa using e))
  apply BitVec.eq_of_toNat_eq
  simp only [ownerIdx] at h
  omega

@[simp] theorem ownerAt_setOwner (c : C148) (L L' : BitVec 3) (o : Option Source) :
    (c.setOwner L o).ownerAt L' = if L' = L ∧ L ≠ 0 then o else c.ownerAt L' := by
  unfold C148.setOwner C148.ownerAt
  by_cases hL : L = 0
  · simp [hL]
  · by_cases hL' : L' = 0
    · have hne : ¬ (L' = L ∧ L ≠ 0) := fun h => hL (h.1.symm.trans hL')
      rw [if_neg hne, if_pos hL', if_pos hL']
    · simp only [hL, hL', if_false, ne_eq, not_false_eq_true, and_true]
      by_cases h : L' = L
      · subst h; simp
      · have hne : (ownerIdx L).val ≠ (ownerIdx L').val := fun e => h (ownerIdx_inj hL hL' e).symm
        simp only [h, if_false]
        exact Vector.getElem_set_ne _ _ hne

@[simp] theorem setOwner_levels (c : C148) (L : BitVec 3) (o : Option Source) : (c.setOwner L o).levels = c.levels := by
  unfold C148.setOwner; split <;> rfl

theorem ownerAt_zero (c : C148) : c.ownerAt 0 = none := rfl

@[simp] theorem ownerAt_of_levels (c : C148) (x : Levels) (L : BitVec 3) :
    ({ c with levels := x } : C148).ownerAt L = c.ownerAt L := rfl

/-! ### Wires -/

@[simp] theorem getLsbD_setWire {n : Nat} (w : BitVec n) (i j : Nat) (v : Bool) :
    (setWire w i v).getLsbD j = if j = i then (decide (j < n) && v) else w.getLsbD j := by
  unfold setWire
  cases v
  · by_cases h : j = i
    · subst h
      simp [BitVec.getLsbD_twoPow]
    · have h' : ¬ i = j := fun e => h e.symm
      by_cases hj : j < n
      · simp [h, hj]
      · simp [h, hj, BitVec.getLsbD_of_ge w j (by omega)]
  · by_cases h : j = i
    · subst h
      by_cases hj : j < n
      · simp [hj]
      · simp [hj, BitVec.getLsbD_of_ge w j (by omega)]
    · have h' : ¬ i = j := fun e => h e.symm
      simp [BitVec.getLsbD_twoPow, h, h']

/-! ### Lanes -/

/-- The lane merge, byte by byte. -/
theorem merge_eq_laneWord (old v : Word) (m : Lanes) : merge old v m = laneWord old v m := by
  refine BitVec.eq_of_getLsbD_eq fun i hi => ?_
  unfold merge
  cases m
  · simp only [laneMask, laneWord]
    rw [BitVec.getLsbD_or, BitVec.getLsbD_and, BitVec.getLsbD_and, BitVec.getLsbD_not,
      show (0xFFFF : Word) = BitVec.allOnes 16 from rfl, BitVec.getLsbD_allOnes]
    simp [hi]
  · show _ = (v.extractLsb' 8 8 ++ old.extractLsb' 0 8).getLsbD i
    rw [BitVec.getLsbD_append, BitVec.getLsbD_extractLsb', BitVec.getLsbD_extractLsb', BitVec.getLsbD_or,
      BitVec.getLsbD_and, BitVec.getLsbD_and, BitVec.getLsbD_not]
    have hm : ∀ i < 16, (laneMask .high).getLsbD i = decide (8 ≤ i) := by decide
    rw [hm i hi]
    by_cases h : i < 8
    · simp [h, hi, show ¬ 8 ≤ i by omega]
    · simp [h, hi, show 8 ≤ i by omega, show i - 8 < 8 by omega]
  · show _ = (old.extractLsb' 8 8 ++ v.extractLsb' 0 8).getLsbD i
    rw [BitVec.getLsbD_append, BitVec.getLsbD_extractLsb', BitVec.getLsbD_extractLsb', BitVec.getLsbD_or,
      BitVec.getLsbD_and, BitVec.getLsbD_and, BitVec.getLsbD_not]
    have hm : ∀ i < 16, (laneMask .low).getLsbD i = decide (i < 8) := by decide
    rw [hm i hi]
    by_cases h : i < 8
    · simp [h, hi]
    · simp [h, hi, show i - 8 < 8 by omega, show 8 + (i - 8) = i by omega]

/-- The low `n` bits, `n` at most 8, of what a write leaves. -/
theorem setWidth_laneWord {n : Nat} (hn : n ≤ 8) (old : BitVec n) (v : Word) (m : Lanes) :
    (laneWord (old.setWidth 16) v m).setWidth n = if m = .high then old else v.extractLsb' 0 n := by
  refine BitVec.eq_of_getLsbD_eq fun i hi => ?_
  rw [BitVec.getLsbD_setWidth]
  cases m
  · simp [laneWord, hi]
  · show (decide (i < n) && (v.extractLsb' 8 8 ++ (old.setWidth 16).extractLsb' 0 8).getLsbD i) = _
    rw [BitVec.getLsbD_append, BitVec.getLsbD_extractLsb', BitVec.getLsbD_setWidth]
    simp [hi, show i < 8 by omega, show i < 16 by omega]
  · show (decide (i < n) && ((old.setWidth 16).extractLsb' 8 8 ++ v.extractLsb' 0 8).getLsbD i) = _
    rw [BitVec.getLsbD_append, BitVec.getLsbD_extractLsb']
    simp [hi, show i < 8 by omega]

/-- A level after a write (30_encoding.md R126). -/
theorem levelField_merge (old : BitVec 3) (v : Word) (m : Lanes) :
    levelField (merge (old.setWidth 16) v m) = if m = .high then old else v.extractLsb' 0 3 := by
  rw [merge_eq_laneWord]; exact setWidth_laneWord (by omega) old v m

/-- A single bit after a write (30_encoding.md R126, R127). -/
theorem bitField_merge (old : BitVec 1) (v : Word) (m : Lanes) :
    bitField (merge (old.setWidth 16) v m) = if m = .high then old else v.extractLsb' 0 1 := by
  rw [merge_eq_laneWord]; exact setWidth_laneWord (by omega) old v m

theorem priBits_le (b : Board) : priBits b ≤ 4 := by unfold priBits; cases b.priBits <;> decide

/-- A priority after a write. -/
theorem priField_toNat (b : Board) (d : Word) : (priField b d).toNat = d.toNat % 2 ^ priBits b := by
  have h := priBits_le b
  have h2 : 2 ^ priBits b ≤ 2 ^ 4 := Nat.pow_le_pow_right (by omega) h
  have h3 := Nat.mod_lt d.toNat (Nat.two_pow_pos (priBits b))
  rw [priField, BitVec.toNat_ofNat, Nat.mod_eq_of_lt (by omega)]

/-- A colour bank after a write. -/
theorem bankField_toNat (b : Board) (d : Word) : (bankField b d).toNat = d.toNat % 2 ^ b.tileBankBits := by
  have h := Nat.mod_le d.toNat (2 ^ b.tileBankBits)
  rw [bankField, BitVec.toNat_ofNat, Nat.mod_eq_of_lt (by have := d.isLt; omega)]

/-- The lane word of a byte write: only the addressed byte changes (20_memory.md R88). -/
theorem lanesAt_byteInLane (x : Nat) (v : Byte) :
    byteInLane x v = (if x % 2 = 0 then ofBytes v 0 else ofBytes 0 v)
      ∧ lanesAt x = if x % 2 = 0 then .high else .low := ⟨rfl, rfl⟩

/-! ### Layers -/

@[simp] theorem layer_setLayer (l l' : Layer) (x : TileLayer) (s : State) :
    (setLayer l x s).layer l' = if l' = l then x else s.layer l' := by
  unfold setLayer State.layer
  by_cases h : l' = l
  · subst h; simp
  · have hv : l.val ≠ l'.val := fun e => h (Fin.ext e.symm)
    simp only [h, if_false]
    exact Vector.getElem_set_ne _ _ hv

theorem setLayer_layers_ext {s t : State} (h : ∀ l, s.layer l = t.layer l) : s.layers = t.layers := by
  apply Vector.ext
  intro i hi
  exact h ⟨i, hi⟩

/-- What is read of a layer depends on the layers alone. -/
theorem layer_congr {s t : State} (h : s.layers = t.layers) (l : Layer) : s.layer l = t.layer l := by
  unfold State.layer; rw [h]

theorem dirtyAt_congr {s t : State} (h : s.layers = t.layers) (l : Layer) (i : Nat) : dirtyAt s l i = dirtyAt t l i := by
  unfold dirtyAt; rw [layer_congr h]

/-- What is read of the C148 instances depends on them alone. -/
theorem line_congr {s t : State} (h : s.c148 = t.c148) (k : Gen) (L : BitVec 3) : line s k L = line t k L := by
  unfold line; rw [h]

theorem levelOf_congr {s t : State} (h : s.c148 = t.c148) (k : Gen) (src : Source) : levelOf s k src = levelOf t k src := by
  unfold levelOf; rw [h]

/-- Which processors are held depends on the reset controls alone. -/
theorem held_congr {s t : State} (h : s.rstSound = t.rstSound) (h' : s.rstSlaveIO = t.rstSlaveIO) (p : Proc) :
    held s p = held t p := by
  cases p <;> simp only [held, h, h']

/-- The guard of DRAW_LAYER (42_tilemap.md R240). -/
theorem anyDirty_iff (s : State) (l : Layer) : anyDirty s l = true ↔ ∃ i, dirtyAt s l i = true := by
  unfold anyDirty dirtyAt
  constructor
  · intro h
    by_contra hc
    simp only [not_exists, Bool.not_eq_true] at hc
    have : (s.layer l).dirty = 0 := by
      refine BitVec.eq_of_getLsbD_eq fun i hi => ?_
      rw [hc i]
      simp
    simp [this] at h
  · rintro ⟨i, hi⟩
    simp only [ne_eq, decide_not, Bool.not_eq_true', decide_eq_false_iff_not]
    intro h
    rw [h] at hi
    simp at hi

theorem planeExists_iff (b : Board) (p : Plane) :
    planeExists b p = true ↔ p.val < (if b.rozPlanes = .two then 2 else 1) := by
  unfold planeExists
  cases b.rozPlanes <;> fin_cases p <;> simp

theorem setLayer_self (l : Layer) (s : State) : setLayer l (s.layer l) s = s := by
  unfold setLayer State.layer
  congr 1
  exact Vector.set_getElem_self _

theorem cols_pos (l : Layer) : 0 < cols l := by unfold cols; split <;> omega

theorem ntiles_pos (l : Layer) : 0 < ntiles l := by fin_cases l <;> decide

theorem ntiles_le (l : Layer) : ntiles l ≤ 4096 := by fin_cases l <;> decide

@[simp] theorem getLsbD_allDirty (l : Layer) (t : Nat) : (allDirty l).getLsbD t = decide (t < ntiles l) := by
  have h := ntiles_le l
  unfold allDirty
  rw [BitVec.getLsbD_ushiftRight, BitVec.getLsbD_allOnes]
  by_cases ht : t < ntiles l
  · simp only [ht, decide_true, decide_eq_true_eq]; omega
  · simp only [ht, decide_false, decide_eq_false_iff_not]; omega

@[simp] theorem dirtyAt_setLayer (l l' : Layer) (x : TileLayer) (s : State) (t : Nat) :
    dirtyAt (setLayer l x s) l' t = if l' = l then x.dirty.getLsbD t else dirtyAt s l' t := by
  unfold dirtyAt
  rw [layer_setLayer]
  split <;> rfl

theorem dirtyAt_markDirty (l l' : Layer) {t : Nat} (ht : t < 4096) (i : Nat) (s : State) :
    dirtyAt (markDirty l t s) l' i = (dirtyAt s l' i || decide (l' = l ∧ i = t)) := by
  unfold markDirty markTile
  rw [dirtyAt_setLayer]
  by_cases hl : l' = l
  · subst hl
    by_cases hi : i = t
    · subst hi; simp [ht]
    · simp [hi, dirtyAt]
  · simp [hl]

end Sys2Proof.Machine
end

