-- ==== Sys2Proof/Laws/C148.lean ====
section
/-! SUPPORT. What the C148's shared operations do, said once for each: the owners, the levels, the pins, the outputs and
everything left alone. -/

namespace Sys2Proof.Machine

theorem line_eq_isSome (s : State) (k : Gen) (L : BitVec 3) : line s k L = (ownerOf s k L).isSome := rfl

theorem ownerOf_zero (s : State) (k : Gen) : ownerOf s k 0 = none := rfl

/-! ### setOwner and driveIrq -/

theorem ownerOf_setOwner (k k' : Gen) (L L' : BitVec 3) (o : Option Source) (s : State) :
    ownerOf (setOwner k L o s) k' L' = if k' = k ∧ L' = L ∧ L ≠ 0 then o else ownerOf s k' L' := by
  unfold ownerOf setOwner
  simp only [perGen_get_set]
  by_cases hk : k' = k
  · subst hk; simp
  · simp [hk]

theorem levelOf_setOwner (k k' : Gen) (L : BitVec 3) (o : Option Source) (src : Source) (s : State) :
    levelOf (setOwner k L o s) k' src = levelOf s k' src := by
  unfold levelOf setOwner
  simp only [perGen_get_set]
  by_cases hk : k' = k
  · subst hk; simp
  · simp [hk]

theorem irqPinAt_driveIrq (k k' : Gen) (L L' : BitVec 3) (v : Bool) (s : State) :
    irqPinAt (driveIrq k L v s) k' L' = if k' = k ∧ L' = L then v else irqPinAt s k' L' := by
  unfold irqPinAt driveIrq
  simp only [perGen_get_set]
  by_cases hk : k' = k
  · subst hk
    have h8 : L.toNat < 8 := L.isLt
    by_cases hL : L' = L
    · subst hL
      simp only [if_true, and_self]
      rw [getLsbD_setWire, if_pos rfl]
      simp [h8]
    · have hn : ¬ L'.toNat = L.toNat := fun e => hL (BitVec.eq_of_toNat_eq e)
      simp [hL, hn]
  · simp [hk]

/-! ### raise and acknowledge -/

section Raise

variable (k : Gen) (src : Source) (s : State)

theorem ownerOf_raiseIrq (k' : Gen) (L : BitVec 3) : ownerOf (raiseIrq k src s) k' L
    = if k' = k ∧ L = levelOf s k src ∧ L ≠ 0 then some src else ownerOf s k' L := by
  unfold raiseIrq
  by_cases h : levelOf s k src = 0
  · have hne : ¬ (k' = k ∧ L = levelOf s k src ∧ L ≠ 0) := fun e => e.2.2 (e.2.1.trans h)
    simp only [h, if_true]
    rw [h] at hne
    rw [if_neg hne]
  · simp only [h, if_false]
    change ownerOf (setOwner k (levelOf s k src) (some src) s) k' L = _
    rw [ownerOf_setOwner]
    by_cases hk : k' = k ∧ L = levelOf s k src
    · rw [if_pos ⟨hk.1, hk.2, h⟩, if_pos ⟨hk.1, hk.2, hk.2 ▸ h⟩]
    · rw [if_neg (fun e => hk ⟨e.1, e.2.1⟩), if_neg (fun e => hk ⟨e.1, e.2.1⟩)]

theorem levelOf_raiseIrq (k' : Gen) (src' : Source) : levelOf (raiseIrq k src s) k' src' = levelOf s k' src' := by
  unfold raiseIrq
  simp only
  split
  · rfl
  · exact levelOf_setOwner k k' _ _ src' s

theorem irqPinAt_raiseIrq (k' : Gen) (L : BitVec 3) : irqPinAt (raiseIrq k src s) k' L
    = if k' = k ∧ L = levelOf s k src ∧ L ≠ 0 then true else irqPinAt s k' L := by
  unfold raiseIrq
  by_cases h : levelOf s k src = 0
  · have hne : ¬ (k' = k ∧ L = levelOf s k src ∧ L ≠ 0) := fun e => e.2.2 (e.2.1.trans h)
    simp only [h, if_true]
    rw [h] at hne
    rw [if_neg hne]
  · simp only [h, if_false]
    rw [irqPinAt_driveIrq]
    by_cases hk : k' = k ∧ L = levelOf s k src
    · rw [if_pos hk, if_pos ⟨hk.1, hk.2, hk.2 ▸ h⟩]
    · rw [if_neg hk, if_neg (fun e => hk ⟨e.1, e.2.1⟩)]; rfl

theorem raiseIrq_out : (raiseIrq k src s).out
    = s.out ++ (if levelOf s k src = 0 then [] else [.irqLine k (levelOf s k src) true]) := by
  unfold raiseIrq
  by_cases h : levelOf s k src = 0#3 <;> simp [h, driveIrq, setOwner]

theorem raiseIrq_frame : { raiseIrq k src s with c148 := s.c148, irqPin := s.irqPin, out := s.out } = s := by
  unfold raiseIrq
  simp only
  split <;> rfl

/-- All that a raise changes. -/
theorem raiseIrq_eq : raiseIrq k src s = { s with
    c148 := (raiseIrq k src s).c148
    irqPin := (raiseIrq k src s).irqPin
    out := (raiseIrq k src s).out } := by
  unfold raiseIrq
  simp only
  split <;> rfl

theorem ownerOf_acknowledge (k' : Gen) (L : BitVec 3) : ownerOf (acknowledge k src s) k' L
    = if k' = k ∧ L = levelOf s k src ∧ L ≠ 0 then none else ownerOf s k' L := by
  unfold acknowledge
  by_cases h : levelOf s k src = 0
  · have hne : ¬ (k' = k ∧ L = levelOf s k src ∧ L ≠ 0) := fun e => e.2.2 (e.2.1.trans h)
    simp only [h, if_true]
    rw [h] at hne
    rw [if_neg hne]
  · simp only [h, if_false]
    change ownerOf (setOwner k (levelOf s k src) none s) k' L = _
    rw [ownerOf_setOwner]
    by_cases hk : k' = k ∧ L = levelOf s k src
    · rw [if_pos ⟨hk.1, hk.2, h⟩, if_pos ⟨hk.1, hk.2, hk.2 ▸ h⟩]
    · rw [if_neg (fun e => hk ⟨e.1, e.2.1⟩), if_neg (fun e => hk ⟨e.1, e.2.1⟩)]

theorem levelOf_acknowledge (k' : Gen) (src' : Source) : levelOf (acknowledge k src s) k' src' = levelOf s k' src' := by
  unfold acknowledge
  simp only
  split
  · rfl
  · exact levelOf_setOwner k k' _ _ src' s

theorem irqPinAt_acknowledge (k' : Gen) (L : BitVec 3) : irqPinAt (acknowledge k src s) k' L
    = if k' = k ∧ L = levelOf s k src ∧ L ≠ 0 then false else irqPinAt s k' L := by
  unfold acknowledge
  by_cases h : levelOf s k src = 0
  · have hne : ¬ (k' = k ∧ L = levelOf s k src ∧ L ≠ 0) := fun e => e.2.2 (e.2.1.trans h)
    simp only [h, if_true]
    rw [h] at hne
    rw [if_neg hne]
  · simp only [h, if_false]
    rw [irqPinAt_driveIrq]
    by_cases hk : k' = k ∧ L = levelOf s k src
    · rw [if_pos hk, if_pos ⟨hk.1, hk.2, hk.2 ▸ h⟩]
    · rw [if_neg hk, if_neg (fun e => hk ⟨e.1, e.2.1⟩)]; rfl

theorem acknowledge_out : (acknowledge k src s).out
    = s.out ++ (if levelOf s k src = 0 then [] else [.irqLine k (levelOf s k src) false]) := by
  unfold acknowledge
  by_cases h : levelOf s k src = 0#3 <;> simp [h, driveIrq, setOwner]

theorem acknowledge_frame : { acknowledge k src s with c148 := s.c148, irqPin := s.irqPin, out := s.out } = s := by
  unfold acknowledge
  simp only
  split <;> rfl

/-- All that an acknowledge changes. -/
theorem acknowledge_eq : acknowledge k src s = { s with
    c148 := (acknowledge k src s).c148
    irqPin := (acknowledge k src s).irqPin
    out := (acknowledge k src s).out } := by
  unfold acknowledge
  simp only
  split <;> rfl

end Raise

theorem line_raiseIrq (k : Gen) (src : Source) (s : State) (k' : Gen) (L : BitVec 3) : line (raiseIrq k src s) k' L
    = if k' = k ∧ L = levelOf s k src ∧ L ≠ 0 then true else line s k' L := by
  rw [line_eq_isSome, ownerOf_raiseIrq]; split <;> rfl

theorem line_acknowledge (k : Gen) (src : Source) (s : State) (k' : Gen) (L : BitVec 3) :
    line (acknowledge k src s) k' L = if k' = k ∧ L = levelOf s k src ∧ L ≠ 0 then false else line s k' L := by
  rw [line_eq_isSome, ownerOf_acknowledge]; split <;> rfl

/-! ### The operations of one shape -/

theorem exec_raiseOp (k : Gen) (src : Source) (s : State) : exec (raiseOp k src) s = .next (raiseIrq k src s) := by
  cases src <;> rfl

theorem exec_ackOp (k : Gen) (src : Source) (s : State) :
    exec (ackOp k src) s = .next (ackWrite Config.board k src s) := by
  cases src <;> rfl

theorem exec_ackReadOp (k : Gen) (src : Source) (s : State) : exec (ackReadOp k src) s
    = .next (return16 (genProc k) Config.board.openBus16 (ackRead Config.board k src s)) := by
  cases src <;> rfl

theorem exec_lvlWrOp (k : Gen) (src : Source) (v : Word) (m : Lanes) (s : State) :
    exec (lvlWrOp k src v m) s = .next (levelWrite k src v m s) := by
  cases src <;> rfl

theorem exec_lvlRdOp (k : Gen) (src : Source) (s : State) :
    exec (lvlRdOp k src) s = .next (return16 (genProc k) (levelRead k src s) s) := by
  cases src <;> rfl

/-! ### Levels -/

theorem levelOf_levelWrite (k k' : Gen) (src src' : Source) (v : Word) (m : Lanes) (s : State) :
    levelOf (levelWrite k src v m s) k' src' = if k' = k ∧ src' = src then
      (if m = .high then levelOf s k src else v.extractLsb' 0 3) else levelOf s k' src' := by
  unfold levelOf levelWrite
  simp only [perGen_get_set, levelField_merge]
  by_cases hk : k' = k
  · subst hk; simp
  · simp [hk]

theorem ownerOf_levelWrite (k k' : Gen) (src : Source) (v : Word) (m : Lanes) (L : BitVec 3) (s : State) :
    ownerOf (levelWrite k src v m s) k' L = ownerOf s k' L := by
  unfold ownerOf levelWrite
  simp only [perGen_get_set]
  by_cases hk : k' = k
  · subst hk; simp
  · simp [hk]

/-! ### Reset controls -/

theorem bit_cases (x : BitVec 1) : x = 0 ∨ x = 1 := by
  have h : ∀ x : BitVec 1, x = 0 ∨ x = 1 := by decide
  exact h x

/-- RSTSND_WR where it acts. -/
theorem rstSoundWrite_spec (b : Board) (k : Gen) (v : Word) (m : Lanes) (s : State) (n : BitVec 1)
    (hn : n = if m = .high then s.rstSound else v.extractLsb' 0 1) :
    rstSoundWrite b k v m s = if resetCtrlActive b k then
      { s with
        rstSound := n
        rstPin := { s.rstPin with sound := decide (n = 0) }
        turnOver := s.turnOver || decide (n = 1 ∧ s.rstSound = 0)
        out := s.out ++ .resetLine .sound (decide (n = 0)) :: (if n = 1 ∧ s.rstSound = 0 then [.yield k] else []) }
      else s := by
  unfold rstSoundWrite
  split
  · simp only [bitField_merge, ← hn]
    obtain rfl | rfl := bit_cases n
    · simp [driveReset, PerProc.set]
    · by_cases h : s.rstSound = 0#1 <;> simp [h, driveReset, yieldTurn, PerProc.set]
  · rfl

/-- RSTSLV_WR where it acts. -/
theorem rstSlaveWrite_spec (b : Board) (k : Gen) (v : Word) (m : Lanes) (s : State) (n : BitVec 1)
    (hn : n = if m = .high then s.rstSlaveIO else v.extractLsb' 0 1) :
    rstSlaveWrite b k v m s = if resetCtrlActive b k then
      { s with
        rstSlaveIO := n
        rstPin := { s.rstPin with slave := decide (n = 0), io := decide (n = 0) }
        turnOver := s.turnOver || decide (n = 1 ∧ s.rstSlaveIO = 0)
        out := s.out ++ .resetLine .slave (decide (n = 0)) :: .resetLine .io (decide (n = 0))
          :: (if n = 1 ∧ s.rstSlaveIO = 0 then [.yield k] else []) }
      else s := by
  unfold rstSlaveWrite
  split
  · simp only [bitField_merge, ← hn]
    obtain rfl | rfl := bit_cases n
    · simp [driveReset, PerProc.set]
    · by_cases h : s.rstSlaveIO = 0#1 <;> simp [h, driveReset, yieldTurn, PerProc.set]
  · rfl

theorem resetCtrlActive_eq (b : Board) (k : Gen) :
    resetCtrlActive b k = !decide (k = .slave ∧ b.resetCtrlOnSlave = false) := by
  unfold resetCtrlActive
  cases k <;> cases b.resetCtrlOnSlave <;> rfl

end Sys2Proof.Machine
end

