-- ==== Sys2Proof/Laws/Memory.lean ====
section
/-! SUPPORT. The laws of the store: a read after a write, and the canonical form that every write keeps. -/

namespace Sys2Proof.Machine

/-! ### The cell list -/

theorem memFind_memErase (m : List Host.Cell) (n n' : Nat) :
    memFind (memErase m n) n' = if n' = n then none else memFind m n' := by
  induction m with
  | nil => simp [memErase, memFind]
  | cons c m ih =>
    by_cases hc : c.1 = n
    · simp only [memErase, hc, if_true, ih, memFind]
      by_cases hn : n' = n
      · simp [hn]
      · simp [hn, Ne.symm hn]
    · simp only [memErase, hc, if_false, memFind, ih]
      by_cases hn : n' = n
      · subst hn; simp [hc]
      · simp [hn]

theorem memFind_memPut (m : List Host.Cell) (n n' : Nat) (v : Byte) :
    memFind (memPut m n v) n' = if n' = n then some v else memFind m n' := by
  induction m with
  | nil => by_cases h : n = n' <;> simp [memPut, memFind, h, eq_comm]
  | cons c m ih =>
    by_cases h1 : n < c.1
    · by_cases h : n' = n
      · simp [memPut, h1, memFind, h]
      · simp [memPut, h1, memFind, h, Ne.symm h]
    · by_cases h2 : c.1 = n
      · by_cases h : n' = n
        · simp [memPut, h2, memFind, h]
        · have h' : ¬ n = n' := fun e => h e.symm
          simp [memPut, h2, memFind, h, h']
      · simp only [memPut, h1, h2, if_false, memFind, ih]
        by_cases h : n' = n
        · subst h; simp [h2]
        · simp [h]

/-- A read after a write: the value written at its key, what was there elsewhere. -/
theorem memRead_memWrite (init : Nat → Byte) (m : List Host.Cell) (n n' : Nat) (v : Byte) :
    memRead init (memWrite init m n v) n' = if n' = n then v else memRead init m n' := by
  unfold memRead memWrite
  by_cases hv : v = init n
  · simp only [hv, if_true, memFind_memErase]
    by_cases h : n' = n <;> simp [h]
  · simp only [hv, if_false, memFind_memPut]
    by_cases h : n' = n <;> simp [h]

/-! ### The canonical form -/

theorem memAbove_trans {a b : Nat} {m : List Host.Cell} (hab : a < b) (h : memAbove b m = true) :
    memAbove a m = true := by
  induction m with
  | nil => rfl
  | cons c m ih =>
    simp only [memAbove, Bool.and_eq_true, decide_eq_true_eq] at h ⊢
    exact ⟨by omega, ih h.2⟩

theorem memAbove_memErase {a : Nat} {m : List Host.Cell} (n : Nat) (h : memAbove a m = true) :
    memAbove a (memErase m n) = true := by
  induction m with
  | nil => rfl
  | cons c m ih =>
    simp only [memAbove, Bool.and_eq_true, decide_eq_true_eq] at h
    by_cases hc : c.1 = n
    · simp only [memErase, hc, if_true]; exact ih h.2
    · simp only [memErase, hc, if_false, memAbove, Bool.and_eq_true, decide_eq_true_eq]; exact ⟨h.1, ih h.2⟩

theorem memAbove_memPut {a n : Nat} {v : Byte} {m : List Host.Cell} (hn : a < n) (h : memAbove a m = true) :
    memAbove a (memPut m n v) = true := by
  induction m with
  | nil => simp [memPut, memAbove, hn]
  | cons c m ih =>
    simp only [memAbove, Bool.and_eq_true, decide_eq_true_eq] at h
    simp only [memPut]
    split
    · simp [memAbove, hn, h]
    · split
      · simp [memAbove, hn, h]
      · simp [memAbove, h, ih]

theorem memory_wf_memErase {init : Nat → Byte} {m : List Host.Cell} (n : Nat) (h : Memory.wf init m = true) :
    Memory.wf init (memErase m n) = true := by
  induction m with
  | nil => rfl
  | cons c m ih =>
    simp only [Memory.wf, Bool.and_eq_true] at h
    by_cases hc : c.1 = n
    · simp only [memErase, hc, if_true]; exact ih h.2
    · simp only [memErase, hc, if_false, Memory.wf, Bool.and_eq_true]
      exact ⟨⟨memAbove_memErase n h.1.1, h.1.2⟩, ih h.2⟩

theorem memory_wf_memPut {init : Nat → Byte} {m : List Host.Cell} {n : Nat} {v : Byte} (hv : v ≠ init n)
    (h : Memory.wf init m = true) : Memory.wf init (memPut m n v) = true := by
  induction m with
  | nil => simp [memPut, Memory.wf, memAbove, hv]
  | cons c m ih =>
    simp only [Memory.wf, Bool.and_eq_true, decide_eq_true_eq] at h
    simp only [memPut]
    split
    · rename_i hlt
      simp [Memory.wf, memAbove, hv, hlt, h, memAbove_trans hlt h.1.1]
    · split
      · rename_i heq
        simp only [Memory.wf, Bool.and_eq_true, decide_eq_true_eq]
        exact ⟨⟨heq ▸ h.1.1, hv⟩, h.2⟩
      · rename_i hlt hne
        simp only [Memory.wf, Bool.and_eq_true, decide_eq_true_eq]
        exact ⟨⟨memAbove_memPut (by omega) h.1.1, h.1.2⟩, ih h.2⟩

/-- Every write keeps the canonical form. -/
theorem memory_wf_memWrite {init : Nat → Byte} {m : List Host.Cell} (n : Nat) (v : Byte)
    (h : Memory.wf init m = true) : Memory.wf init (memWrite init m n v) = true := by
  unfold memWrite
  split
  · exact memory_wf_memErase n h
  · rename_i hv; exact memory_wf_memPut hv h

/-- The empty store has the canonical form. -/
@[simp] theorem memory_wf_nil (init : Nat → Byte) : Memory.wf init [] = true := rfl

/-! ### Keys, bytes and words -/

theorem bankNo_lt (k : Bank) : bankNo k < 16 := by
  rcases k with r | l
  · cases r <;> simp only [bankNo] <;> omega
  · have := l.isLt; simp only [bankNo]; omega

theorem bankOf_bankNo (k : Bank) : bankOf (bankNo k) = k := by
  rcases k with r | l
  · rcases r with _ | _ | _ | p | _ | _ | _ <;> try rfl
    fin_cases p <;> rfl
  · fin_cases l <;> rfl

theorem bankNo_inj {k k' : Bank} (h : bankNo k = bankNo k') : k = k' := by
  rw [← bankOf_bankNo k, h, bankOf_bankNo]

/-- Different bytes have different keys. -/
theorem key_inj {k k' : Bank} {o o' : Nat} : key k o = key k' o' ↔ k = k' ∧ o = o' := by
  have h1 := bankNo_lt k
  have h2 := bankNo_lt k'
  constructor
  · intro h
    unfold key at h
    have hb : bankNo k = bankNo k' := by omega
    exact ⟨bankNo_inj hb, by omega⟩
  · rintro ⟨rfl, rfl⟩; rfl

/-- A byte read after a byte write. -/
@[simp] theorem readByte_writeByte (b : Board) (s : State) (k k' : Bank) (o o' : Nat) (v : Byte) :
    readByte b (writeByte b k o v s) k' o' = if k' = k ∧ o' = o then v else readByte b s k' o' := by
  simp only [readByte, writeByte, memRead_memWrite, key_inj]

@[simp] theorem hiByte_ofBytes (hi lo : Byte) : hiByte (ofBytes hi lo) = hi := by
  refine BitVec.eq_of_getLsbD_eq fun i hi' => ?_
  change (BitVec.extractLsb' 8 8 (hi ++ lo)).getLsbD i = _
  rw [BitVec.getLsbD_extractLsb', BitVec.getLsbD_append]
  simp [show ¬ 8 + i < 8 by omega, hi']

@[simp] theorem loByte_ofBytes (hi lo : Byte) : loByte (ofBytes hi lo) = lo := by
  refine BitVec.eq_of_getLsbD_eq fun i hi' => ?_
  change (BitVec.extractLsb' 0 8 (hi ++ lo)).getLsbD i = _
  rw [BitVec.getLsbD_extractLsb', BitVec.getLsbD_append]
  simp [hi']

@[simp] theorem ofBytes_hiByte_loByte (w : Word) : ofBytes (hiByte w) (loByte w) = w := by
  refine BitVec.eq_of_getLsbD_eq fun i hi' => ?_
  change (BitVec.extractLsb' 8 8 w ++ BitVec.extractLsb' 0 8 w).getLsbD i = _
  rw [BitVec.getLsbD_append, BitVec.getLsbD_extractLsb', BitVec.getLsbD_extractLsb']
  by_cases h : i < 8
  · simp [h]
  · simp [h, show i - 8 < 8 by omega, show 8 + (i - 8) = i by omega]

/-- A tile word read after a tile word write. -/
theorem tileWord_setTileWord (b : Board) (s : State) (l l' : Layer) (t t' : Nat) (w : Word) :
    tileWord b (setTileWord b l t w s) l' t' = if l' = l ∧ t' = t then w else tileWord b s l' t' := by
  unfold tileWord setTileWord
  simp only [readByte_writeByte, Bank.tiles.injEq]
  by_cases h : l' = l ∧ t' = t
  · obtain ⟨rfl, rfl⟩ := h; simp
  · have e2 : ¬ (l' = l ∧ 2 * t' = 2 * t + 1) := fun e => by omega
    have e3 : ¬ (l' = l ∧ 2 * t' + 1 = 2 * t) := fun e => by omega
    simp [h, e2, e3]

end Sys2Proof.Machine
end

