-- ==== Sys2Proof/Laws/Video.lean ====
section
/-! SUPPORT. The tables, the layers, rendering and drawing: what each shared operation of the video block does. -/

namespace Sys2Proof.Machine

/-! ### Tables -/

@[simp] theorem tab_length {α : Type} (n : Nat) (f : Nat → α) : (tab n f).length = n := by simp [tab]

theorem tab_getD {α : Type} (n : Nat) (f : Nat → α) (d : α) {i : Nat} (h : i < n) : (tab n f).getD i d = f i := by
  simp [tab, List.getD, h]

theorem tab_congr {α : Type} {n : Nat} {f g : Nat → α} (h : ∀ i, i < n → f i = g i) : tab n f = tab n g := by
  unfold tab
  exact List.map_congr_left fun i hi => h i (List.mem_range.mp hi)

theorem gridAt_grid {α : Type} (d : α) {w h x y : Nat} (f : Nat → Nat → α) (hx : x < w) (hy : y < h) :
    gridAt d (grid w h f) x y = f x y := by
  unfold gridAt grid
  rw [tab_getD _ _ _ hy, tab_getD _ _ _ hx]

theorem grid_length {α : Type} (w h : Nat) (f : Nat → Nat → α) : (grid w h f).length = h := tab_length _ _

theorem grid_row_length {α : Type} {w h : Nat} {f : Nat → Nat → α} {row : List α} (hr : row ∈ grid w h f) :
    row.length = w := by
  unfold grid tab at hr
  obtain ⟨y, _, rfl⟩ := List.mem_map.mp hr
  exact tab_length _ _

/-- Drawing over a frame writes the pixels that are not transparent. -/
theorem gridAt_overlay (f : Nat → Nat → Px) (g : List (List Pen)) {x y : Nat} (hx : x < 288) (hy : y < 224) :
    gridAt 0 (overlay f g) x y = (f x y).getD (gridAt 0 g x y) := gridAt_grid 0 _ hx hy

/-! ### Places of bytes in the store -/

/-- A byte of a region after a byte of a region is written. -/
theorem readByte_regionWrite (b : Board) (r : Region) (o : Nat) (v : Byte) (s : State) (k : Bank) (o' : Nat) :
    readByte b (regionWrite b r o v s) k o' = if (k, o') = regionPlace b r o then v else readByte b s k o' := by
  have h : (regionWrite b r o v s).mem = (writeByte b (regionPlace b r o).1 (regionPlace b r o).2 v s).mem := by
    unfold regionWrite
    simp only
    split <;> rfl
  have h2 : readByte b (regionWrite b r o v s) k o'
      = readByte b (writeByte b (regionPlace b r o).1 (regionPlace b r o).2 v s) k o' := by
    unfold readByte; rw [h]
  rw [h2, readByte_writeByte]
  by_cases e : k = (regionPlace b r o).1 ∧ o' = (regionPlace b r o).2
  · rw [if_pos e, if_pos (Prod.ext e.1 e.2)]
  · rw [if_neg e, if_neg (fun h => e ⟨congrArg Prod.fst h, congrArg Prod.snd h⟩)]

/-- The place of a byte among the tile words is a byte of a tile of the layer. -/
theorem regionPlace_tiles {b : Board} {r : Region} {o : Nat} {l : Layer} (h : (regionPlace b r o).1 = .tiles l) :
    (regionPlace b r o).2 / 2 < ntiles l := by
  unfold regionPlace at h ⊢
  cases r <;> simp only at h ⊢ <;> try cases h
  cases hv : b.vramTile (o / 2) with
  | none => rw [hv] at h; cases h
  | some p =>
    obtain ⟨l', t⟩ := p
    rw [hv] at h
    simp only [Bank.tiles.injEq] at h ⊢
    subst h
    have := Nat.mod_lt t.toNat (ntiles_pos l')
    omega

theorem dirtyAt_regionWrite (b : Board) (r : Region) (o : Nat) (v : Byte) (s : State) (l : Layer) (n : Nat) :
    dirtyAt (regionWrite b r o v s) l n = (dirtyAt s l n
      || decide ((regionPlace b r o).1 = .tiles l ∧ (regionPlace b r o).2 / 2 = n)) := by
  unfold regionWrite
  simp only
  split
  · rename_i l' hl
    have hlt := regionPlace_tiles hl
    have hle := ntiles_le l'
    rw [dirtyAt_markDirty _ _ (by omega), hl]
    change (dirtyAt s l n || _) = _
    congr 1
    by_cases h : l = l'
    · subst h; simp [eq_comm]
    · simp [h, Ne.symm h]
  · rename_i r' hr
    rw [hr]
    simp
    rfl

theorem regionWrite_frame (b : Board) (r : Region) (o : Nat) (v : Byte) (s : State) :
    { regionWrite b r o v s with mem := s.mem, layers := s.layers } = s := by
  unfold regionWrite
  simp only
  split <;> rfl

/-- All that a region write changes. -/
theorem regionWrite_eq (b : Board) (r : Region) (o : Nat) (v : Byte) (s : State) : regionWrite b r o v s = { s with
    mem := (regionWrite b r o v s).mem
    layers := (regionWrite b r o v s).layers } := by
  unfold regionWrite
  simp only
  split <;> rfl

theorem markDirty_layer (l l' : Layer) (t : Nat) (s : State) :
    { (markDirty l t s).layer l' with dirty := (s.layer l').dirty } = s.layer l' := by
  unfold markDirty
  rw [layer_setLayer]
  split
  · rename_i h; subst h; rfl
  · rfl

theorem regionWrite_layer (b : Board) (r : Region) (o : Nat) (v : Byte) (s : State) (l : Layer) :
    { (regionWrite b r o v s).layer l with dirty := (s.layer l).dirty } = s.layer l := by
  unfold regionWrite
  simp only
  split
  · exact markDirty_layer _ _ _ _
  · rfl

/-! ### Tiles -/

theorem tileWord_congr {b : Board} {s t : State} (h : s.mem = t.mem) (l : Layer) (i : Nat) :
    tileWord b s l i = tileWord b t l i := by
  unfold tileWord readByte; rw [h]

theorem regionRead_congr {b : Board} {s t : State} (h : s.mem = t.mem) (r : Region) (o : Nat) :
    regionRead b s r o = regionRead b t r o := by
  unfold regionRead readByte; rw [h]

/-- Marking a tile dirty leaves every tile word. -/
theorem tileWord_markDirty (b : Board) (l l' : Layer) (t i : Nat) (s : State) :
    tileWord b (markDirty l t s) l' i = tileWord b s l' i := by
  have h : (markDirty l t s).mem = s.mem := rfl
  exact tileWord_congr h l' i

/-- What is read of the tile caches depends on the layers alone. -/
theorem cacheTile_congr {s t : State} (h : s.layers = t.layers) (l : Layer) (i : Nat) :
    cacheTile s l i = cacheTile t l i := by
  unfold cacheTile; rw [layer_congr h]

/-- The pixels of a decoded tile, from its list. -/
theorem decodeTile_getD (b : Board) (word bank : Word) (f : BitVec 1) {px py : Nat} (hx : px < 8) (hy : py < 8) :
    (decodeTile b word bank f).getD (py * 8 + px) none = decodePixel b word bank f px py := by
  unfold decodeTile
  rw [tab_getD _ _ _ (by omega), show (py * 8 + px) % 8 = px by omega, show (py * 8 + px) / 8 = py by omega]

theorem renderTiles_layer (b : Board) (l l' : Layer) (s : State) : (renderTiles b l s).layer l' = if l' = l then
    { s.layer l with
      cache := tab (ntiles l) fun t =>
        if dirtyAt s l t then decodeTile b (tileWord b s l t) (s.layer l).colorBank s.flip else cacheTile s l t
      dirty := 0 } else s.layer l' := by
  unfold renderTiles
  rw [layer_setLayer]

theorem renderTiles_frame (b : Board) (l : Layer) (s : State) : { renderTiles b l s with layers := s.layers } = s := rfl

theorem cacheTile_renderTiles (b : Board) (l : Layer) (s : State) {t : Nat} (ht : t < ntiles l) :
    cacheTile (renderTiles b l s) l t = if dirtyAt s l t then
      decodeTile b (tileWord b s l t) (s.layer l).colorBank s.flip else cacheTile s l t := by
  unfold cacheTile
  rw [renderTiles_layer, if_pos rfl]
  exact tab_getD _ _ _ ht

theorem dirtyAt_renderTiles (b : Board) (l l' : Layer) (s : State) (t : Nat) :
    dirtyAt (renderTiles b l s) l' t = if l' = l then false else dirtyAt s l' t := by
  unfold dirtyAt
  rw [renderTiles_layer]
  split
  · simp
  · rfl

/-- The tile that a layer reads for a pixel is one of its tiles. -/
theorem tileIndexAt_lt (b : Board) (s : State) (l : Layer) (ux uy : Nat) : tileIndexAt b s l ux uy < ntiles l := by
  unfold tileIndexAt
  have hx : layerX b s l ux < layerW l := by
    unfold layerX
    have h0 : (0 : Int) < (layerW l : Int) := by unfold layerW; have := cols_pos l; omega
    have := Int.emod_lt_of_pos ((ux : Int) + b.layerOriginX l + (s.layer l).scrollX.toNat) h0
    have := Int.emod_nonneg ((ux : Int) + b.layerOriginX l + (s.layer l).scrollX.toNat) (by omega : (layerW l : Int) ≠ 0)
    omega
  have hy : layerY b s l uy < layerH l := by
    unfold layerY
    have h0 : (0 : Int) < (layerH l : Int) := by unfold layerH rows; split <;> omega
    have := Int.emod_lt_of_pos ((uy : Int) + b.layerOriginY l + (s.layer l).scrollY.toNat) h0
    have := Int.emod_nonneg ((uy : Int) + b.layerOriginY l + (s.layer l).scrollY.toNat) (by omega : (layerH l : Int) ≠ 0)
    omega
  have hx' : layerX b s l ux / 8 < cols l := by unfold layerW at hx; omega
  have hy' : layerY b s l uy / 8 < rows l := by unfold layerH at hy; omega
  unfold ntiles
  calc layerY b s l uy / 8 * cols l + layerX b s l ux / 8
      < layerY b s l uy / 8 * cols l + cols l := by omega
    _ = (layerY b s l uy / 8 + 1) * cols l := by rw [Nat.add_mul, Nat.one_mul]
    _ ≤ rows l * cols l := Nat.mul_le_mul_right _ hy'
    _ = cols l * rows l := Nat.mul_comm _ _

/-- Where the cache is coherent and the layer clean, its pixel is that of its tile words, whatever the flip. -/
theorem layerPixel_eq_tilePixel {b : Board} {s : State} {l : Layer} {ux uy : Nat}
    (h : cacheTile s l (tileIndexAt b s l ux uy)
      = decodeTile b (tileWord b s l (tileIndexAt b s l ux uy)) (s.layer l).colorBank s.flip) :
    layerPixel b s l ux uy = tilePixel b s l ux uy := by
  unfold layerPixel
  simp only
  rw [h]
  have hx : layerX b s l ux % 8 < 8 := Nat.mod_lt _ (by omega)
  have hy : layerY b s l uy % 8 < 8 := Nat.mod_lt _ (by omega)
  by_cases hf : s.flip = 1
  · simp only [hf, if_true]
    rw [decodeTile_getD _ _ _ _ (by omega) (by omega)]
    unfold decodePixel
    simp only [if_true, show 7 - (7 - layerX b s l ux % 8) = layerX b s l ux % 8 by omega,
      show 7 - (7 - layerY b s l uy % 8) = layerY b s l uy % 8 by omega]
    unfold tilePixel palIndex
    simp only [Nat.zero_add]
    rfl
  · simp only [hf, if_false]
    rw [decodeTile_getD _ _ _ _ hx hy]
    unfold decodePixel
    simp only [hf, if_false]
    unfold tilePixel palIndex
    simp only [Nat.zero_add]
    rfl

/-! ### The draws -/

theorem drawTiles_onlyFb (b : Board) (l : Layer) (s : State) : { drawTiles b l s with fb := s.fb } = s := rfl

theorem drawRozPlane_frame (b : Board) (p : Plane) (s : State) : { drawRozPlane b p s with fb := s.fb } = s := by
  unfold drawRozPlane; split <;> rfl

theorem drawSpritesAt_onlyFb (b : Board) (v : Nat) (s : State) : { drawSpritesAt b v s with fb := s.fb } = s := rfl

theorem fbAt_drawTiles (b : Board) (l : Layer) (s : State) {x y : Nat} (hx : x < 288) (hy : y < 224) :
    fbAt (drawTiles b l s) x y = (layerPixel b s l x y).getD (fbAt s x y) := gridAt_overlay _ _ hx hy

theorem rozPixel_absent {b : Board} {p : Plane} (h : b.rozPresent p = false) (s : State) (x y : Nat) :
    rozPixel b s p x y = none := by
  unfold rozPixel; rw [h]; rfl

theorem fbAt_drawRozPlane (b : Board) (p : Plane) (s : State) {x y : Nat} (hx : x < 288) (hy : y < 224) :
    fbAt (drawRozPlane b p s) x y = (rozPixel b s p x y).getD (fbAt s x y) := by
  unfold drawRozPlane
  split
  · exact gridAt_overlay _ _ hx hy
  · rename_i h
    rw [rozPixel_absent (by simpa using h)]; rfl

/-- The last of a list of pixel sources that shows something, over what was there. -/
theorem foldl_getD_eq {α : Type} (f : α → Px) (xs : List α) (d : Pen) :
    xs.foldl (fun acc a => (f a).getD acc) d = (xs.reverse.findSome? f).getD d := by
  induction xs generalizing d with
  | nil => rfl
  | cons a xs ih =>
    rw [List.foldl_cons, ih, List.reverse_cons, List.findSome?_append]
    cases h : xs.reverse.findSome? f with
    | some v => rfl
    | none => cases h2 : f a <;> simp [h2]

/-- DRAW_SPRITES, pixel by pixel. -/
theorem fbAt_drawSpritesAt (b : Board) (v : Nat) (s : State) {x y : Nat} (hx : x < 288) (hy : y < 224) :
    fbAt (drawSpritesAt b v s) x y
      = (((if v ≤ priMax b then spritesAt b s v else []).reverse.findSome?
          fun slot => spriteAt b (slotWords b s slot) x y).getD (fbAt s x y)) := by
  rw [← foldl_getD_eq]
  change gridAt 0 (b.spriteOrder.foldl (drawSlot b s v) s.fb) x y = _
  have hfold : ∀ (slots : List (Fin 128)) (g : List (List Pen)),
      gridAt 0 (slots.foldl (drawSlot b s v) g) x y
        = (if v ≤ priMax b then slots.filter fun slot =>
            decide ((b.spriteDecode (slotWords b s slot)).reqH ≠ 0)
              && decide (spritePri b (b.spriteDecode (slotWords b s slot)) = v) else []).foldl
          (fun acc slot => (spriteAt b (slotWords b s slot) x y).getD acc) (gridAt 0 g x y) := by
    intro slots
    induction slots with
    | nil => intro g; split <;> rfl
    | cons slot slots ih =>
      intro g
      rw [List.foldl_cons, ih]
      unfold drawSlot drawnAt
      by_cases hv : v ≤ priMax b
      · simp only [hv, if_true, decide_true, Bool.and_true]
        by_cases hd : (decide ((b.spriteDecode (slotWords b s slot)).reqH ≠ 0)
            && decide (spritePri b (b.spriteDecode (slotWords b s slot)) = v)) = true
        · rw [List.filter_cons, if_pos hd, if_pos hd, List.foldl_cons, gridAt_overlay _ _ hx hy]
        · rw [List.filter_cons, if_neg hd, if_neg hd]
      · simp [hv]
  exact hfold _ _

end Sys2Proof.Machine
end

