-- ==== Sys2Proof/Laws/Compositor.lean ====
section
/-! SUPPORT. The compositor: what each stage changes, the painter's order of a composite, and what a scan marks. -/

namespace Sys2Proof.Machine

/-! ### Drawing changes the frame buffer and the phase alone -/

/-- Only the frame buffer and the phase differ. -/
def OnlyDrawn (s t : State) : Prop := { t with fb := s.fb, phase := s.phase } = s

theorem onlyDrawn_refl (s : State) : OnlyDrawn s s := rfl

theorem onlyDrawn_iff {s t : State} : OnlyDrawn s t ↔ t = { s with fb := t.fb, phase := t.phase } := by
  unfold OnlyDrawn
  constructor
  · intro h; rw [← h]
  · intro h; rw [h]

theorem onlyDrawn_trans {s t u : State} (h : OnlyDrawn s t) (h' : OnlyDrawn t u) : OnlyDrawn s u := by
  rw [onlyDrawn_iff] at *
  rw [h', h]

theorem onlyDrawn_foldl {α : Type} {f : State → α → State} (hf : ∀ s a, OnlyDrawn s (f s a)) (xs : List α) (s : State) :
    OnlyDrawn s (xs.foldl f s) := by
  induction xs generalizing s with
  | nil => rfl
  | cons a xs ih => exact onlyDrawn_trans (hf s a) (ih _)

theorem onlyDrawn_drawTiles (b : Board) (l : Layer) (s : State) : OnlyDrawn s (drawTiles b l s) := rfl

theorem onlyDrawn_drawSpritesAt (b : Board) (v : Nat) (s : State) : OnlyDrawn s (drawSpritesAt b v s) := rfl

theorem onlyDrawn_phase (s : State) (p : Phase) : OnlyDrawn s { s with phase := p } := rfl

theorem onlyDrawn_drawLayersAt (b : Board) (n : Nat) (s : State) : OnlyDrawn s (drawLayersAt b n s) := by
  refine onlyDrawn_foldl (fun s l => ?_) _ s
  split
  · exact onlyDrawn_drawTiles b l s
  · exact onlyDrawn_refl s

theorem onlyDrawn_drawRozPlane (b : Board) (p : Plane) (s : State) : OnlyDrawn s (drawRozPlane b p s) := by
  unfold drawRozPlane; split <;> rfl

theorem onlyDrawn_drawPlanesAt (b : Board) (n : Nat) (s : State) : OnlyDrawn s (drawPlanesAt b n s) := by
  refine onlyDrawn_foldl (fun s p => ?_) _ s
  split
  · exact onlyDrawn_drawRozPlane b p s
  · exact onlyDrawn_refl s

theorem onlyDrawn_perLevel (b : Board) (s : State) (n : Nat) : OnlyDrawn s (perLevel b s n) := by
  exact onlyDrawn_trans (onlyDrawn_trans (onlyDrawn_trans (onlyDrawn_phase s (.perLevel n))
    (onlyDrawn_drawLayersAt b n _)) (onlyDrawn_drawPlanesAt b n _)) (onlyDrawn_drawSpritesAt b n _)

theorem onlyDrawn_drawLevels (b : Board) (s : State) : OnlyDrawn s (drawLevels b s) :=
  onlyDrawn_foldl (onlyDrawn_perLevel b) _ s

/-! ### Rendering every layer -/

theorem renderAll_eq (b : Board) (s : State) : renderAll b s = { s with layers := (renderAll b s).layers } := by
  have h : ∀ (ls : List Layer) (t : State), ls.foldl (fun s l => renderTiles b l s) t
      = { t with layers := (ls.foldl (fun s l => renderTiles b l s) t).layers } := by
    intro ls
    induction ls with
    | nil => intro t; rfl
    | cons l ls ih => intro t; rw [List.foldl_cons, ih]; rfl
  exact h allLayers s

/-- Each layer is rendered as RENDER_LAYER renders it alone. -/
theorem renderAll_layer (b : Board) (s : State) (l : Layer) : (renderAll b s).layer l = (renderTiles b l s).layer l := by
  have hne : ∀ (t : State) (l' : Layer), l' ≠ l → (renderTiles b l' t).layer l = t.layer l := by
    intro t l' h; rw [renderTiles_layer, if_neg (Ne.symm h)]
  have hcong : ∀ (t t' : State), t.mem = t'.mem → t.flip = t'.flip → t.layer l = t'.layer l →
      (renderTiles b l t).layer l = (renderTiles b l t').layer l := by
    intro t t' hm hf hl
    rw [renderTiles_layer, renderTiles_layer, if_pos rfl, if_pos rfl]
    unfold dirtyAt cacheTile
    rw [hl, hf]
    simp only [tileWord_congr hm]
  have hgen : ∀ (ls : List Layer) (t : State), t.mem = s.mem → t.flip = s.flip → ls.Nodup →
      (ls.foldl (fun s l => renderTiles b l s) t).layer l
        = if l ∈ ls then (renderTiles b l t).layer l else t.layer l := by
    intro ls
    induction ls with
    | nil => intro t _ _ _; simp
    | cons l' ls ih =>
      intro t hm hf hn
      rw [List.nodup_cons] at hn
      rw [List.foldl_cons, ih _ (by exact hm) (by exact hf) hn.2]
      by_cases e : l = l'
      · subst e
        rw [if_neg hn.1, if_pos List.mem_cons_self]
      · have hl : (renderTiles b l' t).layer l = t.layer l := hne t l' (Ne.symm e)
        by_cases e2 : l ∈ ls
        · rw [if_pos e2, if_pos (List.mem_cons_of_mem _ e2)]
          exact hcong _ _ rfl rfl hl
        · rw [if_neg e2, if_neg (by simp [e, e2]), hl]
  have hmem : l ∈ allLayers := by fin_cases l <;> decide
  have := hgen allLayers s rfl rfl (by decide)
  rw [if_pos hmem] at this
  exact this

theorem dirtyAt_renderAll (b : Board) (s : State) (l : Layer) (t : Nat) : dirtyAt (renderAll b s) l t = false := by
  unfold dirtyAt
  rw [renderAll_layer]
  have := dirtyAt_renderTiles b l l s t
  rw [if_pos rfl] at this
  exact this

/-- After every layer is rendered, every tile is as the cache invariant says. -/
theorem cacheTile_renderAll {b : Board} {s : State} (h : CacheCoherent b s) (l : Layer) {t : Nat} (ht : t < ntiles l) :
    cacheTile (renderAll b s) l t = decodeTile b (tileWord b s l t) (s.layer l).colorBank s.flip := by
  have e : cacheTile (renderAll b s) l t = cacheTile (renderTiles b l s) l t := by
    unfold cacheTile; rw [renderAll_layer]
  rw [e, cacheTile_renderTiles b l s ht]
  split
  · rfl
  · rename_i hd
    exact h l t ht (by simpa using hd)

/-! ### The stages of a composite -/

theorem palScan_visible_congr {b : Board} {s t : State} (hm : s.mem = t.mem) (hl : s.layers = t.layers)
    (hb : s.sprBank = t.sprBank) (hr : s.rozBus = t.rozBus) : (palScan b s).visible = (palScan b t).visible := by
  cases s; cases t
  simp only at hm hl hb hr
  subst hm hl hb hr
  rfl

/-- The state in which the levels are drawn. -/
theorem compositeInit_eq (b : Board) (s : State) : compositeInit b s = { s with
    phase := .init
    fb := grid screenW screenH fun _ _ => 0
    visible := (palScan b s).visible
    layers := (renderAll b s).layers } := by
  have hl : ∀ t t' : State, t.mem = t'.mem → t.flip = t'.flip → t.layers = t'.layers →
      (renderAll b t).layers = (renderAll b t').layers := by
    intro t t' hm hf hl
    apply setLayer_layers_ext
    intro l
    rw [renderAll_layer, renderAll_layer, renderTiles_layer, renderTiles_layer, if_pos rfl, if_pos rfl]
    have hlay : t.layer l = t'.layer l := by unfold State.layer; rw [hl]
    unfold dirtyAt cacheTile
    rw [hlay, hf]
    simp only [tileWord_congr hm]
  unfold compositeInit
  rw [renderAll_eq, hl (palScan b (clearFrame s)) s rfl rfl rfl]
  unfold palScan clearFrame
  have hv : (palScan b (clearFrame s)).visible = (palScan b s).visible := palScan_visible_congr rfl rfl rfl rfl
  simp only
  exact congrArg (fun v : BitVec 8192 => ({ s with
    phase := .init, fb := grid screenW screenH fun _ _ => 0, visible := v, layers := (renderAll b s).layers } : State)) hv

theorem paletteColours_congr {b : Board} {s t : State} (h : s.mem = t.mem) : paletteColours b s = paletteColours b t := by
  unfold paletteColours
  simp only [regionRead_congr h]

/-- What a composite leaves of every field. -/
theorem composite_eq (b : Board) (s : State) : ∃ (fb : List (List Pen)) (idx : List (List Pen)) (rgb : List (List RGB)),
    fb = (drawLevels b (compositeInit b s)).fb
      ∧ composite b s = { s with
          layers := (renderAll b s).layers
          visible := (palScan b s).visible
          prevRGB := some (paletteColours b s)
          colourTable := if s.prevRGB = some (paletteColours b s) then s.colourTable else paletteColours b s
          fb := fb
          phase := .done
          out := s.out ++ [.frame idx rgb] }
      ∧ idx = grid screenW screenH (fun x y => if s.flip = 1 then gridAt 0 fb (screenW - 1 - x) (screenH - 1 - y)
          else gridAt 0 fb x y)
      ∧ rgb = grid screenW screenH (fun x y =>
          (if s.prevRGB = some (paletteColours b s) then s.colourTable else paletteColours b s).getD
            (if s.flip = 1 then gridAt 0 fb (screenW - 1 - x) (screenH - 1 - y) else gridAt 0 fb x y).toNat default) := by
  have hd : ({ drawLevels b (compositeInit b s) with phase := .done } : State) = { s with
      layers := (renderAll b s).layers, visible := (palScan b s).visible, phase := .done
      fb := (drawLevels b (compositeInit b s)).fb } := by
    generalize hf : (drawLevels b (compositeInit b s)).fb = f
    rw [onlyDrawn_iff.mp (onlyDrawn_drawLevels b (compositeInit b s)), hf, compositeInit_eq]
  unfold composite
  rw [hd]
  generalize (drawLevels b (compositeInit b s)).fb = f
  refine ⟨f, _, _, rfl, ?_, rfl, rfl⟩
  generalize hx : ({ s with layers := (renderAll b s).layers, visible := (palScan b s).visible, phase := .done, fb := f } : State) = x
  have hpal : paletteColours b x = paletteColours b s := by subst hx; exact paletteColours_congr rfl
  have hpr : x.prevRGB = s.prevRGB := by subst hx; rfl
  unfold outputFrame rebuildColours
  rw [hpal, hpr]
  by_cases e : s.prevRGB = some (paletteColours b s)
  · rw [if_pos e, if_pos e]
    subst hx
    unfold emit indexFrame rgbFrame screenAt fbAt
    simp only
    rw [e]
  · rw [if_neg e, if_neg e]
    subst hx
    unfold emit indexFrame rgbFrame screenAt fbAt
    simp only

end Sys2Proof.Machine
end

