-- ==== Sys2Proof/Laws/Decode.lean ====
section
/-! SUPPORT. The fields of a packed operation word, and what the decoder makes of each format's packed word. -/

namespace Sys2Proof

section Fields

variable (code : Word) (format proc lanes : BitVec 4) (addr : Addr) (data tile : Word)

@[simp] theorem opCode_packOp : opCode (packOp code format proc lanes addr data tile) = code := by
  refine BitVec.eq_of_getLsbD_eq fun i hi => ?_
  simp only [opCode, packOp, BitVec.getLsbD_extractLsb', BitVec.getLsbD_append]
  simp [hi]

@[simp] theorem opFormat_packOp : opFormat (packOp code format proc lanes addr data tile) = format := by
  refine BitVec.eq_of_getLsbD_eq fun i hi => ?_
  simp only [opFormat, packOp, BitVec.getLsbD_extractLsb', BitVec.getLsbD_append]
  simp [hi]

@[simp] theorem opProc_packOp : opProc (packOp code format proc lanes addr data tile) = proc := by
  refine BitVec.eq_of_getLsbD_eq fun i hi => ?_
  simp only [opProc, packOp, BitVec.getLsbD_extractLsb', BitVec.getLsbD_append]
  simp [hi, show ¬ 20 + i < 16 by omega, show ¬ 20 + i - 16 < 4 by omega, show 20 + i - 16 - 4 = i by omega]

@[simp] theorem opLanes_packOp : opLanes (packOp code format proc lanes addr data tile) = lanes := by
  refine BitVec.eq_of_getLsbD_eq fun i hi => ?_
  simp only [opLanes, packOp, BitVec.getLsbD_extractLsb', BitVec.getLsbD_append]
  simp [hi, show ¬ 24 + i < 16 by omega, show ¬ 24 + i - 16 < 4 by omega, show ¬ 24 + i - 16 - 4 < 4 by omega,
    show 24 + i - 16 - 4 - 4 = i by omega]

@[simp] theorem opAddr_packOp : opAddr (packOp code format proc lanes addr data tile) = addr := by
  refine BitVec.eq_of_getLsbD_eq fun i hi => ?_
  simp only [opAddr, packOp, BitVec.getLsbD_extractLsb', BitVec.getLsbD_append]
  simp [hi, show ¬ 32 + i < 16 by omega, show ¬ 32 + i - 16 < 4 by omega, show ¬ 32 + i - 16 - 4 < 4 by omega,
    show ¬ 32 + i - 16 - 4 - 4 < 4 by omega, show ¬ 32 + i - 16 - 4 - 4 - 4 < 4 by omega,
    show 32 + i - 16 - 4 - 4 - 4 - 4 = i by omega]

@[simp] theorem opData_packOp : opData (packOp code format proc lanes addr data tile) = data := by
  refine BitVec.eq_of_getLsbD_eq fun i hi => ?_
  simp only [opData, packOp, BitVec.getLsbD_extractLsb', BitVec.getLsbD_append]
  simp [hi, show ¬ 64 + i < 16 by omega, show ¬ 64 + i - 16 < 4 by omega, show ¬ 64 + i - 16 - 4 < 4 by omega,
    show ¬ 64 + i - 16 - 4 - 4 < 4 by omega, show ¬ 64 + i - 16 - 4 - 4 - 4 < 4 by omega,
    show ¬ 64 + i - 16 - 4 - 4 - 4 - 4 < 32 by omega, show 64 + i - 16 - 4 - 4 - 4 - 4 - 32 = i by omega]

@[simp] theorem opTile_packOp : opTile (packOp code format proc lanes addr data tile) = tile := by
  refine BitVec.eq_of_getLsbD_eq fun i hi => ?_
  simp only [opTile, packOp, BitVec.getLsbD_extractLsb', BitVec.getLsbD_append]
  simp [hi, show ¬ 80 + i < 16 by omega, show ¬ 80 + i - 16 < 4 by omega, show ¬ 80 + i - 16 - 4 < 4 by omega,
    show ¬ 80 + i - 16 - 4 - 4 < 4 by omega, show ¬ 80 + i - 16 - 4 - 4 - 4 < 4 by omega,
    show ¬ 80 + i - 16 - 4 - 4 - 4 - 4 < 32 by omega, show ¬ 80 + i - 16 - 4 - 4 - 4 - 4 - 32 < 16 by omega,
    show 80 + i - 16 - 4 - 4 - 4 - 4 - 32 - 16 = i by omega]

end Fields

@[simp] theorem procOf_procNo (p : Proc) : procOf (procNo p) = some p := by cases p <;> rfl

@[simp] theorem lanesOf_lanesNo (m : Lanes) : lanesOf (lanesNo m) = some m := by cases m <;> rfl

@[simp] theorem genOf_genProc (k : Gen) : genOf (genProc k) = some k := by cases k <;> rfl

/-- The decoder on a packed operation word. -/
theorem decode_packOp (code : Word) (format proc lanes : BitVec 4) (addr : Addr) (data tile : Word) {p : Proc}
    {m : Lanes} (hp : procOf proc = some p) (hm : lanesOf lanes = some m) :
    decode (packOp code format proc lanes addr data tile) = decodeFields code format.toNat p m addr data tile := by
  simp [decode, hp, hm]

/-- A BUS word decodes by its code. -/
theorem decode_encBus {c : Nat} (hc : c < 65536) (p : Proc) (a : Addr) (d : Word) (m : Lanes) :
    decode (encBus c p a d m) = decodeBus p c a d m := by
  rw [encBus, decode_packOp _ _ _ _ _ _ _ (procOf_procNo p) (lanesOf_lanesNo m)]
  simp [decodeFields, Nat.mod_eq_of_lt hc]

/-- A C148 word decodes by its direction and selector. -/
theorem decode_encC148 (wr : Bool) {n : Nat} (hn : n < 32) (k : Gen) (d : Word) (m : Lanes) :
    decode (encC148 wr n k d m) = .ok (decodeC148 k wr n d m) := by
  rw [encC148, decode_packOp _ _ _ _ _ _ _ (procOf_procNo (genProc k)) (lanesOf_lanesNo m)]
  have h : ∀ (wr : Bool) (n : Fin 32),
      (BitVec.ofNat 16 ((if wr then 32 else 0) + n.val)).toNat < 64
        ∧ (BitVec.ofNat 16 ((if wr then 32 else 0) + n.val)).getLsbD 5 = wr
        ∧ (BitVec.ofNat 16 ((if wr then 32 else 0) + n.val)).toNat % 32 = n.val := by decide
  obtain ⟨h1, h2, h3⟩ := h wr ⟨n, hn⟩
  show (match genOf (genProc k) with | some _ => if _ then _ else _ | none => _) = _
  rw [genOf_genProc]
  show (if _ then _ else _) = _
  rw [if_pos h1, h2, h3]

/-- A VID word decodes by its 9-bit code. -/
theorem decode_encVid (wr : Bool) {n : Nat} (hn : n < 256) (p : Proc) (t d : Word) (m : Lanes) :
    decode (encVid wr n p t d m) = .ok (decodeVid p (BitVec.ofNat 9 ((if wr then 256 else 0) + n)) t d m) := by
  rw [encVid, decode_packOp _ _ _ _ _ _ _ (procOf_procNo p) (lanesOf_lanesNo m)]
  have hlt : (if wr then 256 else 0) + n < 512 := by split <;> omega
  have h1 : (BitVec.ofNat 16 ((if wr then 256 else 0) + n)).toNat < 512 := by
    rw [BitVec.toNat_ofNat]; omega
  have h2 : (BitVec.ofNat 16 ((if wr then 256 else 0) + n)).setWidth 9
      = BitVec.ofNat 9 ((if wr then 256 else 0) + n) := by
    apply BitVec.eq_of_toNat_eq
    rw [BitVec.toNat_setWidth, BitVec.toNat_ofNat, BitVec.toNat_ofNat]; omega
  show (if _ then _ else _) = _
  rw [if_pos h1, h2]

/-- The direction, kind and idx of a 9-bit VID code. -/
theorem vidCode_fields (wr : Bool) {n : Nat} (hn : n < 256) :
    (BitVec.ofNat 9 ((if wr then 256 else 0) + n)).getLsbD 8 = wr
      ∧ (BitVec.ofNat 9 ((if wr then 256 else 0) + n)).toNat / 16 % 16 = n / 16
      ∧ (BitVec.ofNat 9 ((if wr then 256 else 0) + n)).toNat % 16 = n % 16 := by
  have ht : (BitVec.ofNat 9 ((if wr then 256 else 0) + n)).toNat = (if wr then 256 else 0) + n := by
    rw [BitVec.toNat_ofNat]; split <;> omega
  refine ⟨?_, ?_, ?_⟩
  · rw [BitVec.getLsbD, ht, Nat.testBit, Nat.shiftRight_eq_div_pow, Nat.one_and_eq_mod_two]
    cases wr
    · simp; omega
    · simp; omega
  · rw [ht]; split <;> omega
  · rw [ht]; split <;> omega

theorem layerOf_val (l : Layer) : layerOf l.val = some l := by
  simp [layerOf, l.isLt]

/-- The code of a register names it. -/
theorem vidRegOf_vidRegNo (r : VidReg) : vidRegOf (vidRegNo r / 16) (vidRegNo r % 16) (vidRegTile r) = some r := by
  cases r with
  | tile l t =>
    have hl := l.isLt
    rw [show vidRegNo (.tile l t) / 16 = 0 by simp only [vidRegNo]; omega,
      show vidRegNo (.tile l t) % 16 = l.val by simp only [vidRegNo]; omega]
    simp [vidRegOf, layerOf_val, vidRegTile]
  | scrollX l => fin_cases l <;> rfl
  | scrollY l => fin_cases l <;> rfl
  | bank l => fin_cases l <;> rfl
  | pri l => fin_cases l <;> rfl
  | flip => rfl
  | sprBank => rfl
  | rozCtrl p r =>
    have h : ∀ (p : Plane) (r : Fin 8), vidRegOf (vidRegNo (.rozCtrl p ⟨r⟩) / 16) (vidRegNo (.rozCtrl p ⟨r⟩) % 16) 0
      = some (.rozCtrl p ⟨r⟩) := by decide
    exact h p r.toFin
  | rozPri p => fin_cases p <;> rfl

theorem vidRegNo_lt (r : VidReg) : vidRegNo r < 256 := by
  cases r with
  | tile l t => have := l.isLt; simp only [vidRegNo]; omega
  | scrollX l => have := l.isLt; simp only [vidRegNo]; omega
  | scrollY l => have := l.isLt; simp only [vidRegNo]; omega
  | bank l => have := l.isLt; simp only [vidRegNo]; omega
  | pri l => have := l.isLt; simp only [vidRegNo]; omega
  | flip => simp [vidRegNo]
  | sprBank => simp [vidRegNo]
  | rozCtrl p r => have := p.isLt; have := r.isLt; simp only [vidRegNo]; omega
  | rozPri p => have := p.isLt; simp only [vidRegNo]; omega

/-- A VID word of a register decodes to its write or its read. -/
theorem decode_encVid_reg (wr : Bool) (r : VidReg) (p : Proc) (d : Word) (m : Lanes) :
    decode (encVid wr (vidRegNo r) p (vidRegTile r) d m) = .ok (if wr then vidWriteOp r d m else .vidRd p r) := by
  rw [decode_encVid wr (vidRegNo_lt r)]
  obtain ⟨h1, h2, h3⟩ := vidCode_fields wr (vidRegNo_lt r)
  unfold decodeVid
  rw [h1, h2, h3, vidRegOf_vidRegNo]

/-- A VID code of kind 9 or above names no register. -/
theorem vidRegOf_none {kind idx : Nat} (t : Word) (h : 9 ≤ kind) : vidRegOf kind idx t = none := by
  obtain ⟨n, rfl⟩ : ∃ n, kind = n + 9 := ⟨kind - 9, by omega⟩
  rfl

/-- A reserved code names no register. -/
theorem vidRegOf_reserved {kind idx : Nat} (t : Word) (h : vidCodeReserved kind idx = true) :
    vidRegOf kind idx t = none := by
  by_cases hk : 9 ≤ kind
  · exact vidRegOf_none t hk
  · have h9 : kind < 9 := by omega
    clear hk
    interval_cases kind <;> simp [vidCodeReserved] at h <;>
      (simp only [vidRegOf, layerOf, Option.map_eq_none_iff]; try split) <;> first | rfl | omega | skip
    all_goals split <;> first | rfl | omega

theorem decode_vidRsvdK9 (p : Proc) (c : BitVec 9) (h : (Instr.vidRsvdK9 p c).wellFormed = true) :
    decode (encode (.vidRsvdK9 p c)) = .ok (.vidRsvdK9 p c) := by
  simp only [Instr.wellFormed, Bool.and_eq_true, decide_eq_true_eq] at h
  rw [encode, encVid, decode_packOp _ _ _ _ _ _ _ (procOf_procNo p) (lanesOf_lanesNo .both)]
  have hc := c.isLt
  have h1 : (BitVec.ofNat 16 ((if false then 256 else 0) + c.toNat)).toNat < 512 := by
    rw [BitVec.toNat_ofNat]; simp; omega
  have h2 : (BitVec.ofNat 16 ((if false then 256 else 0) + c.toNat)).setWidth 9 = c := by
    apply BitVec.eq_of_toNat_eq
    rw [BitVec.toNat_setWidth, BitVec.toNat_ofNat]; simp; omega
  show (if _ then _ else _) = _
  rw [if_pos h1, h2]
  unfold decodeVid
  rw [vidRegOf_reserved 0 h.1]
  simp [h.2]

theorem decode_vidRsvdKAB (p : Proc) (wr : Bool) (c : BitVec 5) :
    decode (encode (.vidRsvdKAB p wr c)) = .ok (.vidRsvdKAB p wr c) := by
  have hc := c.isLt
  rw [encode, decode_encVid wr (by omega)]
  obtain ⟨h1, h2, h3⟩ := vidCode_fields wr (n := 0xA0 + c.toNat) (by omega)
  unfold decodeVid
  rw [h1, h2, h3, vidRegOf_none 0 (by omega), if_neg (by omega), if_pos (by omega)]
  show Except.ok (Instr.vidRsvdKAB p wr _) = _
  refine congrArg (fun x => Except.ok (Instr.vidRsvdKAB p wr x)) (BitVec.eq_of_toNat_eq ?_)
  rw [BitVec.toNat_setWidth, BitVec.toNat_ofNat]
  split <;> omega

theorem decode_vidRsvdKCF (p : Proc) (wr : Bool) (c : BitVec 6) :
    decode (encode (.vidRsvdKCF p wr c)) = .ok (.vidRsvdKCF p wr c) := by
  have hc := c.isLt
  rw [encode, decode_encVid wr (by omega)]
  obtain ⟨h1, h2, h3⟩ := vidCode_fields wr (n := 0xC0 + c.toNat) (by omega)
  unfold decodeVid
  rw [h1, h2, h3, vidRegOf_none 0 (by omega), if_neg (by omega), if_neg (by omega)]
  show Except.ok (Instr.vidRsvdKCF p wr _) = _
  refine congrArg (fun x => Except.ok (Instr.vidRsvdKCF p wr x)) (BitVec.eq_of_toNat_eq ?_)
  rw [BitVec.toNat_setWidth, BitVec.toNat_ofNat]
  split <;> omega

/-- An EVT word decodes by its code. -/
theorem decode_encEvt {src k : Nat} (h : 16 + 2 * src + k < 256) :
    decode (encEvt src k) = decodeEvt (16 + 2 * src + k) := by
  rw [encEvt, decode_packOp _ _ _ _ _ _ _ (p := .master) (m := .both) rfl rfl]
  simp only [decodeFields]
  rw [BitVec.toNat_ofNat, Nat.mod_eq_of_lt (by omega)]
  simp [h]

/-- A SCH word decodes by its code. -/
theorem decode_encSch {c : Nat} (h : c < 256) : decode (encSch c) = decodeSch c := by
  rw [encSch, decode_packOp _ _ _ _ _ _ _ (p := .master) (m := .both) rfl rfl]
  simp only [decodeFields]
  rw [BitVec.toNat_ofNat, Nat.mod_eq_of_lt (by omega)]
  simp [h]

end Sys2Proof
end

