-- ==== Sys2Proof/Laws/Levels.lean ====
section
/-! SUPPORT. What the levels of a composite draw (45_compositor.md R341-R343), said once: each level draws its elements
in order over the frame. -/

namespace Sys2Proof.Machine

/-- What is seen of a list of elements over a pixel that held `d`. -/
def drawOver (es : List (Nat → Nat → Px)) (x y : Nat) (d : Pen) : Pen := es.foldl (fun acc f => (f x y).getD acc) d

theorem drawOver_append (a b : List (Nat → Nat → Px)) (x y : Nat) (d : Pen) :
    drawOver (a ++ b) x y d = drawOver b x y (drawOver a x y d) := List.foldl_append

/-- What the drawing of a frame of `s` reads is in `u` as it was in `s`, but for the rendered layers. -/
structure SameScene (b : Board) (s u : State) : Prop where
  mem : u.mem = s.mem
  spr : u.sprBank = s.sprBank
  roz : u.rozBus = s.rozBus
  rozPri : u.rozPri = s.rozPri
  flip : u.flip = s.flip
  layers : u.layers = (renderAll b s).layers

theorem sameScene_init (b : Board) (s : State) : SameScene b s (compositeInit b s) := by
  rw [compositeInit_eq]; exact ⟨rfl, rfl, rfl, rfl, rfl, rfl⟩

theorem sameScene_drawn {b : Board} {s u v : State} (h : SameScene b s u) (ho : OnlyDrawn u v) : SameScene b s v := by
  rw [onlyDrawn_iff] at ho; rw [ho]; exact ⟨h.mem, h.spr, h.roz, h.rozPri, h.flip, h.layers⟩

theorem layerPixel_sameScene {b : Board} {s u : State} (hc : CacheCoherent b s) (h : SameScene b s u) (l : Layer) (x y : Nat) :
    layerPixel b u l x y = tilePixel b s l x y := by
  have hl : u.layer l = (renderTiles b l s).layer l := (layer_congr h.layers l).trans (renderAll_layer _ _ _)
  rw [renderTiles_layer, if_pos rfl] at hl
  rw [layerPixel_eq_tilePixel]
  · unfold tilePixel; simp only [hl, tileWord_congr h.mem]
  · have hi := tileIndexAt_lt b u l x y
    rw [cacheTile_congr h.layers, cacheTile_renderAll hc l hi, tileWord_congr h.mem, hl, h.flip]

theorem rozPixel_sameScene {b : Board} {s u : State} (h : SameScene b s u) (p : Plane) (x y : Nat) :
    rozPixel b u p x y = rozPixel b s p x y := by
  unfold rozPixel rozPen rozTileAt rozEntry rozCtl regionWord
  simp only [regionRead_congr h.mem, h.roz, h.spr]

theorem slotWords_sameScene {b : Board} {s u : State} (h : SameScene b s u) (slot : Fin 128) :
    slotWords b u slot = slotWords b s slot := by
  unfold slotWords sprWord activeBank regionWord
  simp only [regionRead_congr h.mem, h.spr]

/-- The layers of a level. -/
theorem fbAt_foldl_drawTiles {b : Board} {s u : State} (hc : CacheCoherent b s) (h : SameScene b s u) (n : Nat) {x y : Nat}
    (hx : x < 288) (hy : y < 224) (ls : List Layer) :
    fbAt (ls.foldl (fun s l => if (s.layer l).pri.toNat = n then drawTiles b l s else s) u) x y
      = drawOver ((ls.filter fun l => (s.layer l).pri.toNat = n).map (tilePixel b s)) x y (fbAt u x y) := by
  induction ls generalizing u with
  | nil => rfl
  | cons l ls ih =>
    rw [List.foldl_cons]
    have hl : u.layer l = (renderTiles b l s).layer l := (layer_congr h.layers l).trans (renderAll_layer _ _ _)
    rw [renderTiles_layer, if_pos rfl] at hl
    have hp : (u.layer l).pri = (s.layer l).pri := by rw [hl]
    rw [hp]
    split
    · rename_i e
      rw [ih (sameScene_drawn h (onlyDrawn_drawTiles b l u)), List.filter_cons_of_pos (by simpa using e),
        fbAt_drawTiles b l u hx hy, layerPixel_sameScene hc h]; rfl
    · rename_i e
      rw [ih h, List.filter_cons_of_neg (by simpa using e)]

/-- The planes of a level. -/
theorem fbAt_foldl_drawRozPlane {b : Board} {s u : State} (h : SameScene b s u) (n : Nat) {x y : Nat} (hx : x < 288)
    (hy : y < 224) (ps : List Plane) :
    fbAt (ps.foldl (fun s p => if (s.rozPri[p]).toNat = n then drawRozPlane b p s else s) u) x y
      = drawOver ((ps.filter fun p => decide ((s.rozPri[p]).toNat = n)).map (rozPixel b s)) x y (fbAt u x y) := by
  induction ps generalizing u with
  | nil => rfl
  | cons l ls ih =>
    rw [List.foldl_cons, h.rozPri]
    split
    · rename_i e
      rw [ih (sameScene_drawn h (onlyDrawn_drawRozPlane b l u)), List.filter_cons_of_pos (by simpa using e),
        fbAt_drawRozPlane b l u hx hy, rozPixel_sameScene h]; rfl
    · rename_i e
      rw [ih h, List.filter_cons_of_neg (by simpa using e)]

/-- One level draws its elements in order (R342). -/
theorem fbAt_perLevel {b : Board} {s u : State} (hc : CacheCoherent b s) (h : SameScene b s u) {n : Nat} (hn : n ≤ priMax b)
    {x y : Nat} (hx : x < 288) (hy : y < 224) :
    fbAt (perLevel b u n) x y = drawOver (levelElements b s n) x y (fbAt u x y) := by
  unfold perLevel
  have h0 : SameScene b s { u with phase := .perLevel n } := sameScene_drawn h (onlyDrawn_phase _ _)
  have h1 := sameScene_drawn h0 (onlyDrawn_drawLayersAt b n _)
  have h2 := sameScene_drawn h1 (onlyDrawn_drawPlanesAt b n _)
  rw [fbAt_drawSpritesAt b n _ hx hy, if_pos hn, ← foldl_getD_eq]
  have hs : spritesAt b (drawPlanesAt b n (drawLayersAt b n { u with phase := .perLevel n })) n = spritesAt b s n := by
    unfold spritesAt; simp only [slotWords_sameScene h2]
  rw [hs]; simp only [slotWords_sameScene h2]
  unfold levelElements
  rw [drawOver_append, drawOver_append]
  have hB := fbAt_foldl_drawRozPlane h1 n hx hy (allPlanes b)
  have hA := fbAt_foldl_drawTiles hc h0 n hx hy allLayers
  unfold drawPlanesAt at *
  rw [hB]
  unfold drawLayersAt at *
  rw [hA]
  unfold drawOver
  rw [List.foldl_map (g := fun acc (f : Nat → Nat → Px) => (f x y).getD acc) (f := fun slot => spriteAt b (slotWords b s slot))]
  unfold allPlanes
  rw [List.filter_filter]
  rw [show (fun a : Plane => decide ((s.rozPri[a]).toNat = n) && planeExists b a)
    = (fun p : Plane => planeExists b p && decide ((s.rozPri[p]).toNat = n)) from funext fun a => Bool.and_comm _ _]
  rfl

end Sys2Proof.Machine
end

