-- ==== Sys2Proof/Laws/Pens.lean ====
section
/-! SUPPORT. Which palette indices a palette scan finds (45_compositor.md R347-R350). -/

namespace Sys2Proof.Machine

/-- The visible set of a list of palette indices. -/
theorem markPens_getLsbD (pens : List Pen) (i : Nat) (hi : i < 8192) :
    (markPens pens).getLsbD i = true ↔ ∃ c ∈ pens, c.toNat = i := by
  have h : ∀ (v : BitVec 8192), (pens.foldl (fun v c => setWire v c.toNat true) v).getLsbD i = true
      ↔ v.getLsbD i = true ∨ ∃ c ∈ pens, c.toNat = i := by
    induction pens with
    | nil => intro v; simp
    | cons c pens ih =>
      intro v
      rw [List.foldl_cons, ih, getLsbD_setWire]
      by_cases e : i = c.toNat
      · rw [if_pos e]; subst e; simp [hi]
      · rw [if_neg e]; simp [Ne.symm e]
  unfold markPens
  rw [h]; simp

/-- The palette indices of the tiles on the screen (R348). -/
theorem tilePens_mem (b : Board) (s : State) (c : Pen) : c ∈ tilePens b s ↔
    ∃ (l : Layer) (ux uy px py : Nat), ux < 288 ∧ uy < 224 ∧ px < 8 ∧ py < 8
      ∧ decodePixel b (tileWord b s l (tileIndexAt b s l ux uy)) (s.layer l).colorBank 0 px py = some c := by
  unfold tilePens screenTiles screenRows screenCols decodeTile tab
  simp only [List.mem_flatMap, List.mem_filterMap, List.mem_map, List.mem_eraseDups, List.mem_range, id]
  constructor
  · rintro ⟨l, -, t, ⟨row, ⟨uy, huy, rfl⟩, col, ⟨ux, hux, rfl⟩, rfl⟩, o, ⟨i, hi, rfl⟩, h⟩
    exact ⟨l, ux, uy, i % 8, i / 8, hux, huy, by omega, by omega, h⟩
  · rintro ⟨l, ux, uy, px, py, h1, h2, h3, h4, h⟩
    refine ⟨l, by unfold allLayers; fin_cases l <;> simp, _, ⟨_, ⟨uy, h2, rfl⟩, _, ⟨ux, h1, rfl⟩, rfl⟩, _, ⟨py * 8 + px, by omega, rfl⟩, ?_⟩
    rw [show (py * 8 + px) % 8 = px by omega, show (py * 8 + px) / 8 = py by omega]; exact h

/-- The palette indices of the ROZ tiles sampled (R349). -/
theorem rozPens_mem (b : Board) (s : State) (c : Pen) : c ∈ rozPens b s ↔
    ∃ (p : Plane) (ux uy px py : Nat), (p = 0 ∨ b.rozPlanes = .two) ∧ b.rozPresent p = true
      ∧ ux < 288 ∧ uy < 224 ∧ px < 8 ∧ py < 8
      ∧ rozPen b s (b.rozGfx p (rozTileAt b s p (rozPixelCoord (rozX (rozCtl b s p) ux uy))
                (rozPixelCoord (rozY (rozCtl b s p) ux uy))) px py) = some c := by
  unfold rozPens rozSamples rozTilePens allPlanes
  simp only [List.mem_flatMap, List.mem_filter]
  have hp : ∀ p : Plane, (p = 0 ∨ b.rozPlanes = .two) ↔ (p ∈ ([0,1] : List Plane) ∧ planeExists b p = true) := by
    intro p
    unfold planeExists
    cases b.rozPlanes <;> fin_cases p <;> simp
  constructor
  · rintro ⟨p, h, hc⟩
    split at hc
    · rename_i hpr
      simp only [List.mem_flatMap, List.mem_map, List.mem_range, List.mem_filterMap] at hc
      obtain ⟨q, ⟨uy, huy, ux, hux, rfl⟩, i, hi, h'⟩ := hc
      exact ⟨p, ux, uy, i % 8, i / 8, (hp p).mpr h, hpr, hux, huy, by omega, by omega, h'⟩
    · simp at hc
  · rintro ⟨p, ux, uy, px, py, h, hpr, h1, h2, h3, h4, h5⟩
    refine ⟨p, (hp p).mp h, ?_⟩
    rw [if_pos hpr]
    simp only [List.mem_flatMap, List.mem_map, List.mem_range, List.mem_filterMap]
    refine ⟨_, ⟨uy, h2, ux, h1, rfl⟩, py * 8 + px, by omega, ?_⟩
    rw [show (py * 8 + px) % 8 = px by omega, show (py * 8 + px) / 8 = py by omega]; exact h5

/-- The palette indices of the active sprites (R350). -/
theorem spritePens_mem (b : Board) (s : State) (c : Pen) : c ∈ spritePens b s ↔ ∃ (slot : Fin 128) (x y : Nat),
    let w := slotWords b s slot
    let f := b.spriteDecode w
    f.reqH ≠ 0 ∧ x < nativeSize f ∧ y < nativeSize f
      ∧ spritePen b f (b.spriteGfx (spriteRegion b w) f.code f.sizeClass x y) = some c := by
  unfold spritePens spritePensOf
  simp only [List.mem_flatMap, List.mem_finRange, true_and]
  constructor
  · rintro ⟨slot, hc⟩
    split at hc
    · simp at hc
    · rename_i h0
      simp only [List.mem_filterMap, List.mem_range] at hc
      obtain ⟨i, hi, h⟩ := hc
      have hn : 0 < nativeSize (b.spriteDecode (slotWords b s slot)) := by unfold nativeSize; split <;> omega
      exact ⟨slot, _, _, h0, Nat.mod_lt _ hn, by rw [Nat.div_lt_iff_lt_mul hn]; exact hi, h⟩
  · rintro ⟨slot, x, y, h0, hx, hy, h⟩
    refine ⟨slot, ?_⟩
    rw [if_neg h0]
    simp only [List.mem_filterMap, List.mem_range]
    refine ⟨y * nativeSize (b.spriteDecode (slotWords b s slot)) + x, by nlinarith, ?_⟩
    rw [show (y * nativeSize (b.spriteDecode (slotWords b s slot)) + x) % nativeSize (b.spriteDecode (slotWords b s slot))
        = x by rw [Nat.mul_comm, Nat.mul_add_mod, Nat.mod_eq_of_lt hx],
      show (y * nativeSize (b.spriteDecode (slotWords b s slot)) + x) / nativeSize (b.spriteDecode (slotWords b s slot))
        = y by rw [Nat.mul_comm, Nat.mul_add_div (by omega), Nat.div_eq_of_lt hx]; simp]
    exact h

end Sys2Proof.Machine
end

