-- ==== Sys2Proof/Laws/PerInstr.lean ====
section
/-! SUPPORT. The family EncodeRoundTrip: decoding the operation word of a well-formed operation gives it back, one
lemma for each constructor of Instr. -/

namespace Sys2Proof.Laws.EncodeRoundTrip

/-- Decoding the operation word of a well-formed operation gives it back. -/
def Statement (i : Instr) : Prop := i.wellFormed = true → decode (encode i) = .ok i

theorem rd8 (p : Proc) (a : Addr) : Statement (.rd8 p a) := by
  intro _
  exact decode_encBus (by omega) p a _ _

theorem wr8 (p : Proc) (a : Addr) (v : Byte) : Statement (.wr8 p a v) := by
  intro _
  show decode (encBus 1 p a (v.setWidth 16) .both) = _
  rw [decode_encBus (by omega)]
  simp [decodeBus]

theorem rd16 (p : Proc) (a : Addr) : Statement (.rd16 p a) := by
  intro _
  exact decode_encBus (by omega) p a _ _

theorem wr16 (p : Proc) (a : Addr) (v : Word) (m : Lanes) : Statement (.wr16 p a v m) := by
  intro _
  exact decode_encBus (by omega) p a _ _

theorem ifetch (p : Proc) (a : Addr) : Statement (.ifetch p a) := by
  intro _
  cases p <;> (rw [encode, decode_packOp _ _ _ _ _ _ _ (procOf_procNo _) (m := .both) rfl]; rfl)

theorem lvlWrCpuirq (k : Gen) (v : Word) (m : Lanes) : Statement (.lvlWrCpuirq k v m) := by
  intro _
  exact decode_encC148 true (by decide) k _ _

theorem lvlWrExirq (k : Gen) (v : Word) (m : Lanes) : Statement (.lvlWrExirq k v m) := by
  intro _
  exact decode_encC148 true (by decide) k _ _

theorem lvlWrPosirq (k : Gen) (v : Word) (m : Lanes) : Statement (.lvlWrPosirq k v m) := by
  intro _
  exact decode_encC148 true (by decide) k _ _

theorem lvlWrScirq (k : Gen) (v : Word) (m : Lanes) : Statement (.lvlWrScirq k v m) := by
  intro _
  exact decode_encC148 true (by decide) k _ _

theorem lvlWrVblank (k : Gen) (v : Word) (m : Lanes) : Statement (.lvlWrVblank k v m) := by
  intro _
  exact decode_encC148 true (by decide) k _ _

theorem lvlRdCpuirq (k : Gen) : Statement (.lvlRdCpuirq k) := by
  intro _
  exact decode_encC148 false (by decide) k _ _

theorem lvlRdExirq (k : Gen) : Statement (.lvlRdExirq k) := by
  intro _
  exact decode_encC148 false (by decide) k _ _

theorem lvlRdPosirq (k : Gen) : Statement (.lvlRdPosirq k) := by
  intro _
  exact decode_encC148 false (by decide) k _ _

theorem lvlRdScirq (k : Gen) : Statement (.lvlRdScirq k) := by
  intro _
  exact decode_encC148 false (by decide) k _ _

theorem lvlRdVblank (k : Gen) : Statement (.lvlRdVblank k) := by
  intro _
  exact decode_encC148 false (by decide) k _ _

theorem cpuirqTrig (k : Gen) : Statement (.cpuirqTrig k) := by
  intro _
  exact decode_encC148 true (by decide) k _ _

theorem ackCpuirq (k : Gen) : Statement (.ackCpuirq k) := by
  intro _
  exact decode_encC148 true (by decide) k _ _

theorem ackExirq (k : Gen) : Statement (.ackExirq k) := by
  intro _
  exact decode_encC148 true (by decide) k _ _

theorem ackPosirq (k : Gen) : Statement (.ackPosirq k) := by
  intro _
  exact decode_encC148 true (by decide) k _ _

theorem ackScirq (k : Gen) : Statement (.ackScirq k) := by
  intro _
  exact decode_encC148 true (by decide) k _ _

theorem ackVblank (k : Gen) : Statement (.ackVblank k) := by
  intro _
  exact decode_encC148 true (by decide) k _ _

theorem ackReadCpuirq (k : Gen) : Statement (.ackReadCpuirq k) := by
  intro _
  exact decode_encC148 false (by decide) k _ _

theorem ackReadExirq (k : Gen) : Statement (.ackReadExirq k) := by
  intro _
  exact decode_encC148 false (by decide) k _ _

theorem ackReadPosirq (k : Gen) : Statement (.ackReadPosirq k) := by
  intro _
  exact decode_encC148 false (by decide) k _ _

theorem ackReadScirq (k : Gen) : Statement (.ackReadScirq k) := by
  intro _
  exact decode_encC148 false (by decide) k _ _

theorem ackReadVblank (k : Gen) : Statement (.ackReadVblank k) := by
  intro _
  exact decode_encC148 false (by decide) k _ _

theorem eepromRdy (k : Gen) : Statement (.eepromRdy k) := by
  intro _
  exact decode_encC148 false (by decide) k _ _

theorem eepromRdyWr (k : Gen) : Statement (.eepromRdyWr k) := by
  intro _
  exact decode_encC148 true (by decide) k _ _

theorem rstsndWr (k : Gen) (v : Word) (m : Lanes) : Statement (.rstsndWr k v m) := by
  intro _
  exact decode_encC148 true (by decide) k _ _

theorem rstslvWr (k : Gen) (v : Word) (m : Lanes) : Statement (.rstslvWr k v m) := by
  intro _
  exact decode_encC148 true (by decide) k _ _

theorem rstsndRd (k : Gen) : Statement (.rstsndRd k) := by
  intro _
  exact decode_encC148 false (by decide) k _ _

theorem rstslvRd (k : Gen) : Statement (.rstslvRd k) := by
  intro _
  exact decode_encC148 false (by decide) k _ _

theorem wdtKick (k : Gen) (wr : Bool) : Statement (.wdtKick k wr) := by
  intro _
  exact decode_encC148 wr (by decide) k _ _

theorem c148RsvdS01 (k : Gen) (wr : Bool) (s : BitVec 1) : Statement (.c148RsvdS01 k wr s) := by
  intro _
  have hs : ∀ s : BitVec 1, s = 0 ∨ s = 1 := by decide
  obtain rfl | rfl := hs s
  all_goals exact decode_encC148 wr (by decide) k _ _

theorem c148RsvdS2 (k : Gen) (wr : Bool) : Statement (.c148RsvdS2 k wr) := by
  intro _
  exact decode_encC148 wr (by decide) k _ _

theorem c148RsvdS89 (k : Gen) (wr : Bool) (s : BitVec 1) : Statement (.c148RsvdS89 k wr s) := by
  intro _
  have hs : ∀ s : BitVec 1, s = 0 ∨ s = 1 := by decide
  obtain rfl | rfl := hs s
  all_goals exact decode_encC148 wr (by decide) k _ _

theorem c148RsvdRdS10 (k : Gen) : Statement (.c148RsvdRdS10 k) := by
  intro _
  exact decode_encC148 false (by decide) k _ _

theorem c148RsvdS2023 (k : Gen) (wr : Bool) (s : BitVec 2) : Statement (.c148RsvdS2023 k wr s) := by
  intro _
  have hs : ∀ s : BitVec 2, s = 0 ∨ s = 1 ∨ s = 2 ∨ s = 3 := by decide
  obtain rfl | rfl | rfl | rfl := hs s
  all_goals exact decode_encC148 wr (by decide) k _ _

theorem c148RsvdS2431 (k : Gen) (wr : Bool) (s : BitVec 3) : Statement (.c148RsvdS2431 k wr s) := by
  intro _
  have hs : ∀ s : BitVec 3, s = 0 ∨ s = 1 ∨ s = 2 ∨ s = 3 ∨ s = 4 ∨ s = 5 ∨ s = 6 ∨ s = 7 := by decide
  obtain rfl | rfl | rfl | rfl | rfl | rfl | rfl | rfl := hs s
  all_goals exact decode_encC148 wr (by decide) k _ _

theorem tileWr (l : Layer) (t : Word) (v : Word) (m : Lanes) : Statement (.tileWr l t v m) := by
  intro _
  exact decode_encVid_reg true (.tile l t) .master v m

theorem scrollxWr (l : Layer) (v : Word) (m : Lanes) : Statement (.scrollxWr l v m) := by
  intro _
  exact decode_encVid_reg true (.scrollX l) .master v m

theorem scrollyWr (l : Layer) (v : Word) (m : Lanes) : Statement (.scrollyWr l v m) := by
  intro _
  exact decode_encVid_reg true (.scrollY l) .master v m

theorem bankWr (l : Layer) (v : Word) (m : Lanes) : Statement (.bankWr l v m) := by
  intro _
  exact decode_encVid_reg true (.bank l) .master v m

theorem lpriWr (l : Layer) (v : Word) (m : Lanes) : Statement (.lpriWr l v m) := by
  intro _
  exact decode_encVid_reg true (.pri l) .master v m

theorem flipWr (v : Word) (m : Lanes) : Statement (.flipWr v m) := by
  intro _
  exact decode_encVid_reg true (.flip) .master v m

theorem sprbankWr (v : Word) (m : Lanes) : Statement (.sprbankWr v m) := by
  intro _
  exact decode_encVid_reg true (.sprBank) .master v m

theorem rozctrlWr (p : Plane) (r : BitVec 3) (v : Word) (m : Lanes) : Statement (.rozctrlWr p r v m) := by
  intro _
  exact decode_encVid_reg true (.rozCtrl p r) .master v m

theorem rozpriWr (p : Plane) (v : Word) (m : Lanes) : Statement (.rozpriWr p v m) := by
  intro _
  exact decode_encVid_reg true (.rozPri p) .master v m

theorem vidRd (p : Proc) (r : VidReg) : Statement (.vidRd p r) := by
  intro _
  exact decode_encVid_reg false r p 0 .both

theorem vidRsvdK9 (p : Proc) (c : BitVec 9) : Statement (.vidRsvdK9 p c) := by
  intro h
  exact decode_vidRsvdK9 p c h

theorem vidRsvdKAB (p : Proc) (wr : Bool) (c : BitVec 5) : Statement (.vidRsvdKAB p wr c) := by
  intro _
  exact decode_vidRsvdKAB p wr c

theorem vidRsvdKCF (p : Proc) (wr : Bool) (c : BitVec 6) : Statement (.vidRsvdKCF p wr c) := by
  intro _
  exact decode_vidRsvdKCF p wr c

theorem evtRaiseVblank (k : Gen) : Statement (.evtRaiseVblank k) := by
  intro _
  cases k <;> exact decode_encEvt (by decide)

theorem evtRaisePosirq (k : Gen) : Statement (.evtRaisePosirq k) := by
  intro _
  cases k <;> exact decode_encEvt (by decide)

theorem evtRaiseExirq (k : Gen) : Statement (.evtRaiseExirq k) := by
  intro _
  cases k <;> exact decode_encEvt (by decide)

theorem evtRaiseScirq (k : Gen) : Statement (.evtRaiseScirq k) := by
  intro _
  cases k <;> exact decode_encEvt (by decide)

theorem evtRaiseCpuirq (k : Gen) : Statement (.evtRaiseCpuirq k) := by
  intro _
  cases k <;> exact decode_encEvt (by decide)

theorem evtRsvdSrc5 (k : Gen) : Statement (.evtRsvdSrc5 k) := by
  intro _
  cases k <;> exact decode_encEvt (by decide)

theorem evtRsvdSrc67 (c : BitVec 2) : Statement (.evtRsvdSrc67 c) := by
  intro _
  have h : ∀ c : BitVec 2, decode (encEvt 6 c.toNat) = .ok (.evtRsvdSrc67 c) := by decide
  exact h c

theorem slice : Statement .slice := by
  intro _
  exact decode_encSch (by decide)

theorem frameEnd : Statement .frameEnd := by
  intro _
  exact decode_encSch (by decide)

theorem machineReset : Statement .machineReset := by
  intro _
  exact decode_encSch (by decide)

theorem composite : Statement .composite := by
  intro _
  exact decode_encSch (by decide)

theorem palScan : Statement .palScan := by
  intro _
  exact decode_encSch (by decide)

theorem renderLayer (l : Layer) : Statement (.renderLayer l) := by
  intro _
  fin_cases l <;> exact decode_encSch (by decide)

theorem drawLayer (l : Layer) : Statement (.drawLayer l) := by
  intro _
  fin_cases l <;> exact decode_encSch (by decide)

theorem drawRoz (p : Plane) : Statement (.drawRoz p) := by
  intro _
  fin_cases p <;> exact decode_encSch (by decide)

theorem drawSprites (v : BitVec 4) : Statement (.drawSprites v) := by
  intro _
  have h : ∀ v : BitVec 4, decode (encSch (0x50 + v.toNat)) = .ok (.drawSprites v) := by decide
  exact h v

end Sys2Proof.Laws.EncodeRoundTrip
end

