-- ==== Sys2Proof/Laws/Router.lean ====
section
/-! SUPPORT. What a bus access can do, said once: which range an address resolves to, which accesses are refused, and
what no access changes. -/

namespace Sys2Proof.Machine

/-- The range registered last is looked at first (20_memory.md R82). -/
theorem resolve_append (table : List AddressRange) (R : AddressRange) (a : Nat) :
    resolve (table ++ [R]) a = if R.start ≤ a ∧ a ≤ R.stop then some R else resolve table a := by
  unfold resolve; rw [List.foldl_append]; rfl

/-- What an access leaves alone, and that it only adds to the outputs. -/
structure AccessFrame (s t : State) : Prop where
  pending : t.pending = s.pending
  cores : t.cores = s.cores
  slice : t.slice = s.slice
  frame : t.frame = s.frame
  turn : t.turn = s.turn
  fb : t.fb = s.fb
  phase : t.phase = s.phase
  out : ∃ os, t.out = s.out ++ os

theorem accessFrame_refl (s : State) : AccessFrame s s := ⟨rfl, rfl, rfl, rfl, rfl, rfl, rfl, [], by simp⟩

/-- What no access changes. -/
theorem access_frame {b : Board} {p : Proc} {o : BusAccess} {s t : State} (h : access b p o s = .ok t) : AccessFrame s t := by
  have hreg : ∀ r o v (s : State), AccessFrame s (regionWrite b r o v s) := by
    intro r o v s; rw [regionWrite_eq]; exact ⟨rfl, rfl, rfl, rfl, rfl, rfl, rfl, [], by simp⟩
  have htrans : ∀ {s t u : State}, AccessFrame s t → AccessFrame t u → AccessFrame s u := by
    rintro s t u ⟨a1,a2,a3,a4,a5,a6,a7,o,a8⟩ ⟨b1,b2,b3,b4,b5,b6,b7,o',b8⟩
    exact ⟨b1.trans a1, b2.trans a2, b3.trans a3, b4.trans a4, b5.trans a5, b6.trans a6, b7.trans a7, o ++ o',
      by rw [b8, a8, List.append_assoc]⟩
  have hraise : ∀ k src (s : State), AccessFrame s (raiseIrq k src s) := by
    intro k src s; rw [raiseIrq_eq]; exact ⟨rfl, rfl, rfl, rfl, rfl, rfl, rfl, _, raiseIrq_out k src s⟩
  have hack : ∀ k src (s : State), AccessFrame s (acknowledge k src s) := by
    intro k src s; rw [acknowledge_eq]; exact ⟨rfl, rfl, rfl, rfl, rfl, rfl, rfl, _, acknowledge_out k src s⟩
  have hemit : ∀ e (s : State), AccessFrame s (emit e s) := fun e s => ⟨rfl, rfl, rfl, rfl, rfl, rfl, rfl, [e], rfl⟩
  have hsame : ∀ {s t : State}, t.pending = s.pending → t.cores = s.cores → t.slice = s.slice → t.frame = s.frame →
      t.turn = s.turn → t.fb = s.fb → t.phase = s.phase → t.out = s.out → AccessFrame s t := by
    intro s t a1 a2 a3 a4 a5 a6 a7 a8; exact ⟨a1,a2,a3,a4,a5,a6,a7,[], by rw [a8]; simp⟩
  have hread : ∀ a w x off (s : State), AccessFrame s (readEffect b p a w x off s) := by
    intro a w x off s
    cases x with
    | openBus => exact hemit _ _
    | region R r base => exact accessFrame_refl _
    | c148 R k =>
      have hackr : ∀ src, AccessFrame s (ackRead b k src s) := by
        intro src; unfold ackRead; split
        · exact hack _ _ _
        · exact accessFrame_refl _
      show AccessFrame s (c148ReadEffect b k off s)
      unfold c148ReadEffect
      split <;> first | exact hackr _ | exact hsame rfl rfl rfl rfl rfl rfl rfl rfl
    | video R => exact accessFrame_refl _
    | peripheral R d => exact hsame rfl rfl rfl rfl rfl rfl rfl rfl
  have hhw : ∀ x off v m (s : State), AccessFrame s (handlerWrite b x off v m s) := by
    intro x off v m s
    cases x with
    | openBus => exact accessFrame_refl _
    | region R r base => exact accessFrame_refl _
    | c148 R k =>
      show AccessFrame s (c148Write b k off v m s)
      unfold c148Write
      split
      · exact hsame rfl rfl rfl rfl rfl rfl rfl rfl
      · exact hsame rfl rfl rfl rfl rfl rfl rfl rfl
      · exact hsame rfl rfl rfl rfl rfl rfl rfl rfl
      · exact hsame rfl rfl rfl rfl rfl rfl rfl rfl
      · exact hsame rfl rfl rfl rfl rfl rfl rfl rfl
      · exact hraise _ _ _
      · exact hack _ _ _
      · exact hack _ _ _
      · exact hack _ _ _
      · exact hack _ _ _
      · exact hack _ _ _
      · rw [rstSoundWrite_spec b k v m s _ rfl]; split
        · exact ⟨rfl, rfl, rfl, rfl, rfl, rfl, rfl, _, rfl⟩
        · exact accessFrame_refl _
      · rw [rstSlaveWrite_spec b k v m s _ rfl]; split
        · exact ⟨rfl, rfl, rfl, rfl, rfl, rfl, rfl, _, rfl⟩
        · exact accessFrame_refl _
      · exact hsame rfl rfl rfl rfl rfl rfl rfl rfl
      · exact accessFrame_refl _
    | video R =>
      show AccessFrame s (videoWrite b off v m s)
      unfold videoWrite
      split
      · rename_i r _
        cases r with
        | bank l =>
          show AccessFrame s (bankWrite b l v m s)
          unfold bankWrite
          dsimp only
          split <;> exact hsame rfl rfl rfl rfl rfl rfl rfl rfl
        | rozCtrl q i =>
          show AccessFrame s (rozCtrlWrite b q i v m s)
          unfold rozCtrlWrite
          split <;> exact hsame rfl rfl rfl rfl rfl rfl rfl rfl
        | rozPri q =>
          show AccessFrame s (rozPriWrite b q v m s)
          unfold rozPriWrite
          split <;> exact hsame rfl rfl rfl rfl rfl rfl rfl rfl
        | _ => exact hsame rfl rfl rfl rfl rfl rfl rfl rfl
      · exact accessFrame_refl _
    | peripheral R d =>
      show AccessFrame s (peripheralWrite b d off v m s)
      unfold peripheralWrite; simp only; split
      · exact ⟨rfl, rfl, rfl, rfl, rfl, rfl, rfl, _, rfl⟩
      · exact hemit _ _
  cases o with
  | rd8 a => cases h; exact htrans (hread _ _ _ _ _) (hemit _ _)
  | rd16 a =>
    simp only [access] at h; split at h
    · cases h
    · cases h; exact htrans (hread _ _ _ _ _) (hemit _ _)
  | ifetch a =>
    simp only [access] at h; split at h
    · split at h
      · cases h
      · cases h; exact htrans (hread _ _ _ _ _) (hemit _ _)
    · cases h; exact htrans (hread _ _ _ _ _) (hemit _ _)
  | wr8 a v =>
    cases h
    unfold busWrite8; simp only; split
    · exact hemit _ _
    · exact hreg _ _ _ _
    · exact hhw _ _ _ _ _
  | wr16 a v m =>
    simp only [access] at h; split at h
    · cases h
    · cases h
      unfold busWrite16; simp only; split
      · exact hemit _ _
      · cases m
        · exact htrans (hreg _ _ _ _) (hreg _ _ _ _)
        · exact hreg _ _ _ _
        · exact hreg _ _ _ _
      · exact hhw _ _ _ _ _

theorem legal16 (p : Proc) (a : Addr) : (!a.getLsbD 0 && (genOf p).isSome) = !refused16 p a := by
  unfold refused16
  cases genOf p <;> simp

/-- An access is refused exactly if it is not legal. -/
theorem access_legal (b : Board) (p : Proc) (o : BusAccess) (s : State) :
    (∃ t, access b p o s = .ok t) ↔ legalAccess p o = true := by
  cases o with
  | rd8 a => exact ⟨fun _ => rfl, fun _ => ⟨_, rfl⟩⟩
  | wr8 a v => exact ⟨fun _ => rfl, fun _ => ⟨_, rfl⟩⟩
  | rd16 a =>
    rw [show legalAccess p (.rd16 a) = !refused16 p a from legal16 p a]
    simp only [access]
    cases refused16 p a <;> simp
  | wr16 a v m =>
    rw [show legalAccess p (.wr16 a v m) = !refused16 p a from legal16 p a]
    simp only [access]
    cases refused16 p a <;> simp
  | ifetch a =>
    simp only [access, legalAccess]
    cases hg : genOf p with
    | none => simp
    | some k =>
      have h := legal16 p a
      rw [hg] at h
      simp only [Option.isSome_some, Bool.and_true] at h
      simp only [Option.isNone_some, Bool.or_false, h]
      cases refused16 p a <;> simp

/-- The selector of a C148 offset as a number (30_encoding.md R121). -/
theorem selector_toNat (off : Addr) : (selector off).toNat = off.toNat / 8192 % 32 := by
  unfold selector
  simp [BitVec.extractLsb', Nat.shiftRight_eq_div_pow]

end Sys2Proof.Machine
end

