-- ==== Sys2Proof/Laws/Scheduler.lean ====
section
/-! SUPPORT. What a turn and a round can do, said once (46_scheduler.md R372-R374). -/

namespace Sys2Proof.Machine

/-- The accesses of a turn are made where none of them is refused. -/
theorem runAccesses_ok (b : Board) (p : Proc) (os : List BusAccess) (s : State)
    (h : ∀ o ∈ os, legalAccess p o = true) : ∃ t rest, runAccesses b p os s = .ok (t, rest) := by
  induction os generalizing s with
  | nil => exact ⟨_, _, rfl⟩
  | cons o os ih =>
    obtain ⟨u, hu⟩ := (access_legal b p o s).mpr (h o (by simp))
    simp only [runAccesses, hu]
    split
    · exact ⟨_, _, rfl⟩
    · exact ih u (fun o ho => h o (by simp [ho]))

/-- What the accesses of a turn leave alone; those left unmade are the last ones. -/
theorem runAccesses_frame {b : Board} {p : Proc} {os rest : List BusAccess} {s t : State}
    (h : runAccesses b p os s = .ok (t, rest)) : AccessFrame s t ∧ ∃ made, os = made ++ rest := by
  induction os generalizing s with
  | nil => cases h; exact ⟨accessFrame_refl _, [], rfl⟩
  | cons o os ih =>
    simp only [runAccesses] at h
    split at h
    · cases h
    · rename_i u hu
      have hf := access_frame hu
      split at h
      · cases h; exact ⟨hf, [o], rfl⟩
      · obtain ⟨⟨a1,a2,a3,a4,a5,a6,a7,o1,a8⟩, made, hm⟩ := ih h
        obtain ⟨b1,b2,b3,b4,b5,b6,b7,o2,b8⟩ := hf
        refine ⟨⟨a1.trans b1, a2.trans b2, a3.trans b3, a4.trans b4, a5.trans b5, a6.trans b6, a7.trans b7, o2 ++ o1,
          by rw [a8, b8, List.append_assoc]⟩, o :: made, by rw [hm]; rfl⟩

theorem requeue_mem {rest os : List BusAccess} {ts : List (List BusAccess)} (h : os ∈ requeue rest ts) :
    os = rest ∨ os ∈ ts := by
  unfold requeue at h; split at h
  · exact Or.inr h
  · simpa using h

/-- What a turn does to the bookkeeping: the queues of the other cores stay, and what is left of the processor's own
turns is the end of one of them. -/
theorem runTurn_frame {b : Board} {p : Proc} {s t : State} (h : runTurn b p s = .ok t) :
    t.pending = s.pending ∧ t.slice = s.slice ∧ t.frame = s.frame ∧ t.phase = s.phase ∧ (∃ os, t.out = s.out ++ os)
    ∧ (∀ p', p' ≠ p → t.cores.get p' = s.cores.get p')
    ∧ (∀ os ∈ t.cores.get p, ∃ os' ∈ s.cores.get p, ∃ made, os' = made ++ os) := by
  have hself : ∀ os ∈ s.cores.get p, ∃ os' ∈ s.cores.get p, ∃ made : List BusAccess, os' = made ++ os := fun os h => ⟨os, h, [], rfl⟩
  unfold runTurn at h
  split at h
  · cases h; exact ⟨rfl, rfl, rfl, rfl, ⟨[], by simp⟩, fun _ _ => rfl, hself⟩
  · split at h
    · cases h; exact ⟨rfl, rfl, rfl, rfl, ⟨_, rfl⟩, fun _ _ => rfl, hself⟩
    · rename_i x ts hts
      split at h
      · cases h
      · rename_i s' rest hr
        cases h
        obtain ⟨⟨a1,a2,a3,a4,a5,a6,a7,o1,a8⟩, made, hm⟩ := runAccesses_frame hr
        refine ⟨a1, a3, a4, a7, ⟨.execute p (b.cyclesPerSlice p) :: o1, ?_⟩, ?_, ?_⟩
        · show s'.out = _; rw [a8]; simp [beginTurn, emit]
        · intro p' hp; simp only [perProc_get_set, if_neg hp, a2]; rfl
        · intro os hos
          simp only [perProc_get_set, if_true] at hos
          rw [hts]
          rcases requeue_mem hos with rfl | hos
          · exact ⟨x, by simp, made, hm⟩
          · exact ⟨os, by simp [hos], [], rfl⟩

/-- A turn is run where none of its accesses is refused. -/
theorem runTurn_ok (b : Board) (p : Proc) (s : State)
    (h : ∀ os ∈ (s.cores.get p).head?, ∀ o ∈ os, legalAccess p o = true) :
    ∃ t, runTurn b p s = .ok t := by
  unfold runTurn
  split
  · exact ⟨_, rfl⟩
  · split
    · exact ⟨_, rfl⟩
    · rename_i x ts hts
      rw [hts] at h
      obtain ⟨t, rest, ht⟩ := runAccesses_ok b p x (beginTurn b p s) (h x (by simp))
      rw [ht]; exact ⟨_, rfl⟩

/-- When a turn is over. -/
theorem turnEnds_iff {p : Proc} {s : State} : turnEnds p s = true ↔ s.turnOver = true ∨ held s p = true := by
  simp [turnEnds]

theorem turnEnds_false_iff {p : Proc} {s : State} : turnEnds p s = false ↔ s.turnOver = false ∧ held s p = false := by
  simp [turnEnds]

/-- The accesses a turn makes: all of them, or those up to a yield or a hold of the processor itself. -/
theorem runAccesses_performs {b : Board} {p : Proc} {os rest : List BusAccess} {s t : State} :
    runAccesses b p os s = .ok (t, rest) ↔ (rest = [] ∧ Performs b p os s t)
      ∨ (∃ made, rest ≠ [] ∧ os = made ++ rest ∧ made ≠ [] ∧ Performs b p made s t
        ∧ (t.turnOver = true ∨ held t p = true)) := by
  induction os generalizing s with
  | nil =>
    constructor
    · intro h; cases h; exact .inl ⟨rfl, .nil _⟩
    · rintro (⟨rfl, h⟩ | ⟨made, h1, h2, -, -, -⟩)
      · cases h; rfl
      · simp at h2; exact absurd h2.2 h1
  | cons o os ih =>
    simp only [runAccesses]
    cases hu : access b p o s with
    | error e =>
      simp only [reduceCtorEq, false_iff, not_or, not_exists, not_and]
      constructor
      · rintro - h; cases h <;> simp_all
      · intro made _ h2 h3 h4
        cases made with
        | nil => exact absurd rfl h3
        | cons o' made => simp at h2; cases h4 <;> simp_all
    | ok u =>
      simp only
      by_cases ht : turnEnds p u = true
      · rw [if_pos ht]
        have hno : ¬ (u.turnOver = false ∧ held u p = false) := fun h => by rw [turnEnds_false_iff.mpr h] at ht; cases ht
        have ht := turnEnds_iff.mp ht
        constructor
        · intro h; cases h
          cases rest with
          | nil => exact .inl ⟨rfl, .last _ _ _ hu ht⟩
          | cons r rs => exact .inr ⟨[o], by simp, rfl, by simp, .last _ _ _ hu ht, ht⟩
        · rintro (⟨rfl, h⟩ | ⟨made, h1, h2, h3, h4, h5⟩)
          · cases h with
            | last _ _ _ h _ => rw [hu] at h; cases h; rfl
            | cons _ _ _ u' _ h h' h'' _ => rw [hu] at h; cases h; exact absurd ⟨h', h''⟩ hno
          · cases h4 with
            | nil => exact absurd rfl h3
            | last o' _ _ h _ => simp at h2; obtain ⟨rfl, rfl⟩ := h2; rw [hu] at h; cases h; rfl
            | cons o' os' _ u' _ h h' h'' _ =>
              simp at h2; obtain ⟨rfl, _⟩ := h2; rw [hu] at h; cases h; exact absurd ⟨h', h''⟩ hno
      · rw [if_neg ht, ih]
        obtain ⟨ht', hh'⟩ := turnEnds_false_iff.mp (Bool.eq_false_iff.mpr ht)
        have ht := mt turnEnds_iff.mpr ht
        constructor
        · rintro (⟨rfl, h⟩ | ⟨made, h1, h2, h3, h4, h5⟩)
          · exact .inl ⟨rfl, .cons _ _ _ _ _ hu ht' hh' h⟩
          · exact .inr ⟨o :: made, h1, by rw [h2]; rfl, by simp, .cons _ _ _ _ _ hu ht' hh' h4, h5⟩
        · rintro (⟨rfl, h⟩ | ⟨made, h1, h2, h3, h4, h5⟩)
          · cases h with
            | last _ _ _ h h' => rw [hu] at h; cases h; exact absurd h' ht
            | cons _ _ _ u' _ h _ _ h'' => rw [hu] at h; cases h; exact .inl ⟨rfl, h''⟩
          · cases h4 with
            | nil => exact absurd rfl h3
            | last o' _ _ h h' => simp at h2; obtain ⟨rfl, rfl⟩ := h2; rw [hu] at h; cases h; exact absurd h' ht
            | cons o' os' _ u' _ h _ _ h'' =>
              simp at h2; obtain ⟨rfl, h2⟩ := h2; rw [hu] at h; cases h
              refine .inr ⟨os', h1, h2, ?_, h'', h5⟩
              rintro rfl; cases h''; exact ht h5

/-- The four turns of a round. -/
theorem sliceRound_iff {b : Board} {s t : State} : sliceRound b s = .ok t ↔ ∃ s1 s2 s3 s4,
    runTurn b .master s = .ok s1 ∧ runTurn b .slave s1 = .ok s2 ∧ runTurn b .sound s2 = .ok s3 ∧ runTurn b .io s3 = .ok s4
      ∧ t = { s4 with slice := s4.slice + 1 } := by
  unfold sliceRound roundOrder
  simp only [runTurns]
  constructor
  · intro h
    cases h1 : runTurn b .master s with
    | error e => rw [h1] at h; cases h
    | ok s1 =>
      rw [h1] at h; simp only at h
      cases h2 : runTurn b .slave s1 with
      | error e => rw [h2] at h; cases h
      | ok s2 =>
        rw [h2] at h; simp only at h
        cases h3 : runTurn b .sound s2 with
        | error e => rw [h3] at h; cases h
        | ok s3 =>
          rw [h3] at h; simp only at h
          cases h4 : runTurn b .io s3 with
          | error e => rw [h4] at h; cases h
          | ok s4 => rw [h4] at h; cases h; exact ⟨s1, s2, s3, s4, rfl, h2, h3, h4, rfl⟩
  · rintro ⟨s1, s2, s3, s4, h1, h2, h3, h4, rfl⟩; simp only [h1, h2, h3, h4]

end Sys2Proof.Machine
end

