-- ==== Sys2Proof/Laws/State.lean ====
section
/-! SUPPORT. One lemma for each field of State under each update: what the update leaves alone, and what it writes.
Every one is true by unfolding the update once, so that no later proof unfolds it. -/

namespace Sys2Proof.Machine

variable (s : State)

/-! ### emit -/

@[simp] theorem emit_pending (e : Output) : (emit e s).pending = s.pending := rfl
@[simp] theorem emit_cores (e : Output) : (emit e s).cores = s.cores := rfl
@[simp] theorem emit_out (e : Output) : (emit e s).out = s.out ++ [e] := rfl
@[simp] theorem emit_turnOver (e : Output) : (emit e s).turnOver = s.turnOver := rfl
@[simp] theorem emit_draws (e : Output) : (emit e s).draws = s.draws := rfl
@[simp] theorem emit_irqPin (e : Output) : (emit e s).irqPin = s.irqPin := rfl
@[simp] theorem emit_rstPin (e : Output) : (emit e s).rstPin = s.rstPin := rfl
@[simp] theorem emit_c148 (e : Output) : (emit e s).c148 = s.c148 := rfl
@[simp] theorem emit_rstSound (e : Output) : (emit e s).rstSound = s.rstSound := rfl
@[simp] theorem emit_rstSlaveIO (e : Output) : (emit e s).rstSlaveIO = s.rstSlaveIO := rfl
@[simp] theorem emit_wdt (e : Output) : (emit e s).wdt = s.wdt := rfl
@[simp] theorem emit_mem (e : Output) : (emit e s).mem = s.mem := rfl
@[simp] theorem emit_layers (e : Output) : (emit e s).layers = s.layers := rfl
@[simp] theorem emit_flip (e : Output) : (emit e s).flip = s.flip := rfl
@[simp] theorem emit_sprBank (e : Output) : (emit e s).sprBank = s.sprBank := rfl
@[simp] theorem emit_rozBus (e : Output) : (emit e s).rozBus = s.rozBus := rfl
@[simp] theorem emit_rozPri (e : Output) : (emit e s).rozPri = s.rozPri := rfl
@[simp] theorem emit_visible (e : Output) : (emit e s).visible = s.visible := rfl
@[simp] theorem emit_prevRGB (e : Output) : (emit e s).prevRGB = s.prevRGB := rfl
@[simp] theorem emit_colourTable (e : Output) : (emit e s).colourTable = s.colourTable := rfl
@[simp] theorem emit_fb (e : Output) : (emit e s).fb = s.fb := rfl
@[simp] theorem emit_phase (e : Output) : (emit e s).phase = s.phase := rfl
@[simp] theorem emit_frame (e : Output) : (emit e s).frame = s.frame := rfl
@[simp] theorem emit_slice (e : Output) : (emit e s).slice = s.slice := rfl
@[simp] theorem emit_turn (e : Output) : (emit e s).turn = s.turn := rfl
@[simp] theorem emit_analogLatch (e : Output) : (emit e s).analogLatch = s.analogLatch := rfl
@[simp] theorem emit_analogDone (e : Output) : (emit e s).analogDone = s.analogDone := rfl

/-! ### driveIrq -/

@[simp] theorem driveIrq_pending (k : Gen) (L : BitVec 3) (v : Bool) : (driveIrq k L v s).pending = s.pending := rfl
@[simp] theorem driveIrq_cores (k : Gen) (L : BitVec 3) (v : Bool) : (driveIrq k L v s).cores = s.cores := rfl
@[simp] theorem driveIrq_out (k : Gen) (L : BitVec 3) (v : Bool) : (driveIrq k L v s).out = s.out ++ [.irqLine k L v] := rfl
@[simp] theorem driveIrq_turnOver (k : Gen) (L : BitVec 3) (v : Bool) : (driveIrq k L v s).turnOver = s.turnOver := rfl
@[simp] theorem driveIrq_draws (k : Gen) (L : BitVec 3) (v : Bool) : (driveIrq k L v s).draws = s.draws := rfl
@[simp] theorem driveIrq_irqPin (k : Gen) (L : BitVec 3) (v : Bool) : (driveIrq k L v s).irqPin = s.irqPin.set k (setWire (s.irqPin.get k) L.toNat v) := rfl
@[simp] theorem driveIrq_rstPin (k : Gen) (L : BitVec 3) (v : Bool) : (driveIrq k L v s).rstPin = s.rstPin := rfl
@[simp] theorem driveIrq_c148 (k : Gen) (L : BitVec 3) (v : Bool) : (driveIrq k L v s).c148 = s.c148 := rfl
@[simp] theorem driveIrq_rstSound (k : Gen) (L : BitVec 3) (v : Bool) : (driveIrq k L v s).rstSound = s.rstSound := rfl
@[simp] theorem driveIrq_rstSlaveIO (k : Gen) (L : BitVec 3) (v : Bool) : (driveIrq k L v s).rstSlaveIO = s.rstSlaveIO := rfl
@[simp] theorem driveIrq_wdt (k : Gen) (L : BitVec 3) (v : Bool) : (driveIrq k L v s).wdt = s.wdt := rfl
@[simp] theorem driveIrq_mem (k : Gen) (L : BitVec 3) (v : Bool) : (driveIrq k L v s).mem = s.mem := rfl
@[simp] theorem driveIrq_layers (k : Gen) (L : BitVec 3) (v : Bool) : (driveIrq k L v s).layers = s.layers := rfl
@[simp] theorem driveIrq_flip (k : Gen) (L : BitVec 3) (v : Bool) : (driveIrq k L v s).flip = s.flip := rfl
@[simp] theorem driveIrq_sprBank (k : Gen) (L : BitVec 3) (v : Bool) : (driveIrq k L v s).sprBank = s.sprBank := rfl
@[simp] theorem driveIrq_rozBus (k : Gen) (L : BitVec 3) (v : Bool) : (driveIrq k L v s).rozBus = s.rozBus := rfl
@[simp] theorem driveIrq_rozPri (k : Gen) (L : BitVec 3) (v : Bool) : (driveIrq k L v s).rozPri = s.rozPri := rfl
@[simp] theorem driveIrq_visible (k : Gen) (L : BitVec 3) (v : Bool) : (driveIrq k L v s).visible = s.visible := rfl
@[simp] theorem driveIrq_prevRGB (k : Gen) (L : BitVec 3) (v : Bool) : (driveIrq k L v s).prevRGB = s.prevRGB := rfl
@[simp] theorem driveIrq_colourTable (k : Gen) (L : BitVec 3) (v : Bool) : (driveIrq k L v s).colourTable = s.colourTable := rfl
@[simp] theorem driveIrq_fb (k : Gen) (L : BitVec 3) (v : Bool) : (driveIrq k L v s).fb = s.fb := rfl
@[simp] theorem driveIrq_phase (k : Gen) (L : BitVec 3) (v : Bool) : (driveIrq k L v s).phase = s.phase := rfl
@[simp] theorem driveIrq_frame (k : Gen) (L : BitVec 3) (v : Bool) : (driveIrq k L v s).frame = s.frame := rfl
@[simp] theorem driveIrq_slice (k : Gen) (L : BitVec 3) (v : Bool) : (driveIrq k L v s).slice = s.slice := rfl
@[simp] theorem driveIrq_turn (k : Gen) (L : BitVec 3) (v : Bool) : (driveIrq k L v s).turn = s.turn := rfl
@[simp] theorem driveIrq_analogLatch (k : Gen) (L : BitVec 3) (v : Bool) : (driveIrq k L v s).analogLatch = s.analogLatch := rfl
@[simp] theorem driveIrq_analogDone (k : Gen) (L : BitVec 3) (v : Bool) : (driveIrq k L v s).analogDone = s.analogDone := rfl

/-! ### driveReset -/

@[simp] theorem driveReset_pending (p : Proc) (v : Bool) : (driveReset p v s).pending = s.pending := rfl
@[simp] theorem driveReset_cores (p : Proc) (v : Bool) : (driveReset p v s).cores = s.cores := rfl
@[simp] theorem driveReset_out (p : Proc) (v : Bool) : (driveReset p v s).out = s.out ++ [.resetLine p v] := rfl
@[simp] theorem driveReset_turnOver (p : Proc) (v : Bool) : (driveReset p v s).turnOver = s.turnOver := rfl
@[simp] theorem driveReset_draws (p : Proc) (v : Bool) : (driveReset p v s).draws = s.draws := rfl
@[simp] theorem driveReset_irqPin (p : Proc) (v : Bool) : (driveReset p v s).irqPin = s.irqPin := rfl
@[simp] theorem driveReset_rstPin (p : Proc) (v : Bool) : (driveReset p v s).rstPin = s.rstPin.set p v := rfl
@[simp] theorem driveReset_c148 (p : Proc) (v : Bool) : (driveReset p v s).c148 = s.c148 := rfl
@[simp] theorem driveReset_rstSound (p : Proc) (v : Bool) : (driveReset p v s).rstSound = s.rstSound := rfl
@[simp] theorem driveReset_rstSlaveIO (p : Proc) (v : Bool) : (driveReset p v s).rstSlaveIO = s.rstSlaveIO := rfl
@[simp] theorem driveReset_wdt (p : Proc) (v : Bool) : (driveReset p v s).wdt = s.wdt := rfl
@[simp] theorem driveReset_mem (p : Proc) (v : Bool) : (driveReset p v s).mem = s.mem := rfl
@[simp] theorem driveReset_layers (p : Proc) (v : Bool) : (driveReset p v s).layers = s.layers := rfl
@[simp] theorem driveReset_flip (p : Proc) (v : Bool) : (driveReset p v s).flip = s.flip := rfl
@[simp] theorem driveReset_sprBank (p : Proc) (v : Bool) : (driveReset p v s).sprBank = s.sprBank := rfl
@[simp] theorem driveReset_rozBus (p : Proc) (v : Bool) : (driveReset p v s).rozBus = s.rozBus := rfl
@[simp] theorem driveReset_rozPri (p : Proc) (v : Bool) : (driveReset p v s).rozPri = s.rozPri := rfl
@[simp] theorem driveReset_visible (p : Proc) (v : Bool) : (driveReset p v s).visible = s.visible := rfl
@[simp] theorem driveReset_prevRGB (p : Proc) (v : Bool) : (driveReset p v s).prevRGB = s.prevRGB := rfl
@[simp] theorem driveReset_colourTable (p : Proc) (v : Bool) : (driveReset p v s).colourTable = s.colourTable := rfl
@[simp] theorem driveReset_fb (p : Proc) (v : Bool) : (driveReset p v s).fb = s.fb := rfl
@[simp] theorem driveReset_phase (p : Proc) (v : Bool) : (driveReset p v s).phase = s.phase := rfl
@[simp] theorem driveReset_frame (p : Proc) (v : Bool) : (driveReset p v s).frame = s.frame := rfl
@[simp] theorem driveReset_slice (p : Proc) (v : Bool) : (driveReset p v s).slice = s.slice := rfl
@[simp] theorem driveReset_turn (p : Proc) (v : Bool) : (driveReset p v s).turn = s.turn := rfl
@[simp] theorem driveReset_analogLatch (p : Proc) (v : Bool) : (driveReset p v s).analogLatch = s.analogLatch := rfl
@[simp] theorem driveReset_analogDone (p : Proc) (v : Bool) : (driveReset p v s).analogDone = s.analogDone := rfl

/-! ### yieldTurn -/

@[simp] theorem yieldTurn_pending (k : Gen) : (yieldTurn k s).pending = s.pending := rfl
@[simp] theorem yieldTurn_cores (k : Gen) : (yieldTurn k s).cores = s.cores := rfl
@[simp] theorem yieldTurn_out (k : Gen) : (yieldTurn k s).out = s.out ++ [.yield k] := rfl
@[simp] theorem yieldTurn_turnOver (k : Gen) : (yieldTurn k s).turnOver = true := rfl
@[simp] theorem yieldTurn_draws (k : Gen) : (yieldTurn k s).draws = s.draws := rfl
@[simp] theorem yieldTurn_irqPin (k : Gen) : (yieldTurn k s).irqPin = s.irqPin := rfl
@[simp] theorem yieldTurn_rstPin (k : Gen) : (yieldTurn k s).rstPin = s.rstPin := rfl
@[simp] theorem yieldTurn_c148 (k : Gen) : (yieldTurn k s).c148 = s.c148 := rfl
@[simp] theorem yieldTurn_rstSound (k : Gen) : (yieldTurn k s).rstSound = s.rstSound := rfl
@[simp] theorem yieldTurn_rstSlaveIO (k : Gen) : (yieldTurn k s).rstSlaveIO = s.rstSlaveIO := rfl
@[simp] theorem yieldTurn_wdt (k : Gen) : (yieldTurn k s).wdt = s.wdt := rfl
@[simp] theorem yieldTurn_mem (k : Gen) : (yieldTurn k s).mem = s.mem := rfl
@[simp] theorem yieldTurn_layers (k : Gen) : (yieldTurn k s).layers = s.layers := rfl
@[simp] theorem yieldTurn_flip (k : Gen) : (yieldTurn k s).flip = s.flip := rfl
@[simp] theorem yieldTurn_sprBank (k : Gen) : (yieldTurn k s).sprBank = s.sprBank := rfl
@[simp] theorem yieldTurn_rozBus (k : Gen) : (yieldTurn k s).rozBus = s.rozBus := rfl
@[simp] theorem yieldTurn_rozPri (k : Gen) : (yieldTurn k s).rozPri = s.rozPri := rfl
@[simp] theorem yieldTurn_visible (k : Gen) : (yieldTurn k s).visible = s.visible := rfl
@[simp] theorem yieldTurn_prevRGB (k : Gen) : (yieldTurn k s).prevRGB = s.prevRGB := rfl
@[simp] theorem yieldTurn_colourTable (k : Gen) : (yieldTurn k s).colourTable = s.colourTable := rfl
@[simp] theorem yieldTurn_fb (k : Gen) : (yieldTurn k s).fb = s.fb := rfl
@[simp] theorem yieldTurn_phase (k : Gen) : (yieldTurn k s).phase = s.phase := rfl
@[simp] theorem yieldTurn_frame (k : Gen) : (yieldTurn k s).frame = s.frame := rfl
@[simp] theorem yieldTurn_slice (k : Gen) : (yieldTurn k s).slice = s.slice := rfl
@[simp] theorem yieldTurn_turn (k : Gen) : (yieldTurn k s).turn = s.turn := rfl
@[simp] theorem yieldTurn_analogLatch (k : Gen) : (yieldTurn k s).analogLatch = s.analogLatch := rfl
@[simp] theorem yieldTurn_analogDone (k : Gen) : (yieldTurn k s).analogDone = s.analogDone := rfl

/-! ### return8 -/

@[simp] theorem return8_pending (p : Proc) (v : Byte) : (return8 p v s).pending = s.pending := rfl
@[simp] theorem return8_cores (p : Proc) (v : Byte) : (return8 p v s).cores = s.cores := rfl
@[simp] theorem return8_out (p : Proc) (v : Byte) : (return8 p v s).out = s.out ++ [.data8 p v] := rfl
@[simp] theorem return8_turnOver (p : Proc) (v : Byte) : (return8 p v s).turnOver = s.turnOver := rfl
@[simp] theorem return8_draws (p : Proc) (v : Byte) : (return8 p v s).draws = s.draws := rfl
@[simp] theorem return8_irqPin (p : Proc) (v : Byte) : (return8 p v s).irqPin = s.irqPin := rfl
@[simp] theorem return8_rstPin (p : Proc) (v : Byte) : (return8 p v s).rstPin = s.rstPin := rfl
@[simp] theorem return8_c148 (p : Proc) (v : Byte) : (return8 p v s).c148 = s.c148 := rfl
@[simp] theorem return8_rstSound (p : Proc) (v : Byte) : (return8 p v s).rstSound = s.rstSound := rfl
@[simp] theorem return8_rstSlaveIO (p : Proc) (v : Byte) : (return8 p v s).rstSlaveIO = s.rstSlaveIO := rfl
@[simp] theorem return8_wdt (p : Proc) (v : Byte) : (return8 p v s).wdt = s.wdt := rfl
@[simp] theorem return8_mem (p : Proc) (v : Byte) : (return8 p v s).mem = s.mem := rfl
@[simp] theorem return8_layers (p : Proc) (v : Byte) : (return8 p v s).layers = s.layers := rfl
@[simp] theorem return8_flip (p : Proc) (v : Byte) : (return8 p v s).flip = s.flip := rfl
@[simp] theorem return8_sprBank (p : Proc) (v : Byte) : (return8 p v s).sprBank = s.sprBank := rfl
@[simp] theorem return8_rozBus (p : Proc) (v : Byte) : (return8 p v s).rozBus = s.rozBus := rfl
@[simp] theorem return8_rozPri (p : Proc) (v : Byte) : (return8 p v s).rozPri = s.rozPri := rfl
@[simp] theorem return8_visible (p : Proc) (v : Byte) : (return8 p v s).visible = s.visible := rfl
@[simp] theorem return8_prevRGB (p : Proc) (v : Byte) : (return8 p v s).prevRGB = s.prevRGB := rfl
@[simp] theorem return8_colourTable (p : Proc) (v : Byte) : (return8 p v s).colourTable = s.colourTable := rfl
@[simp] theorem return8_fb (p : Proc) (v : Byte) : (return8 p v s).fb = s.fb := rfl
@[simp] theorem return8_phase (p : Proc) (v : Byte) : (return8 p v s).phase = s.phase := rfl
@[simp] theorem return8_frame (p : Proc) (v : Byte) : (return8 p v s).frame = s.frame := rfl
@[simp] theorem return8_slice (p : Proc) (v : Byte) : (return8 p v s).slice = s.slice := rfl
@[simp] theorem return8_turn (p : Proc) (v : Byte) : (return8 p v s).turn = s.turn := rfl
@[simp] theorem return8_analogLatch (p : Proc) (v : Byte) : (return8 p v s).analogLatch = s.analogLatch := rfl
@[simp] theorem return8_analogDone (p : Proc) (v : Byte) : (return8 p v s).analogDone = s.analogDone := rfl

/-! ### return16 -/

@[simp] theorem return16_pending (p : Proc) (v : Word) : (return16 p v s).pending = s.pending := rfl
@[simp] theorem return16_cores (p : Proc) (v : Word) : (return16 p v s).cores = s.cores := rfl
@[simp] theorem return16_out (p : Proc) (v : Word) : (return16 p v s).out = s.out ++ [.data16 p v] := rfl
@[simp] theorem return16_turnOver (p : Proc) (v : Word) : (return16 p v s).turnOver = s.turnOver := rfl
@[simp] theorem return16_draws (p : Proc) (v : Word) : (return16 p v s).draws = s.draws := rfl
@[simp] theorem return16_irqPin (p : Proc) (v : Word) : (return16 p v s).irqPin = s.irqPin := rfl
@[simp] theorem return16_rstPin (p : Proc) (v : Word) : (return16 p v s).rstPin = s.rstPin := rfl
@[simp] theorem return16_c148 (p : Proc) (v : Word) : (return16 p v s).c148 = s.c148 := rfl
@[simp] theorem return16_rstSound (p : Proc) (v : Word) : (return16 p v s).rstSound = s.rstSound := rfl
@[simp] theorem return16_rstSlaveIO (p : Proc) (v : Word) : (return16 p v s).rstSlaveIO = s.rstSlaveIO := rfl
@[simp] theorem return16_wdt (p : Proc) (v : Word) : (return16 p v s).wdt = s.wdt := rfl
@[simp] theorem return16_mem (p : Proc) (v : Word) : (return16 p v s).mem = s.mem := rfl
@[simp] theorem return16_layers (p : Proc) (v : Word) : (return16 p v s).layers = s.layers := rfl
@[simp] theorem return16_flip (p : Proc) (v : Word) : (return16 p v s).flip = s.flip := rfl
@[simp] theorem return16_sprBank (p : Proc) (v : Word) : (return16 p v s).sprBank = s.sprBank := rfl
@[simp] theorem return16_rozBus (p : Proc) (v : Word) : (return16 p v s).rozBus = s.rozBus := rfl
@[simp] theorem return16_rozPri (p : Proc) (v : Word) : (return16 p v s).rozPri = s.rozPri := rfl
@[simp] theorem return16_visible (p : Proc) (v : Word) : (return16 p v s).visible = s.visible := rfl
@[simp] theorem return16_prevRGB (p : Proc) (v : Word) : (return16 p v s).prevRGB = s.prevRGB := rfl
@[simp] theorem return16_colourTable (p : Proc) (v : Word) : (return16 p v s).colourTable = s.colourTable := rfl
@[simp] theorem return16_fb (p : Proc) (v : Word) : (return16 p v s).fb = s.fb := rfl
@[simp] theorem return16_phase (p : Proc) (v : Word) : (return16 p v s).phase = s.phase := rfl
@[simp] theorem return16_frame (p : Proc) (v : Word) : (return16 p v s).frame = s.frame := rfl
@[simp] theorem return16_slice (p : Proc) (v : Word) : (return16 p v s).slice = s.slice := rfl
@[simp] theorem return16_turn (p : Proc) (v : Word) : (return16 p v s).turn = s.turn := rfl
@[simp] theorem return16_analogLatch (p : Proc) (v : Word) : (return16 p v s).analogLatch = s.analogLatch := rfl
@[simp] theorem return16_analogDone (p : Proc) (v : Word) : (return16 p v s).analogDone = s.analogDone := rfl

/-! ### setOwner -/

@[simp] theorem setOwner_pending (k : Gen) (L : BitVec 3) (o : Option Source) : (setOwner k L o s).pending = s.pending := rfl
@[simp] theorem setOwner_cores (k : Gen) (L : BitVec 3) (o : Option Source) : (setOwner k L o s).cores = s.cores := rfl
@[simp] theorem setOwner_out (k : Gen) (L : BitVec 3) (o : Option Source) : (setOwner k L o s).out = s.out := rfl
@[simp] theorem setOwner_turnOver (k : Gen) (L : BitVec 3) (o : Option Source) : (setOwner k L o s).turnOver = s.turnOver := rfl
@[simp] theorem setOwner_draws (k : Gen) (L : BitVec 3) (o : Option Source) : (setOwner k L o s).draws = s.draws := rfl
@[simp] theorem setOwner_irqPin (k : Gen) (L : BitVec 3) (o : Option Source) : (setOwner k L o s).irqPin = s.irqPin := rfl
@[simp] theorem setOwner_rstPin (k : Gen) (L : BitVec 3) (o : Option Source) : (setOwner k L o s).rstPin = s.rstPin := rfl
@[simp] theorem setOwner_c148 (k : Gen) (L : BitVec 3) (o : Option Source) : (setOwner k L o s).c148 = s.c148.set k ((s.c148.get k).setOwner L o) := rfl
@[simp] theorem setOwner_rstSound (k : Gen) (L : BitVec 3) (o : Option Source) : (setOwner k L o s).rstSound = s.rstSound := rfl
@[simp] theorem setOwner_rstSlaveIO (k : Gen) (L : BitVec 3) (o : Option Source) : (setOwner k L o s).rstSlaveIO = s.rstSlaveIO := rfl
@[simp] theorem setOwner_wdt (k : Gen) (L : BitVec 3) (o : Option Source) : (setOwner k L o s).wdt = s.wdt := rfl
@[simp] theorem setOwner_mem (k : Gen) (L : BitVec 3) (o : Option Source) : (setOwner k L o s).mem = s.mem := rfl
@[simp] theorem setOwner_layers (k : Gen) (L : BitVec 3) (o : Option Source) : (setOwner k L o s).layers = s.layers := rfl
@[simp] theorem setOwner_flip (k : Gen) (L : BitVec 3) (o : Option Source) : (setOwner k L o s).flip = s.flip := rfl
@[simp] theorem setOwner_sprBank (k : Gen) (L : BitVec 3) (o : Option Source) : (setOwner k L o s).sprBank = s.sprBank := rfl
@[simp] theorem setOwner_rozBus (k : Gen) (L : BitVec 3) (o : Option Source) : (setOwner k L o s).rozBus = s.rozBus := rfl
@[simp] theorem setOwner_rozPri (k : Gen) (L : BitVec 3) (o : Option Source) : (setOwner k L o s).rozPri = s.rozPri := rfl
@[simp] theorem setOwner_visible (k : Gen) (L : BitVec 3) (o : Option Source) : (setOwner k L o s).visible = s.visible := rfl
@[simp] theorem setOwner_prevRGB (k : Gen) (L : BitVec 3) (o : Option Source) : (setOwner k L o s).prevRGB = s.prevRGB := rfl
@[simp] theorem setOwner_colourTable (k : Gen) (L : BitVec 3) (o : Option Source) : (setOwner k L o s).colourTable = s.colourTable := rfl
@[simp] theorem setOwner_fb (k : Gen) (L : BitVec 3) (o : Option Source) : (setOwner k L o s).fb = s.fb := rfl
@[simp] theorem setOwner_phase (k : Gen) (L : BitVec 3) (o : Option Source) : (setOwner k L o s).phase = s.phase := rfl
@[simp] theorem setOwner_frame (k : Gen) (L : BitVec 3) (o : Option Source) : (setOwner k L o s).frame = s.frame := rfl
@[simp] theorem setOwner_slice (k : Gen) (L : BitVec 3) (o : Option Source) : (setOwner k L o s).slice = s.slice := rfl
@[simp] theorem setOwner_turn (k : Gen) (L : BitVec 3) (o : Option Source) : (setOwner k L o s).turn = s.turn := rfl
@[simp] theorem setOwner_analogLatch (k : Gen) (L : BitVec 3) (o : Option Source) : (setOwner k L o s).analogLatch = s.analogLatch := rfl
@[simp] theorem setOwner_analogDone (k : Gen) (L : BitVec 3) (o : Option Source) : (setOwner k L o s).analogDone = s.analogDone := rfl

/-! ### writeByte -/

@[simp] theorem writeByte_pending (b : Board) (k : Bank) (o : Nat) (v : Byte) : (writeByte b k o v s).pending = s.pending := rfl
@[simp] theorem writeByte_cores (b : Board) (k : Bank) (o : Nat) (v : Byte) : (writeByte b k o v s).cores = s.cores := rfl
@[simp] theorem writeByte_out (b : Board) (k : Bank) (o : Nat) (v : Byte) : (writeByte b k o v s).out = s.out := rfl
@[simp] theorem writeByte_turnOver (b : Board) (k : Bank) (o : Nat) (v : Byte) : (writeByte b k o v s).turnOver = s.turnOver := rfl
@[simp] theorem writeByte_draws (b : Board) (k : Bank) (o : Nat) (v : Byte) : (writeByte b k o v s).draws = s.draws := rfl
@[simp] theorem writeByte_irqPin (b : Board) (k : Bank) (o : Nat) (v : Byte) : (writeByte b k o v s).irqPin = s.irqPin := rfl
@[simp] theorem writeByte_rstPin (b : Board) (k : Bank) (o : Nat) (v : Byte) : (writeByte b k o v s).rstPin = s.rstPin := rfl
@[simp] theorem writeByte_c148 (b : Board) (k : Bank) (o : Nat) (v : Byte) : (writeByte b k o v s).c148 = s.c148 := rfl
@[simp] theorem writeByte_rstSound (b : Board) (k : Bank) (o : Nat) (v : Byte) : (writeByte b k o v s).rstSound = s.rstSound := rfl
@[simp] theorem writeByte_rstSlaveIO (b : Board) (k : Bank) (o : Nat) (v : Byte) : (writeByte b k o v s).rstSlaveIO = s.rstSlaveIO := rfl
@[simp] theorem writeByte_wdt (b : Board) (k : Bank) (o : Nat) (v : Byte) : (writeByte b k o v s).wdt = s.wdt := rfl
@[simp] theorem writeByte_mem (b : Board) (k : Bank) (o : Nat) (v : Byte) : (writeByte b k o v s).mem = memWrite (initByte b) s.mem (key k o) v := rfl
@[simp] theorem writeByte_layers (b : Board) (k : Bank) (o : Nat) (v : Byte) : (writeByte b k o v s).layers = s.layers := rfl
@[simp] theorem writeByte_flip (b : Board) (k : Bank) (o : Nat) (v : Byte) : (writeByte b k o v s).flip = s.flip := rfl
@[simp] theorem writeByte_sprBank (b : Board) (k : Bank) (o : Nat) (v : Byte) : (writeByte b k o v s).sprBank = s.sprBank := rfl
@[simp] theorem writeByte_rozBus (b : Board) (k : Bank) (o : Nat) (v : Byte) : (writeByte b k o v s).rozBus = s.rozBus := rfl
@[simp] theorem writeByte_rozPri (b : Board) (k : Bank) (o : Nat) (v : Byte) : (writeByte b k o v s).rozPri = s.rozPri := rfl
@[simp] theorem writeByte_visible (b : Board) (k : Bank) (o : Nat) (v : Byte) : (writeByte b k o v s).visible = s.visible := rfl
@[simp] theorem writeByte_prevRGB (b : Board) (k : Bank) (o : Nat) (v : Byte) : (writeByte b k o v s).prevRGB = s.prevRGB := rfl
@[simp] theorem writeByte_colourTable (b : Board) (k : Bank) (o : Nat) (v : Byte) : (writeByte b k o v s).colourTable = s.colourTable := rfl
@[simp] theorem writeByte_fb (b : Board) (k : Bank) (o : Nat) (v : Byte) : (writeByte b k o v s).fb = s.fb := rfl
@[simp] theorem writeByte_phase (b : Board) (k : Bank) (o : Nat) (v : Byte) : (writeByte b k o v s).phase = s.phase := rfl
@[simp] theorem writeByte_frame (b : Board) (k : Bank) (o : Nat) (v : Byte) : (writeByte b k o v s).frame = s.frame := rfl
@[simp] theorem writeByte_slice (b : Board) (k : Bank) (o : Nat) (v : Byte) : (writeByte b k o v s).slice = s.slice := rfl
@[simp] theorem writeByte_turn (b : Board) (k : Bank) (o : Nat) (v : Byte) : (writeByte b k o v s).turn = s.turn := rfl
@[simp] theorem writeByte_analogLatch (b : Board) (k : Bank) (o : Nat) (v : Byte) : (writeByte b k o v s).analogLatch = s.analogLatch := rfl
@[simp] theorem writeByte_analogDone (b : Board) (k : Bank) (o : Nat) (v : Byte) : (writeByte b k o v s).analogDone = s.analogDone := rfl

/-! ### setLayer -/

@[simp] theorem setLayer_pending (l : Layer) (x : TileLayer) : (setLayer l x s).pending = s.pending := rfl
@[simp] theorem setLayer_cores (l : Layer) (x : TileLayer) : (setLayer l x s).cores = s.cores := rfl
@[simp] theorem setLayer_out (l : Layer) (x : TileLayer) : (setLayer l x s).out = s.out := rfl
@[simp] theorem setLayer_turnOver (l : Layer) (x : TileLayer) : (setLayer l x s).turnOver = s.turnOver := rfl
@[simp] theorem setLayer_draws (l : Layer) (x : TileLayer) : (setLayer l x s).draws = s.draws := rfl
@[simp] theorem setLayer_irqPin (l : Layer) (x : TileLayer) : (setLayer l x s).irqPin = s.irqPin := rfl
@[simp] theorem setLayer_rstPin (l : Layer) (x : TileLayer) : (setLayer l x s).rstPin = s.rstPin := rfl
@[simp] theorem setLayer_c148 (l : Layer) (x : TileLayer) : (setLayer l x s).c148 = s.c148 := rfl
@[simp] theorem setLayer_rstSound (l : Layer) (x : TileLayer) : (setLayer l x s).rstSound = s.rstSound := rfl
@[simp] theorem setLayer_rstSlaveIO (l : Layer) (x : TileLayer) : (setLayer l x s).rstSlaveIO = s.rstSlaveIO := rfl
@[simp] theorem setLayer_wdt (l : Layer) (x : TileLayer) : (setLayer l x s).wdt = s.wdt := rfl
@[simp] theorem setLayer_mem (l : Layer) (x : TileLayer) : (setLayer l x s).mem = s.mem := rfl
@[simp] theorem setLayer_layers (l : Layer) (x : TileLayer) : (setLayer l x s).layers = s.layers.set l.val x l.isLt := rfl
@[simp] theorem setLayer_flip (l : Layer) (x : TileLayer) : (setLayer l x s).flip = s.flip := rfl
@[simp] theorem setLayer_sprBank (l : Layer) (x : TileLayer) : (setLayer l x s).sprBank = s.sprBank := rfl
@[simp] theorem setLayer_rozBus (l : Layer) (x : TileLayer) : (setLayer l x s).rozBus = s.rozBus := rfl
@[simp] theorem setLayer_rozPri (l : Layer) (x : TileLayer) : (setLayer l x s).rozPri = s.rozPri := rfl
@[simp] theorem setLayer_visible (l : Layer) (x : TileLayer) : (setLayer l x s).visible = s.visible := rfl
@[simp] theorem setLayer_prevRGB (l : Layer) (x : TileLayer) : (setLayer l x s).prevRGB = s.prevRGB := rfl
@[simp] theorem setLayer_colourTable (l : Layer) (x : TileLayer) : (setLayer l x s).colourTable = s.colourTable := rfl
@[simp] theorem setLayer_fb (l : Layer) (x : TileLayer) : (setLayer l x s).fb = s.fb := rfl
@[simp] theorem setLayer_phase (l : Layer) (x : TileLayer) : (setLayer l x s).phase = s.phase := rfl
@[simp] theorem setLayer_frame (l : Layer) (x : TileLayer) : (setLayer l x s).frame = s.frame := rfl
@[simp] theorem setLayer_slice (l : Layer) (x : TileLayer) : (setLayer l x s).slice = s.slice := rfl
@[simp] theorem setLayer_turn (l : Layer) (x : TileLayer) : (setLayer l x s).turn = s.turn := rfl
@[simp] theorem setLayer_analogLatch (l : Layer) (x : TileLayer) : (setLayer l x s).analogLatch = s.analogLatch := rfl
@[simp] theorem setLayer_analogDone (l : Layer) (x : TileLayer) : (setLayer l x s).analogDone = s.analogDone := rfl

/-! ### watchdogKick -/

@[simp] theorem watchdogKick_pending : (watchdogKick s).pending = s.pending := rfl
@[simp] theorem watchdogKick_cores : (watchdogKick s).cores = s.cores := rfl
@[simp] theorem watchdogKick_out : (watchdogKick s).out = s.out := rfl
@[simp] theorem watchdogKick_turnOver : (watchdogKick s).turnOver = s.turnOver := rfl
@[simp] theorem watchdogKick_draws : (watchdogKick s).draws = s.draws := rfl
@[simp] theorem watchdogKick_irqPin : (watchdogKick s).irqPin = s.irqPin := rfl
@[simp] theorem watchdogKick_rstPin : (watchdogKick s).rstPin = s.rstPin := rfl
@[simp] theorem watchdogKick_c148 : (watchdogKick s).c148 = s.c148 := rfl
@[simp] theorem watchdogKick_rstSound : (watchdogKick s).rstSound = s.rstSound := rfl
@[simp] theorem watchdogKick_rstSlaveIO : (watchdogKick s).rstSlaveIO = s.rstSlaveIO := rfl
@[simp] theorem watchdogKick_wdt : (watchdogKick s).wdt = 0 := rfl
@[simp] theorem watchdogKick_mem : (watchdogKick s).mem = s.mem := rfl
@[simp] theorem watchdogKick_layers : (watchdogKick s).layers = s.layers := rfl
@[simp] theorem watchdogKick_flip : (watchdogKick s).flip = s.flip := rfl
@[simp] theorem watchdogKick_sprBank : (watchdogKick s).sprBank = s.sprBank := rfl
@[simp] theorem watchdogKick_rozBus : (watchdogKick s).rozBus = s.rozBus := rfl
@[simp] theorem watchdogKick_rozPri : (watchdogKick s).rozPri = s.rozPri := rfl
@[simp] theorem watchdogKick_visible : (watchdogKick s).visible = s.visible := rfl
@[simp] theorem watchdogKick_prevRGB : (watchdogKick s).prevRGB = s.prevRGB := rfl
@[simp] theorem watchdogKick_colourTable : (watchdogKick s).colourTable = s.colourTable := rfl
@[simp] theorem watchdogKick_fb : (watchdogKick s).fb = s.fb := rfl
@[simp] theorem watchdogKick_phase : (watchdogKick s).phase = s.phase := rfl
@[simp] theorem watchdogKick_frame : (watchdogKick s).frame = s.frame := rfl
@[simp] theorem watchdogKick_slice : (watchdogKick s).slice = s.slice := rfl
@[simp] theorem watchdogKick_turn : (watchdogKick s).turn = s.turn := rfl
@[simp] theorem watchdogKick_analogLatch : (watchdogKick s).analogLatch = s.analogLatch := rfl
@[simp] theorem watchdogKick_analogDone : (watchdogKick s).analogDone = s.analogDone := rfl

/-! ### sprBankWrite -/

@[simp] theorem sprBankWrite_pending (v : Word) (m : Lanes) : (sprBankWrite v m s).pending = s.pending := rfl
@[simp] theorem sprBankWrite_cores (v : Word) (m : Lanes) : (sprBankWrite v m s).cores = s.cores := rfl
@[simp] theorem sprBankWrite_out (v : Word) (m : Lanes) : (sprBankWrite v m s).out = s.out := rfl
@[simp] theorem sprBankWrite_turnOver (v : Word) (m : Lanes) : (sprBankWrite v m s).turnOver = s.turnOver := rfl
@[simp] theorem sprBankWrite_draws (v : Word) (m : Lanes) : (sprBankWrite v m s).draws = s.draws := rfl
@[simp] theorem sprBankWrite_irqPin (v : Word) (m : Lanes) : (sprBankWrite v m s).irqPin = s.irqPin := rfl
@[simp] theorem sprBankWrite_rstPin (v : Word) (m : Lanes) : (sprBankWrite v m s).rstPin = s.rstPin := rfl
@[simp] theorem sprBankWrite_c148 (v : Word) (m : Lanes) : (sprBankWrite v m s).c148 = s.c148 := rfl
@[simp] theorem sprBankWrite_rstSound (v : Word) (m : Lanes) : (sprBankWrite v m s).rstSound = s.rstSound := rfl
@[simp] theorem sprBankWrite_rstSlaveIO (v : Word) (m : Lanes) : (sprBankWrite v m s).rstSlaveIO = s.rstSlaveIO := rfl
@[simp] theorem sprBankWrite_wdt (v : Word) (m : Lanes) : (sprBankWrite v m s).wdt = s.wdt := rfl
@[simp] theorem sprBankWrite_mem (v : Word) (m : Lanes) : (sprBankWrite v m s).mem = s.mem := rfl
@[simp] theorem sprBankWrite_layers (v : Word) (m : Lanes) : (sprBankWrite v m s).layers = s.layers := rfl
@[simp] theorem sprBankWrite_flip (v : Word) (m : Lanes) : (sprBankWrite v m s).flip = s.flip := rfl
@[simp] theorem sprBankWrite_sprBank (v : Word) (m : Lanes) : (sprBankWrite v m s).sprBank = merge s.sprBank v m := rfl
@[simp] theorem sprBankWrite_rozBus (v : Word) (m : Lanes) : (sprBankWrite v m s).rozBus = s.rozBus := rfl
@[simp] theorem sprBankWrite_rozPri (v : Word) (m : Lanes) : (sprBankWrite v m s).rozPri = s.rozPri := rfl
@[simp] theorem sprBankWrite_visible (v : Word) (m : Lanes) : (sprBankWrite v m s).visible = s.visible := rfl
@[simp] theorem sprBankWrite_prevRGB (v : Word) (m : Lanes) : (sprBankWrite v m s).prevRGB = s.prevRGB := rfl
@[simp] theorem sprBankWrite_colourTable (v : Word) (m : Lanes) : (sprBankWrite v m s).colourTable = s.colourTable := rfl
@[simp] theorem sprBankWrite_fb (v : Word) (m : Lanes) : (sprBankWrite v m s).fb = s.fb := rfl
@[simp] theorem sprBankWrite_phase (v : Word) (m : Lanes) : (sprBankWrite v m s).phase = s.phase := rfl
@[simp] theorem sprBankWrite_frame (v : Word) (m : Lanes) : (sprBankWrite v m s).frame = s.frame := rfl
@[simp] theorem sprBankWrite_slice (v : Word) (m : Lanes) : (sprBankWrite v m s).slice = s.slice := rfl
@[simp] theorem sprBankWrite_turn (v : Word) (m : Lanes) : (sprBankWrite v m s).turn = s.turn := rfl
@[simp] theorem sprBankWrite_analogLatch (v : Word) (m : Lanes) : (sprBankWrite v m s).analogLatch = s.analogLatch := rfl
@[simp] theorem sprBankWrite_analogDone (v : Word) (m : Lanes) : (sprBankWrite v m s).analogDone = s.analogDone := rfl

/-! ### drawTiles -/

@[simp] theorem drawTiles_pending (b : Board) (l : Layer) : (drawTiles b l s).pending = s.pending := rfl
@[simp] theorem drawTiles_cores (b : Board) (l : Layer) : (drawTiles b l s).cores = s.cores := rfl
@[simp] theorem drawTiles_out (b : Board) (l : Layer) : (drawTiles b l s).out = s.out := rfl
@[simp] theorem drawTiles_turnOver (b : Board) (l : Layer) : (drawTiles b l s).turnOver = s.turnOver := rfl
@[simp] theorem drawTiles_draws (b : Board) (l : Layer) : (drawTiles b l s).draws = s.draws := rfl
@[simp] theorem drawTiles_irqPin (b : Board) (l : Layer) : (drawTiles b l s).irqPin = s.irqPin := rfl
@[simp] theorem drawTiles_rstPin (b : Board) (l : Layer) : (drawTiles b l s).rstPin = s.rstPin := rfl
@[simp] theorem drawTiles_c148 (b : Board) (l : Layer) : (drawTiles b l s).c148 = s.c148 := rfl
@[simp] theorem drawTiles_rstSound (b : Board) (l : Layer) : (drawTiles b l s).rstSound = s.rstSound := rfl
@[simp] theorem drawTiles_rstSlaveIO (b : Board) (l : Layer) : (drawTiles b l s).rstSlaveIO = s.rstSlaveIO := rfl
@[simp] theorem drawTiles_wdt (b : Board) (l : Layer) : (drawTiles b l s).wdt = s.wdt := rfl
@[simp] theorem drawTiles_mem (b : Board) (l : Layer) : (drawTiles b l s).mem = s.mem := rfl
@[simp] theorem drawTiles_layers (b : Board) (l : Layer) : (drawTiles b l s).layers = s.layers := rfl
@[simp] theorem drawTiles_flip (b : Board) (l : Layer) : (drawTiles b l s).flip = s.flip := rfl
@[simp] theorem drawTiles_sprBank (b : Board) (l : Layer) : (drawTiles b l s).sprBank = s.sprBank := rfl
@[simp] theorem drawTiles_rozBus (b : Board) (l : Layer) : (drawTiles b l s).rozBus = s.rozBus := rfl
@[simp] theorem drawTiles_rozPri (b : Board) (l : Layer) : (drawTiles b l s).rozPri = s.rozPri := rfl
@[simp] theorem drawTiles_visible (b : Board) (l : Layer) : (drawTiles b l s).visible = s.visible := rfl
@[simp] theorem drawTiles_prevRGB (b : Board) (l : Layer) : (drawTiles b l s).prevRGB = s.prevRGB := rfl
@[simp] theorem drawTiles_colourTable (b : Board) (l : Layer) : (drawTiles b l s).colourTable = s.colourTable := rfl
@[simp] theorem drawTiles_fb (b : Board) (l : Layer) : (drawTiles b l s).fb = overlay (layerPixel b s l) s.fb := rfl
@[simp] theorem drawTiles_phase (b : Board) (l : Layer) : (drawTiles b l s).phase = s.phase := rfl
@[simp] theorem drawTiles_frame (b : Board) (l : Layer) : (drawTiles b l s).frame = s.frame := rfl
@[simp] theorem drawTiles_slice (b : Board) (l : Layer) : (drawTiles b l s).slice = s.slice := rfl
@[simp] theorem drawTiles_turn (b : Board) (l : Layer) : (drawTiles b l s).turn = s.turn := rfl
@[simp] theorem drawTiles_analogLatch (b : Board) (l : Layer) : (drawTiles b l s).analogLatch = s.analogLatch := rfl
@[simp] theorem drawTiles_analogDone (b : Board) (l : Layer) : (drawTiles b l s).analogDone = s.analogDone := rfl

/-! ### drawSpritesAt -/

@[simp] theorem drawSpritesAt_pending (b : Board) (v : Nat) : (drawSpritesAt b v s).pending = s.pending := rfl
@[simp] theorem drawSpritesAt_cores (b : Board) (v : Nat) : (drawSpritesAt b v s).cores = s.cores := rfl
@[simp] theorem drawSpritesAt_out (b : Board) (v : Nat) : (drawSpritesAt b v s).out = s.out := rfl
@[simp] theorem drawSpritesAt_turnOver (b : Board) (v : Nat) : (drawSpritesAt b v s).turnOver = s.turnOver := rfl
@[simp] theorem drawSpritesAt_draws (b : Board) (v : Nat) : (drawSpritesAt b v s).draws = s.draws := rfl
@[simp] theorem drawSpritesAt_irqPin (b : Board) (v : Nat) : (drawSpritesAt b v s).irqPin = s.irqPin := rfl
@[simp] theorem drawSpritesAt_rstPin (b : Board) (v : Nat) : (drawSpritesAt b v s).rstPin = s.rstPin := rfl
@[simp] theorem drawSpritesAt_c148 (b : Board) (v : Nat) : (drawSpritesAt b v s).c148 = s.c148 := rfl
@[simp] theorem drawSpritesAt_rstSound (b : Board) (v : Nat) : (drawSpritesAt b v s).rstSound = s.rstSound := rfl
@[simp] theorem drawSpritesAt_rstSlaveIO (b : Board) (v : Nat) : (drawSpritesAt b v s).rstSlaveIO = s.rstSlaveIO := rfl
@[simp] theorem drawSpritesAt_wdt (b : Board) (v : Nat) : (drawSpritesAt b v s).wdt = s.wdt := rfl
@[simp] theorem drawSpritesAt_mem (b : Board) (v : Nat) : (drawSpritesAt b v s).mem = s.mem := rfl
@[simp] theorem drawSpritesAt_layers (b : Board) (v : Nat) : (drawSpritesAt b v s).layers = s.layers := rfl
@[simp] theorem drawSpritesAt_flip (b : Board) (v : Nat) : (drawSpritesAt b v s).flip = s.flip := rfl
@[simp] theorem drawSpritesAt_sprBank (b : Board) (v : Nat) : (drawSpritesAt b v s).sprBank = s.sprBank := rfl
@[simp] theorem drawSpritesAt_rozBus (b : Board) (v : Nat) : (drawSpritesAt b v s).rozBus = s.rozBus := rfl
@[simp] theorem drawSpritesAt_rozPri (b : Board) (v : Nat) : (drawSpritesAt b v s).rozPri = s.rozPri := rfl
@[simp] theorem drawSpritesAt_visible (b : Board) (v : Nat) : (drawSpritesAt b v s).visible = s.visible := rfl
@[simp] theorem drawSpritesAt_prevRGB (b : Board) (v : Nat) : (drawSpritesAt b v s).prevRGB = s.prevRGB := rfl
@[simp] theorem drawSpritesAt_colourTable (b : Board) (v : Nat) : (drawSpritesAt b v s).colourTable = s.colourTable := rfl
@[simp] theorem drawSpritesAt_fb (b : Board) (v : Nat) : (drawSpritesAt b v s).fb = b.spriteOrder.foldl (drawSlot b s v) s.fb := rfl
@[simp] theorem drawSpritesAt_phase (b : Board) (v : Nat) : (drawSpritesAt b v s).phase = s.phase := rfl
@[simp] theorem drawSpritesAt_frame (b : Board) (v : Nat) : (drawSpritesAt b v s).frame = s.frame := rfl
@[simp] theorem drawSpritesAt_slice (b : Board) (v : Nat) : (drawSpritesAt b v s).slice = s.slice := rfl
@[simp] theorem drawSpritesAt_turn (b : Board) (v : Nat) : (drawSpritesAt b v s).turn = s.turn := rfl
@[simp] theorem drawSpritesAt_analogLatch (b : Board) (v : Nat) : (drawSpritesAt b v s).analogLatch = s.analogLatch := rfl
@[simp] theorem drawSpritesAt_analogDone (b : Board) (v : Nat) : (drawSpritesAt b v s).analogDone = s.analogDone := rfl

/-! ### palScan -/

@[simp] theorem palScan_pending (b : Board) : (palScan b s).pending = s.pending := rfl
@[simp] theorem palScan_cores (b : Board) : (palScan b s).cores = s.cores := rfl
@[simp] theorem palScan_out (b : Board) : (palScan b s).out = s.out := rfl
@[simp] theorem palScan_turnOver (b : Board) : (palScan b s).turnOver = s.turnOver := rfl
@[simp] theorem palScan_draws (b : Board) : (palScan b s).draws = s.draws := rfl
@[simp] theorem palScan_irqPin (b : Board) : (palScan b s).irqPin = s.irqPin := rfl
@[simp] theorem palScan_rstPin (b : Board) : (palScan b s).rstPin = s.rstPin := rfl
@[simp] theorem palScan_c148 (b : Board) : (palScan b s).c148 = s.c148 := rfl
@[simp] theorem palScan_rstSound (b : Board) : (palScan b s).rstSound = s.rstSound := rfl
@[simp] theorem palScan_rstSlaveIO (b : Board) : (palScan b s).rstSlaveIO = s.rstSlaveIO := rfl
@[simp] theorem palScan_wdt (b : Board) : (palScan b s).wdt = s.wdt := rfl
@[simp] theorem palScan_mem (b : Board) : (palScan b s).mem = s.mem := rfl
@[simp] theorem palScan_layers (b : Board) : (palScan b s).layers = s.layers := rfl
@[simp] theorem palScan_flip (b : Board) : (palScan b s).flip = s.flip := rfl
@[simp] theorem palScan_sprBank (b : Board) : (palScan b s).sprBank = s.sprBank := rfl
@[simp] theorem palScan_rozBus (b : Board) : (palScan b s).rozBus = s.rozBus := rfl
@[simp] theorem palScan_rozPri (b : Board) : (palScan b s).rozPri = s.rozPri := rfl
@[simp] theorem palScan_visible (b : Board) : (palScan b s).visible = setWire (markPens (framePens b s)) 0 false := rfl
@[simp] theorem palScan_prevRGB (b : Board) : (palScan b s).prevRGB = s.prevRGB := rfl
@[simp] theorem palScan_colourTable (b : Board) : (palScan b s).colourTable = s.colourTable := rfl
@[simp] theorem palScan_fb (b : Board) : (palScan b s).fb = s.fb := rfl
@[simp] theorem palScan_phase (b : Board) : (palScan b s).phase = s.phase := rfl
@[simp] theorem palScan_frame (b : Board) : (palScan b s).frame = s.frame := rfl
@[simp] theorem palScan_slice (b : Board) : (palScan b s).slice = s.slice := rfl
@[simp] theorem palScan_turn (b : Board) : (palScan b s).turn = s.turn := rfl
@[simp] theorem palScan_analogLatch (b : Board) : (palScan b s).analogLatch = s.analogLatch := rfl
@[simp] theorem palScan_analogDone (b : Board) : (palScan b s).analogDone = s.analogDone := rfl

/-! ### clearFrame -/

@[simp] theorem clearFrame_pending : (clearFrame s).pending = s.pending := rfl
@[simp] theorem clearFrame_cores : (clearFrame s).cores = s.cores := rfl
@[simp] theorem clearFrame_out : (clearFrame s).out = s.out := rfl
@[simp] theorem clearFrame_turnOver : (clearFrame s).turnOver = s.turnOver := rfl
@[simp] theorem clearFrame_draws : (clearFrame s).draws = s.draws := rfl
@[simp] theorem clearFrame_irqPin : (clearFrame s).irqPin = s.irqPin := rfl
@[simp] theorem clearFrame_rstPin : (clearFrame s).rstPin = s.rstPin := rfl
@[simp] theorem clearFrame_c148 : (clearFrame s).c148 = s.c148 := rfl
@[simp] theorem clearFrame_rstSound : (clearFrame s).rstSound = s.rstSound := rfl
@[simp] theorem clearFrame_rstSlaveIO : (clearFrame s).rstSlaveIO = s.rstSlaveIO := rfl
@[simp] theorem clearFrame_wdt : (clearFrame s).wdt = s.wdt := rfl
@[simp] theorem clearFrame_mem : (clearFrame s).mem = s.mem := rfl
@[simp] theorem clearFrame_layers : (clearFrame s).layers = s.layers := rfl
@[simp] theorem clearFrame_flip : (clearFrame s).flip = s.flip := rfl
@[simp] theorem clearFrame_sprBank : (clearFrame s).sprBank = s.sprBank := rfl
@[simp] theorem clearFrame_rozBus : (clearFrame s).rozBus = s.rozBus := rfl
@[simp] theorem clearFrame_rozPri : (clearFrame s).rozPri = s.rozPri := rfl
@[simp] theorem clearFrame_visible : (clearFrame s).visible = s.visible := rfl
@[simp] theorem clearFrame_prevRGB : (clearFrame s).prevRGB = s.prevRGB := rfl
@[simp] theorem clearFrame_colourTable : (clearFrame s).colourTable = s.colourTable := rfl
@[simp] theorem clearFrame_fb : (clearFrame s).fb = grid screenW screenH fun _ _ => 0 := rfl
@[simp] theorem clearFrame_phase : (clearFrame s).phase = .init := rfl
@[simp] theorem clearFrame_frame : (clearFrame s).frame = s.frame := rfl
@[simp] theorem clearFrame_slice : (clearFrame s).slice = s.slice := rfl
@[simp] theorem clearFrame_turn : (clearFrame s).turn = s.turn := rfl
@[simp] theorem clearFrame_analogLatch : (clearFrame s).analogLatch = s.analogLatch := rfl
@[simp] theorem clearFrame_analogDone : (clearFrame s).analogDone = s.analogDone := rfl

/-! ### outputFrame -/

@[simp] theorem outputFrame_pending : (outputFrame s).pending = s.pending := rfl
@[simp] theorem outputFrame_cores : (outputFrame s).cores = s.cores := rfl
@[simp] theorem outputFrame_out : (outputFrame s).out = s.out ++ [.frame (indexFrame s) (rgbFrame s)] := rfl
@[simp] theorem outputFrame_turnOver : (outputFrame s).turnOver = s.turnOver := rfl
@[simp] theorem outputFrame_draws : (outputFrame s).draws = s.draws := rfl
@[simp] theorem outputFrame_irqPin : (outputFrame s).irqPin = s.irqPin := rfl
@[simp] theorem outputFrame_rstPin : (outputFrame s).rstPin = s.rstPin := rfl
@[simp] theorem outputFrame_c148 : (outputFrame s).c148 = s.c148 := rfl
@[simp] theorem outputFrame_rstSound : (outputFrame s).rstSound = s.rstSound := rfl
@[simp] theorem outputFrame_rstSlaveIO : (outputFrame s).rstSlaveIO = s.rstSlaveIO := rfl
@[simp] theorem outputFrame_wdt : (outputFrame s).wdt = s.wdt := rfl
@[simp] theorem outputFrame_mem : (outputFrame s).mem = s.mem := rfl
@[simp] theorem outputFrame_layers : (outputFrame s).layers = s.layers := rfl
@[simp] theorem outputFrame_flip : (outputFrame s).flip = s.flip := rfl
@[simp] theorem outputFrame_sprBank : (outputFrame s).sprBank = s.sprBank := rfl
@[simp] theorem outputFrame_rozBus : (outputFrame s).rozBus = s.rozBus := rfl
@[simp] theorem outputFrame_rozPri : (outputFrame s).rozPri = s.rozPri := rfl
@[simp] theorem outputFrame_visible : (outputFrame s).visible = s.visible := rfl
@[simp] theorem outputFrame_prevRGB : (outputFrame s).prevRGB = s.prevRGB := rfl
@[simp] theorem outputFrame_colourTable : (outputFrame s).colourTable = s.colourTable := rfl
@[simp] theorem outputFrame_fb : (outputFrame s).fb = s.fb := rfl
@[simp] theorem outputFrame_phase : (outputFrame s).phase = s.phase := rfl
@[simp] theorem outputFrame_frame : (outputFrame s).frame = s.frame := rfl
@[simp] theorem outputFrame_slice : (outputFrame s).slice = s.slice := rfl
@[simp] theorem outputFrame_turn : (outputFrame s).turn = s.turn := rfl
@[simp] theorem outputFrame_analogLatch : (outputFrame s).analogLatch = s.analogLatch := rfl
@[simp] theorem outputFrame_analogDone : (outputFrame s).analogDone = s.analogDone := rfl

/-! ### beginTurn -/

@[simp] theorem beginTurn_pending (b : Board) (p : Proc) : (beginTurn b p s).pending = s.pending := rfl
@[simp] theorem beginTurn_cores (b : Board) (p : Proc) : (beginTurn b p s).cores = s.cores := rfl
@[simp] theorem beginTurn_out (b : Board) (p : Proc) : (beginTurn b p s).out = s.out ++ [.execute p (b.cyclesPerSlice p)] := rfl
@[simp] theorem beginTurn_turnOver (b : Board) (p : Proc) : (beginTurn b p s).turnOver = false := rfl
@[simp] theorem beginTurn_draws (b : Board) (p : Proc) : (beginTurn b p s).draws = s.draws := rfl
@[simp] theorem beginTurn_irqPin (b : Board) (p : Proc) : (beginTurn b p s).irqPin = s.irqPin := rfl
@[simp] theorem beginTurn_rstPin (b : Board) (p : Proc) : (beginTurn b p s).rstPin = s.rstPin := rfl
@[simp] theorem beginTurn_c148 (b : Board) (p : Proc) : (beginTurn b p s).c148 = s.c148 := rfl
@[simp] theorem beginTurn_rstSound (b : Board) (p : Proc) : (beginTurn b p s).rstSound = s.rstSound := rfl
@[simp] theorem beginTurn_rstSlaveIO (b : Board) (p : Proc) : (beginTurn b p s).rstSlaveIO = s.rstSlaveIO := rfl
@[simp] theorem beginTurn_wdt (b : Board) (p : Proc) : (beginTurn b p s).wdt = s.wdt := rfl
@[simp] theorem beginTurn_mem (b : Board) (p : Proc) : (beginTurn b p s).mem = s.mem := rfl
@[simp] theorem beginTurn_layers (b : Board) (p : Proc) : (beginTurn b p s).layers = s.layers := rfl
@[simp] theorem beginTurn_flip (b : Board) (p : Proc) : (beginTurn b p s).flip = s.flip := rfl
@[simp] theorem beginTurn_sprBank (b : Board) (p : Proc) : (beginTurn b p s).sprBank = s.sprBank := rfl
@[simp] theorem beginTurn_rozBus (b : Board) (p : Proc) : (beginTurn b p s).rozBus = s.rozBus := rfl
@[simp] theorem beginTurn_rozPri (b : Board) (p : Proc) : (beginTurn b p s).rozPri = s.rozPri := rfl
@[simp] theorem beginTurn_visible (b : Board) (p : Proc) : (beginTurn b p s).visible = s.visible := rfl
@[simp] theorem beginTurn_prevRGB (b : Board) (p : Proc) : (beginTurn b p s).prevRGB = s.prevRGB := rfl
@[simp] theorem beginTurn_colourTable (b : Board) (p : Proc) : (beginTurn b p s).colourTable = s.colourTable := rfl
@[simp] theorem beginTurn_fb (b : Board) (p : Proc) : (beginTurn b p s).fb = s.fb := rfl
@[simp] theorem beginTurn_phase (b : Board) (p : Proc) : (beginTurn b p s).phase = s.phase := rfl
@[simp] theorem beginTurn_frame (b : Board) (p : Proc) : (beginTurn b p s).frame = s.frame := rfl
@[simp] theorem beginTurn_slice (b : Board) (p : Proc) : (beginTurn b p s).slice = s.slice := rfl
@[simp] theorem beginTurn_turn (b : Board) (p : Proc) : (beginTurn b p s).turn = p := rfl
@[simp] theorem beginTurn_analogLatch (b : Board) (p : Proc) : (beginTurn b p s).analogLatch = s.analogLatch := rfl
@[simp] theorem beginTurn_analogDone (b : Board) (p : Proc) : (beginTurn b p s).analogDone = s.analogDone := rfl

/-! ### takeOp -/

@[simp] theorem takeOp_pending (rest : List OpWord) : (takeOp s rest).pending = rest := rfl
@[simp] theorem takeOp_cores (rest : List OpWord) : (takeOp s rest).cores = s.cores := rfl
@[simp] theorem takeOp_out (rest : List OpWord) : (takeOp s rest).out = [] := rfl
@[simp] theorem takeOp_turnOver (rest : List OpWord) : (takeOp s rest).turnOver = s.turnOver := rfl
@[simp] theorem takeOp_draws (rest : List OpWord) : (takeOp s rest).draws = s.draws := rfl
@[simp] theorem takeOp_irqPin (rest : List OpWord) : (takeOp s rest).irqPin = s.irqPin := rfl
@[simp] theorem takeOp_rstPin (rest : List OpWord) : (takeOp s rest).rstPin = s.rstPin := rfl
@[simp] theorem takeOp_c148 (rest : List OpWord) : (takeOp s rest).c148 = s.c148 := rfl
@[simp] theorem takeOp_rstSound (rest : List OpWord) : (takeOp s rest).rstSound = s.rstSound := rfl
@[simp] theorem takeOp_rstSlaveIO (rest : List OpWord) : (takeOp s rest).rstSlaveIO = s.rstSlaveIO := rfl
@[simp] theorem takeOp_wdt (rest : List OpWord) : (takeOp s rest).wdt = s.wdt := rfl
@[simp] theorem takeOp_mem (rest : List OpWord) : (takeOp s rest).mem = s.mem := rfl
@[simp] theorem takeOp_layers (rest : List OpWord) : (takeOp s rest).layers = s.layers := rfl
@[simp] theorem takeOp_flip (rest : List OpWord) : (takeOp s rest).flip = s.flip := rfl
@[simp] theorem takeOp_sprBank (rest : List OpWord) : (takeOp s rest).sprBank = s.sprBank := rfl
@[simp] theorem takeOp_rozBus (rest : List OpWord) : (takeOp s rest).rozBus = s.rozBus := rfl
@[simp] theorem takeOp_rozPri (rest : List OpWord) : (takeOp s rest).rozPri = s.rozPri := rfl
@[simp] theorem takeOp_visible (rest : List OpWord) : (takeOp s rest).visible = s.visible := rfl
@[simp] theorem takeOp_prevRGB (rest : List OpWord) : (takeOp s rest).prevRGB = s.prevRGB := rfl
@[simp] theorem takeOp_colourTable (rest : List OpWord) : (takeOp s rest).colourTable = s.colourTable := rfl
@[simp] theorem takeOp_fb (rest : List OpWord) : (takeOp s rest).fb = s.fb := rfl
@[simp] theorem takeOp_phase (rest : List OpWord) : (takeOp s rest).phase = s.phase := rfl
@[simp] theorem takeOp_frame (rest : List OpWord) : (takeOp s rest).frame = s.frame := rfl
@[simp] theorem takeOp_slice (rest : List OpWord) : (takeOp s rest).slice = s.slice := rfl
@[simp] theorem takeOp_turn (rest : List OpWord) : (takeOp s rest).turn = s.turn := rfl
@[simp] theorem takeOp_analogLatch (rest : List OpWord) : (takeOp s rest).analogLatch = s.analogLatch := rfl
@[simp] theorem takeOp_analogDone (rest : List OpWord) : (takeOp s rest).analogDone = s.analogDone := rfl

/-! ### withFetchWord -/

@[simp] theorem withFetchWord_pending (nbits w : Nat) : (s.withFetchWord nbits w).pending = tableOp nbits w :: s.pending := rfl
@[simp] theorem withFetchWord_cores (nbits w : Nat) : (s.withFetchWord nbits w).cores = s.cores := rfl
@[simp] theorem withFetchWord_out (nbits w : Nat) : (s.withFetchWord nbits w).out = s.out := rfl
@[simp] theorem withFetchWord_turnOver (nbits w : Nat) : (s.withFetchWord nbits w).turnOver = s.turnOver := rfl
@[simp] theorem withFetchWord_draws (nbits w : Nat) : (s.withFetchWord nbits w).draws = s.draws := rfl
@[simp] theorem withFetchWord_irqPin (nbits w : Nat) : (s.withFetchWord nbits w).irqPin = s.irqPin := rfl
@[simp] theorem withFetchWord_rstPin (nbits w : Nat) : (s.withFetchWord nbits w).rstPin = s.rstPin := rfl
@[simp] theorem withFetchWord_c148 (nbits w : Nat) : (s.withFetchWord nbits w).c148 = s.c148 := rfl
@[simp] theorem withFetchWord_rstSound (nbits w : Nat) : (s.withFetchWord nbits w).rstSound = s.rstSound := rfl
@[simp] theorem withFetchWord_rstSlaveIO (nbits w : Nat) : (s.withFetchWord nbits w).rstSlaveIO = s.rstSlaveIO := rfl
@[simp] theorem withFetchWord_wdt (nbits w : Nat) : (s.withFetchWord nbits w).wdt = s.wdt := rfl
@[simp] theorem withFetchWord_mem (nbits w : Nat) : (s.withFetchWord nbits w).mem = s.mem := rfl
@[simp] theorem withFetchWord_layers (nbits w : Nat) : (s.withFetchWord nbits w).layers = s.layers := rfl
@[simp] theorem withFetchWord_flip (nbits w : Nat) : (s.withFetchWord nbits w).flip = s.flip := rfl
@[simp] theorem withFetchWord_sprBank (nbits w : Nat) : (s.withFetchWord nbits w).sprBank = s.sprBank := rfl
@[simp] theorem withFetchWord_rozBus (nbits w : Nat) : (s.withFetchWord nbits w).rozBus = s.rozBus := rfl
@[simp] theorem withFetchWord_rozPri (nbits w : Nat) : (s.withFetchWord nbits w).rozPri = s.rozPri := rfl
@[simp] theorem withFetchWord_visible (nbits w : Nat) : (s.withFetchWord nbits w).visible = s.visible := rfl
@[simp] theorem withFetchWord_prevRGB (nbits w : Nat) : (s.withFetchWord nbits w).prevRGB = s.prevRGB := rfl
@[simp] theorem withFetchWord_colourTable (nbits w : Nat) : (s.withFetchWord nbits w).colourTable = s.colourTable := rfl
@[simp] theorem withFetchWord_fb (nbits w : Nat) : (s.withFetchWord nbits w).fb = s.fb := rfl
@[simp] theorem withFetchWord_phase (nbits w : Nat) : (s.withFetchWord nbits w).phase = s.phase := rfl
@[simp] theorem withFetchWord_frame (nbits w : Nat) : (s.withFetchWord nbits w).frame = s.frame := rfl
@[simp] theorem withFetchWord_slice (nbits w : Nat) : (s.withFetchWord nbits w).slice = s.slice := rfl
@[simp] theorem withFetchWord_turn (nbits w : Nat) : (s.withFetchWord nbits w).turn = s.turn := rfl
@[simp] theorem withFetchWord_analogLatch (nbits w : Nat) : (s.withFetchWord nbits w).analogLatch = s.analogLatch := rfl
@[simp] theorem withFetchWord_analogDone (nbits w : Nat) : (s.withFetchWord nbits w).analogDone = s.analogDone := rfl

/-! ### levelWrite -/

@[simp] theorem levelWrite_pending (k : Gen) (src : Source) (v : Word) (m : Lanes) : (levelWrite k src v m s).pending = s.pending := rfl
@[simp] theorem levelWrite_cores (k : Gen) (src : Source) (v : Word) (m : Lanes) : (levelWrite k src v m s).cores = s.cores := rfl
@[simp] theorem levelWrite_out (k : Gen) (src : Source) (v : Word) (m : Lanes) : (levelWrite k src v m s).out = s.out := rfl
@[simp] theorem levelWrite_turnOver (k : Gen) (src : Source) (v : Word) (m : Lanes) : (levelWrite k src v m s).turnOver = s.turnOver := rfl
@[simp] theorem levelWrite_draws (k : Gen) (src : Source) (v : Word) (m : Lanes) : (levelWrite k src v m s).draws = s.draws := rfl
@[simp] theorem levelWrite_irqPin (k : Gen) (src : Source) (v : Word) (m : Lanes) : (levelWrite k src v m s).irqPin = s.irqPin := rfl
@[simp] theorem levelWrite_rstPin (k : Gen) (src : Source) (v : Word) (m : Lanes) : (levelWrite k src v m s).rstPin = s.rstPin := rfl
@[simp] theorem levelWrite_rstSound (k : Gen) (src : Source) (v : Word) (m : Lanes) : (levelWrite k src v m s).rstSound = s.rstSound := rfl
@[simp] theorem levelWrite_rstSlaveIO (k : Gen) (src : Source) (v : Word) (m : Lanes) : (levelWrite k src v m s).rstSlaveIO = s.rstSlaveIO := rfl
@[simp] theorem levelWrite_wdt (k : Gen) (src : Source) (v : Word) (m : Lanes) : (levelWrite k src v m s).wdt = s.wdt := rfl
@[simp] theorem levelWrite_mem (k : Gen) (src : Source) (v : Word) (m : Lanes) : (levelWrite k src v m s).mem = s.mem := rfl
@[simp] theorem levelWrite_layers (k : Gen) (src : Source) (v : Word) (m : Lanes) : (levelWrite k src v m s).layers = s.layers := rfl
@[simp] theorem levelWrite_flip (k : Gen) (src : Source) (v : Word) (m : Lanes) : (levelWrite k src v m s).flip = s.flip := rfl
@[simp] theorem levelWrite_sprBank (k : Gen) (src : Source) (v : Word) (m : Lanes) : (levelWrite k src v m s).sprBank = s.sprBank := rfl
@[simp] theorem levelWrite_rozBus (k : Gen) (src : Source) (v : Word) (m : Lanes) : (levelWrite k src v m s).rozBus = s.rozBus := rfl
@[simp] theorem levelWrite_rozPri (k : Gen) (src : Source) (v : Word) (m : Lanes) : (levelWrite k src v m s).rozPri = s.rozPri := rfl
@[simp] theorem levelWrite_visible (k : Gen) (src : Source) (v : Word) (m : Lanes) : (levelWrite k src v m s).visible = s.visible := rfl
@[simp] theorem levelWrite_prevRGB (k : Gen) (src : Source) (v : Word) (m : Lanes) : (levelWrite k src v m s).prevRGB = s.prevRGB := rfl
@[simp] theorem levelWrite_colourTable (k : Gen) (src : Source) (v : Word) (m : Lanes) : (levelWrite k src v m s).colourTable = s.colourTable := rfl
@[simp] theorem levelWrite_fb (k : Gen) (src : Source) (v : Word) (m : Lanes) : (levelWrite k src v m s).fb = s.fb := rfl
@[simp] theorem levelWrite_phase (k : Gen) (src : Source) (v : Word) (m : Lanes) : (levelWrite k src v m s).phase = s.phase := rfl
@[simp] theorem levelWrite_frame (k : Gen) (src : Source) (v : Word) (m : Lanes) : (levelWrite k src v m s).frame = s.frame := rfl
@[simp] theorem levelWrite_slice (k : Gen) (src : Source) (v : Word) (m : Lanes) : (levelWrite k src v m s).slice = s.slice := rfl
@[simp] theorem levelWrite_turn (k : Gen) (src : Source) (v : Word) (m : Lanes) : (levelWrite k src v m s).turn = s.turn := rfl
@[simp] theorem levelWrite_analogLatch (k : Gen) (src : Source) (v : Word) (m : Lanes) : (levelWrite k src v m s).analogLatch = s.analogLatch := rfl
@[simp] theorem levelWrite_analogDone (k : Gen) (src : Source) (v : Word) (m : Lanes) : (levelWrite k src v m s).analogDone = s.analogDone := rfl

/-! ### flipWrite -/

@[simp] theorem flipWrite_pending (v : Word) (m : Lanes) : (flipWrite v m s).pending = s.pending := rfl
@[simp] theorem flipWrite_cores (v : Word) (m : Lanes) : (flipWrite v m s).cores = s.cores := rfl
@[simp] theorem flipWrite_out (v : Word) (m : Lanes) : (flipWrite v m s).out = s.out := rfl
@[simp] theorem flipWrite_turnOver (v : Word) (m : Lanes) : (flipWrite v m s).turnOver = s.turnOver := rfl
@[simp] theorem flipWrite_draws (v : Word) (m : Lanes) : (flipWrite v m s).draws = s.draws := rfl
@[simp] theorem flipWrite_irqPin (v : Word) (m : Lanes) : (flipWrite v m s).irqPin = s.irqPin := rfl
@[simp] theorem flipWrite_rstPin (v : Word) (m : Lanes) : (flipWrite v m s).rstPin = s.rstPin := rfl
@[simp] theorem flipWrite_c148 (v : Word) (m : Lanes) : (flipWrite v m s).c148 = s.c148 := rfl
@[simp] theorem flipWrite_rstSound (v : Word) (m : Lanes) : (flipWrite v m s).rstSound = s.rstSound := rfl
@[simp] theorem flipWrite_rstSlaveIO (v : Word) (m : Lanes) : (flipWrite v m s).rstSlaveIO = s.rstSlaveIO := rfl
@[simp] theorem flipWrite_wdt (v : Word) (m : Lanes) : (flipWrite v m s).wdt = s.wdt := rfl
@[simp] theorem flipWrite_mem (v : Word) (m : Lanes) : (flipWrite v m s).mem = s.mem := rfl
@[simp] theorem flipWrite_sprBank (v : Word) (m : Lanes) : (flipWrite v m s).sprBank = s.sprBank := rfl
@[simp] theorem flipWrite_rozBus (v : Word) (m : Lanes) : (flipWrite v m s).rozBus = s.rozBus := rfl
@[simp] theorem flipWrite_rozPri (v : Word) (m : Lanes) : (flipWrite v m s).rozPri = s.rozPri := rfl
@[simp] theorem flipWrite_visible (v : Word) (m : Lanes) : (flipWrite v m s).visible = s.visible := rfl
@[simp] theorem flipWrite_prevRGB (v : Word) (m : Lanes) : (flipWrite v m s).prevRGB = s.prevRGB := rfl
@[simp] theorem flipWrite_colourTable (v : Word) (m : Lanes) : (flipWrite v m s).colourTable = s.colourTable := rfl
@[simp] theorem flipWrite_fb (v : Word) (m : Lanes) : (flipWrite v m s).fb = s.fb := rfl
@[simp] theorem flipWrite_phase (v : Word) (m : Lanes) : (flipWrite v m s).phase = s.phase := rfl
@[simp] theorem flipWrite_frame (v : Word) (m : Lanes) : (flipWrite v m s).frame = s.frame := rfl
@[simp] theorem flipWrite_slice (v : Word) (m : Lanes) : (flipWrite v m s).slice = s.slice := rfl
@[simp] theorem flipWrite_turn (v : Word) (m : Lanes) : (flipWrite v m s).turn = s.turn := rfl
@[simp] theorem flipWrite_analogLatch (v : Word) (m : Lanes) : (flipWrite v m s).analogLatch = s.analogLatch := rfl
@[simp] theorem flipWrite_analogDone (v : Word) (m : Lanes) : (flipWrite v m s).analogDone = s.analogDone := rfl

end Sys2Proof.Machine
end

