-- ==== Sys2Proof/Laws/Steps.lean ====
section
/-! SUPPORT. What a step can do, said once: a property that the shared operations keep is kept by every access, every
slice, every operation and every step. -/

namespace Sys2Proof.Machine

/-- A property that every shared operation on board `b` keeps. -/
structure Closed (b : Board) (P : State → Prop) : Prop where
  book : ∀ (s : State) (pending : List OpWord) (cores : PerProc (List (List BusAccess))) (out : List Output)
    (turnOver : Bool) (draws : Nat) (wdt frame slice : Nat) (turn : Proc) (latch : Vector Byte 8) (done : Bool), P s →
    P { s with
      pending := pending, cores := cores, out := out, turnOver := turnOver, draws := draws, wdt := wdt
      frame := frame, slice := slice, turn := turn, analogLatch := latch, analogDone := done }
  raise : ∀ (k : Gen) (src : Source) (s : State), P s → P (raiseIrq k src s)
  ack : ∀ (k : Gen) (src : Source) (s : State), P s → P (acknowledge k src s)
  level : ∀ (k : Gen) (src : Source) (v : Word) (m : Lanes) (s : State), P s → P (levelWrite k src v m s)
  rstSound : ∀ (k : Gen) (v : Word) (m : Lanes) (s : State), P s → P (rstSoundWrite b k v m s)
  rstSlave : ∀ (k : Gen) (v : Word) (m : Lanes) (s : State), P s → P (rstSlaveWrite b k v m s)
  region : ∀ (r : Region) (o : Nat) (v : Byte) (s : State), P s → P (regionWrite b r o v s)
  tile : ∀ (l : Layer) (t v : Word) (m : Lanes) (s : State), P s → P (tileWrite b l t v m s)
  scrollX : ∀ (l : Layer) (v : Word) (m : Lanes) (s : State), P s → P (scrollXWrite l v m s)
  scrollY : ∀ (l : Layer) (v : Word) (m : Lanes) (s : State), P s → P (scrollYWrite l v m s)
  bank : ∀ (l : Layer) (v : Word) (m : Lanes) (s : State), P s → P (bankWrite b l v m s)
  pri : ∀ (l : Layer) (v : Word) (m : Lanes) (s : State), P s → P (layerPriWrite b l v m s)
  flip : ∀ (v : Word) (m : Lanes) (s : State), P s → P (flipWrite v m s)
  sprBank : ∀ (v : Word) (m : Lanes) (s : State), P s → P (sprBankWrite v m s)
  rozCtrl : ∀ (p : Plane) (r : BitVec 3) (v : Word) (m : Lanes) (s : State), P s → P (rozCtrlWrite b p r v m s)
  rozPri : ∀ (p : Plane) (v : Word) (m : Lanes) (s : State), P s → P (rozPriWrite b p v m s)
  render : ∀ (l : Layer) (s : State), P s → P (renderTiles b l s)
  drawn : ∀ (fb : List (List Pen)) (s : State), P s → P { s with fb := fb }
  scan : ∀ s : State, P s → P (palScan b s)
  compose : ∀ s : State, P s → P (composite b s)
  reset : ∀ s : State, P s → P (machineReset b s)

section

variable {b : Board} {P : State → Prop} (h : Closed b P)

include h

theorem Closed.emit (e : Output) {s : State} (hs : P s) : P (emit e s) :=
  h.book s s.pending s.cores (s.out ++ [e]) s.turnOver s.draws s.wdt s.frame s.slice s.turn s.analogLatch s.analogDone hs

theorem Closed.kick {s : State} (hs : P s) : P (watchdogKick s) :=
  h.book s s.pending s.cores s.out s.turnOver s.draws 0 s.frame s.slice s.turn s.analogLatch s.analogDone hs

theorem Closed.ackWrite (k : Gen) (src : Source) {s : State} (hs : P s) : P (ackWrite b k src s) := h.ack _ src s hs

theorem Closed.ackRead (k : Gen) (src : Source) {s : State} (hs : P s) : P (ackRead b k src s) := by
  unfold Sys2Proof.Machine.ackRead
  split
  · exact h.ackWrite k src hs
  · exact hs

/-- A write to the C148 window. -/
theorem Closed.c148Write (k : Gen) (off : Addr) (v : Word) (m : Lanes) {s : State} (hs : P s) :
    P (c148Write b k off v m s) := by
  unfold Sys2Proof.Machine.c148Write
  split
  · exact h.level _ _ _ _ _ hs
  · exact h.level _ _ _ _ _ hs
  · exact h.level _ _ _ _ _ hs
  · exact h.level _ _ _ _ _ hs
  · exact h.level _ _ _ _ _ hs
  · exact h.raise _ _ _ hs
  · exact h.ackWrite _ _ hs
  · exact h.ackWrite _ _ hs
  · exact h.ackWrite _ _ hs
  · exact h.ackWrite _ _ hs
  · exact h.ackWrite _ _ hs
  · exact h.rstSound _ _ _ _ hs
  · exact h.rstSlave _ _ _ _ hs
  · exact h.kick hs
  · exact hs

/-- The side effect of a read of the C148 window. -/
theorem Closed.c148Read (k : Gen) (off : Addr) {s : State} (hs : P s) : P (c148ReadEffect b k off s) := by
  unfold Sys2Proof.Machine.c148ReadEffect
  split
  · exact h.ackRead _ _ hs
  · exact h.ackRead _ _ hs
  · exact h.ackRead _ _ hs
  · exact h.ackRead _ _ hs
  · exact h.ackRead _ _ hs
  · exact h.kick hs
  · exact hs

/-- A write to a video register. -/
theorem Closed.vidWrite (r : VidReg) (v : Word) (m : Lanes) {s : State} (hs : P s) : P (vidWrite b r v m s) := by
  cases r with
  | tile l t => exact h.tile l t v m s hs
  | scrollX l => exact h.scrollX l v m s hs
  | scrollY l => exact h.scrollY l v m s hs
  | bank l => exact h.bank l v m s hs
  | pri l => exact h.pri l v m s hs
  | flip => exact h.flip v m s hs
  | sprBank => exact h.sprBank v m s hs
  | rozCtrl p r => exact h.rozCtrl p r v m s hs
  | rozPri p => exact h.rozPri p v m s hs

theorem Closed.videoWrite (off : Addr) (v : Word) (m : Lanes) {s : State} (hs : P s) : P (videoWrite b off v m s) := by
  unfold Sys2Proof.Machine.videoWrite
  split
  · exact h.vidWrite _ v m hs
  · exact hs

theorem Closed.peripheralWrite (d : Peripheral) (off : Addr) (v : Word) (m : Lanes) {s : State} (hs : P s) :
    P (peripheralWrite b d off v m s) := by
  unfold Sys2Proof.Machine.peripheralWrite
  simp only
  split
  · exact h.book _ s.pending s.cores _ s.turnOver _ s.wdt s.frame s.slice s.turn _ _ (h.emit _ hs)
  · exact h.emit _ hs

theorem Closed.handlerWrite (x : Hit) (off : Addr) (v : Word) (m : Lanes) {s : State} (hs : P s) :
    P (handlerWrite b x off v m s) := by
  cases x with
  | openBus => exact hs
  | region R r base => exact hs
  | c148 R k => exact h.c148Write k off v m hs
  | video R => exact h.videoWrite off v m hs
  | peripheral R d => exact h.peripheralWrite d off v m hs

theorem Closed.readEffect (p : Proc) (a : Addr) (w16 : Bool) (x : Hit) (off : Addr) {s : State} (hs : P s) :
    P (readEffect b p a w16 x off s) := by
  cases x with
  | openBus => exact h.emit _ hs
  | region R r base => exact hs
  | c148 R k => exact h.c148Read k off hs
  | video R => exact hs
  | peripheral R d =>
    exact h.book _ s.pending s.cores s.out s.turnOver (s.draws + 1) s.wdt s.frame s.slice s.turn s.analogLatch s.analogDone hs

theorem Closed.busRead8 (p : Proc) (a : Addr) {s : State} (hs : P s) : P (busRead8 b p a s) :=
  h.emit _ (h.readEffect p a false _ _ hs)

theorem Closed.busRead16 (p : Proc) (a : Addr) {s : State} (hs : P s) : P (busRead16 b p a s) :=
  h.emit _ (h.readEffect p a true _ _ hs)

theorem Closed.busWrite8 (p : Proc) (a : Addr) (v : Byte) {s : State} (hs : P s) : P (busWrite8 b p a v s) := by
  unfold Sys2Proof.Machine.busWrite8
  simp only
  split
  · exact h.emit _ hs
  · exact h.region _ _ _ _ hs
  · exact h.handlerWrite _ _ _ _ hs

theorem Closed.regionWrite16 (r : Region) (o o' : Nat) (v : Word) (m : Lanes) {s : State} (hs : P s) :
    P (regionWrite16 b r o o' v m s) := by
  cases m
  · exact h.region _ _ _ _ (h.region _ _ _ _ hs)
  · exact h.region _ _ _ _ hs
  · exact h.region _ _ _ _ hs

theorem Closed.busWrite16 (p : Proc) (a : Addr) (v : Word) (m : Lanes) {s : State} (hs : P s) :
    P (busWrite16 b p a v m s) := by
  unfold Sys2Proof.Machine.busWrite16
  simp only
  split
  · exact h.emit _ hs
  · exact h.regionWrite16 _ _ _ _ _ hs
  · exact h.handlerWrite _ _ _ _ hs

/-- Every access keeps a closed property. -/
theorem Closed.access {p : Proc} {o : BusAccess} {s t : State} (hs : P s) (ho : access b p o s = .ok t) : P t := by
  cases o with
  | rd8 a => cases ho; exact h.busRead8 p a hs
  | wr8 a v => cases ho; exact h.busWrite8 p a v hs
  | rd16 a =>
    simp only [Sys2Proof.Machine.access] at ho
    split at ho
    · cases ho
    · cases ho; exact h.busRead16 p a hs
  | wr16 a v m =>
    simp only [Sys2Proof.Machine.access] at ho
    split at ho
    · cases ho
    · cases ho; exact h.busWrite16 p a v m hs
  | ifetch a =>
    simp only [Sys2Proof.Machine.access] at ho
    split at ho
    · split at ho
      · cases ho
      · cases ho; exact h.busRead16 p a hs
    · cases ho; exact h.busRead8 p a hs

theorem Closed.runAccesses {p : Proc} {os rest : List BusAccess} {s t : State} (hs : P s)
    (ho : runAccesses b p os s = .ok (t, rest)) : P t := by
  induction os generalizing s with
  | nil => cases ho; exact hs
  | cons o os ih =>
    simp only [Sys2Proof.Machine.runAccesses] at ho
    split at ho
    · cases ho
    · rename_i s' hs'
      split at ho
      · cases ho; exact h.access hs hs'
      · exact ih (h.access hs hs') ho

theorem Closed.beginTurn (p : Proc) {s : State} (hs : P s) : P (beginTurn b p s) :=
  h.book s s.pending s.cores _ false s.draws s.wdt s.frame s.slice p s.analogLatch s.analogDone hs

theorem Closed.runTurn {p : Proc} {s t : State} (hs : P s) (ht : runTurn b p s = .ok t) : P t := by
  unfold Sys2Proof.Machine.runTurn at ht
  split at ht
  · cases ht; exact hs
  · split at ht
    · cases ht; exact h.beginTurn p hs
    · split at ht
      · cases ht
      · rename_i s' rest hr
        cases ht
        have hs' := h.runAccesses (h.beginTurn p hs) hr
        exact h.book s' s'.pending _ s'.out s'.turnOver s'.draws s'.wdt s'.frame s'.slice s'.turn s'.analogLatch
          s'.analogDone hs'

theorem Closed.runTurns {ps : List Proc} {s t : State} (hs : P s) (ht : runTurns b ps s = .ok t) : P t := by
  induction ps generalizing s with
  | nil => cases ht; exact hs
  | cons p ps ih =>
    simp only [Sys2Proof.Machine.runTurns] at ht
    split at ht
    · cases ht
    · rename_i s' hs'
      exact ih (h.runTurn hs hs') ht

/-- A slice keeps a closed property. -/
theorem Closed.sliceRound {s t : State} (hs : P s) (ht : sliceRound b s = .ok t) : P t := by
  unfold Sys2Proof.Machine.sliceRound at ht
  split at ht
  · cases ht
  · rename_i s' hs'
    cases ht
    have := h.runTurns hs hs'
    exact h.book s' s'.pending s'.cores s'.out s'.turnOver s'.draws s'.wdt s'.frame (s'.slice + 1) s'.turn
      s'.analogLatch s'.analogDone this

theorem Closed.frameEnd {s : State} (hs : P s) : P (frameEnd b s) := by
  have h1 := h.raise .slave .vblank _ (h.raise .master .vblank _ (h.compose s hs))
  have h2 : P (closeFrame b s) := h.book _ _ _ _ _ _ _ _ _ _ _ _ h1
  unfold Sys2Proof.Machine.frameEnd
  simp only
  split
  · exact h.reset _ h2
  · exact h.book _ _ _ _ _ _ _ _ _ _ _ _ h2

end

/-- An access that is not refused ends in a state. -/
theorem finish_next {r : Except Refusal State} {t : State} (h : finish r = .next t) : r = .ok t := by
  cases r with
  | ok s => cases h; rfl
  | error e => cases h

theorem decodeReserved_keeps {b : Board} {P : State → Prop} (h : Closed b P) (k : Gen) (wr : Bool) {s : State}
    (hs : P s) : P (c148Reserved b k wr s) := by
  unfold c148Reserved
  split
  · exact hs
  · exact h.emit _ hs

theorem vidReserved_keeps {b : Board} {P : State → Prop} (h : Closed b P) (p : Proc) (wr : Bool) {s : State}
    (hs : P s) : P (vidReserved b p wr s) := by
  unfold vidReserved
  split
  · exact hs
  · exact h.emit _ hs

/-- Every operation keeps a closed property. -/
theorem exec_keeps {P : State → Prop} (h : Closed Config.board P) {i : Instr} {s t : State} (hs : P s)
    (ht : exec i s = .next t) : P t := by
  cases i with
  | rd8 p a => exact h.access (p := p) (o := .rd8 a) hs (finish_next ht)
  | wr8 p a v => exact h.access (p := p) (o := .wr8 a v) hs (finish_next ht)
  | rd16 p a => exact h.access (p := p) (o := .rd16 a) hs (finish_next ht)
  | wr16 p a v m => exact h.access (p := p) (o := .wr16 a v m) hs (finish_next ht)
  | ifetch p a => exact h.access (p := p) (o := .ifetch a) hs (finish_next ht)
  | lvlWrCpuirq k v m => cases ht; exact h.level _ _ _ _ _ hs
  | lvlWrExirq k v m => cases ht; exact h.level _ _ _ _ _ hs
  | lvlWrPosirq k v m => cases ht; exact h.level _ _ _ _ _ hs
  | lvlWrScirq k v m => cases ht; exact h.level _ _ _ _ _ hs
  | lvlWrVblank k v m => cases ht; exact h.level _ _ _ _ _ hs
  | lvlRdCpuirq k => cases ht; exact h.emit _ hs
  | lvlRdExirq k => cases ht; exact h.emit _ hs
  | lvlRdPosirq k => cases ht; exact h.emit _ hs
  | lvlRdScirq k => cases ht; exact h.emit _ hs
  | lvlRdVblank k => cases ht; exact h.emit _ hs
  | cpuirqTrig k => cases ht; exact h.raise _ _ _ hs
  | ackCpuirq k => cases ht; exact h.ackWrite _ _ hs
  | ackExirq k => cases ht; exact h.ackWrite _ _ hs
  | ackPosirq k => cases ht; exact h.ackWrite _ _ hs
  | ackScirq k => cases ht; exact h.ackWrite _ _ hs
  | ackVblank k => cases ht; exact h.ackWrite _ _ hs
  | ackReadCpuirq k => cases ht; exact h.emit _ (h.ackRead _ _ hs)
  | ackReadExirq k => cases ht; exact h.emit _ (h.ackRead _ _ hs)
  | ackReadPosirq k => cases ht; exact h.emit _ (h.ackRead _ _ hs)
  | ackReadScirq k => cases ht; exact h.emit _ (h.ackRead _ _ hs)
  | ackReadVblank k => cases ht; exact h.emit _ (h.ackRead _ _ hs)
  | eepromRdy k => cases ht; exact h.emit _ hs
  | eepromRdyWr k => cases ht; exact hs
  | rstsndWr k v m => cases ht; exact h.rstSound _ _ _ _ hs
  | rstslvWr k v m => cases ht; exact h.rstSlave _ _ _ _ hs
  | rstsndRd k => cases ht; exact h.emit _ hs
  | rstslvRd k => cases ht; exact h.emit _ hs
  | wdtKick k wr =>
    cases ht
    cases wr
    · exact h.emit _ (h.kick hs)
    · exact h.kick hs
  | c148RsvdS01 k wr c => cases ht; exact decodeReserved_keeps h k wr hs
  | c148RsvdS2 k wr => cases ht; exact decodeReserved_keeps h k wr hs
  | c148RsvdS89 k wr c => cases ht; exact decodeReserved_keeps h k wr hs
  | c148RsvdRdS10 k => cases ht; exact decodeReserved_keeps h k false hs
  | c148RsvdS2023 k wr c => cases ht; exact decodeReserved_keeps h k wr hs
  | c148RsvdS2431 k wr c => cases ht; exact decodeReserved_keeps h k wr hs
  | tileWr l x v m => cases ht; exact h.tile _ _ _ _ _ hs
  | scrollxWr l v m => cases ht; exact h.scrollX _ _ _ _ hs
  | scrollyWr l v m => cases ht; exact h.scrollY _ _ _ _ hs
  | bankWr l v m => cases ht; exact h.bank _ _ _ _ hs
  | lpriWr l v m => cases ht; exact h.pri _ _ _ _ hs
  | flipWr v m => cases ht; exact h.flip _ _ _ hs
  | sprbankWr v m => cases ht; exact h.sprBank _ _ _ hs
  | rozctrlWr p r v m => cases ht; exact h.rozCtrl _ _ _ _ _ hs
  | rozpriWr p v m => cases ht; exact h.rozPri _ _ _ _ hs
  | vidRd p r => cases ht; exact h.emit _ hs
  | vidRsvdK9 p c => cases ht; exact vidReserved_keeps h p _ hs
  | vidRsvdKAB p wr c => cases ht; exact vidReserved_keeps h p wr hs
  | vidRsvdKCF p wr c => cases ht; exact vidReserved_keeps h p wr hs
  | evtRaiseVblank k => cases ht; exact h.raise _ _ _ hs
  | evtRaisePosirq k => cases ht; exact h.raise _ _ _ hs
  | evtRaiseExirq k => cases ht; exact h.raise _ _ _ hs
  | evtRaiseScirq k => cases ht; exact h.raise _ _ _ hs
  | evtRaiseCpuirq k => cases ht; exact h.raise _ _ _ hs
  | evtRsvdSrc5 k => cases ht
  | evtRsvdSrc67 c => cases ht
  | slice => exact h.sliceRound hs (finish_next ht)
  | frameEnd => cases ht; exact h.frameEnd hs
  | machineReset => cases ht; exact h.reset _ hs
  | composite => cases ht; exact h.compose _ hs
  | palScan => cases ht; exact h.scan _ hs
  | renderLayer l => cases ht; exact h.render _ _ hs
  | drawLayer l =>
    change (if anyDirty s l then _ else _) = _ at ht
    split at ht
    · cases ht
    · cases ht; exact h.drawn _ _ hs
  | drawRoz p =>
    change (if planeExists Config.board p then _ else _) = _ at ht
    split at ht
    · cases ht
      unfold drawRozPlane
      split
      · exact h.drawn _ _ hs
      · exact hs
    · cases ht
  | drawSprites v => cases ht; exact h.drawn _ _ hs

/-- Every step keeps a closed property. -/
theorem stepKeeps_of_closed {P : State → Prop} (h : Closed Config.board P) : StepKeeps P := by
  intro s t hs ht
  have htake : ∀ rest, P (takeOp s rest) := fun rest =>
    h.book s rest s.cores [] s.turnOver s.draws s.wdt s.frame s.slice s.turn s.analogLatch s.analogDone hs
  unfold step at ht
  split at ht
  · split at ht
    · exact exec_keeps h (htake _) ht
    · cases ht
  · exact exec_keeps h (htake _) ht

end Sys2Proof.Machine
end

