-- ==== Sys2Proof/Tests/Slice0.lean ====
section
/-! SUPPORT. The model's own tests. The words of the decoding tests are written out from the codes of
30_encoding.md R120-R125, in the layout of log 1. The expected results of the operation tests are those of
95_test_vectors.md, on its configuration T; each names its vector. The witnesses meet the hypotheses of the
obligations. -/

-- One test after another: each `decide +kernel` waits for the kernel's check of all before it, and tests elaborated side
-- by side would each hold a thread while they wait.
set_option Elab.async false

namespace Sys2Proof.Tests

open Sys2Proof.Machine

/-! ### Configuration T (95_test_vectors.md, section 0) -/

/-- The router table of MASTER and SLAVE in T. -/
def mapT : List AddressRange :=
  [⟨0x100000, 0x103FFF, .region .sprram 0⟩, ⟨0x180000, 0x1807FF, .region .dpram 0⟩, ⟨0x1C0000, 0x1FFFFF, .c148⟩,
   ⟨0x200000, 0x20FFFF, .video⟩, ⟨0x300000, 0x31FFFF, .region (.rozram 0) 0⟩, ⟨0x400000, 0x405FFF, .region .palram 0⟩,
   ⟨0x500000, 0x503FFF, .region .sciram 0⟩, ⟨0x600000, 0x6000FF, .region .eeprom 0⟩]

/-- Configuration T. The video window gives every address the reserved code 0x90, since T gives the video registers
no addresses. -/
def boardT : Board :=
  { variant := .default
    priBits := .three
    spriteLayout := .default
    rozPlanes := .one
    rozPresent := fun p => p == 0
    slicesPerFrame := 100
    cyclesPerSlice := fun _ => 1000
    wdtLimit := 2
    openBus8 := 0xFF
    openBus16 := 0xFFFF
    eepromReady := 0xFFFF
    map := fun p => match p with
      | .master => mapT
      | .slave => mapT
      | .sound => [⟨0, 0x7FF, .region .dpram 0⟩]
      | .io => [⟨0, 0x7FF, .region .dpram 0⟩]
    c148Base := 0x1C0000
    addrBits := fun p => match p with
      | .master => 24
      | .slave => 24
      | .sound => 16
      | .io => 16
    cpuirqAckBy := .peer
    ackOnRead := false
    resetCtrlOnSlave := false
    tileRemap := fun w => w
    tileGfx := fun c x y => if c.getLsbD 15 then 8 * y + x else c.toNat % 256
    tileMask := fun c _ _ => c != 0
    layerOriginX := fun _ => 0
    layerOriginY := fun _ => 0
    tileBankBits := 5
    tileBankStride := 256
    spriteDecode := fun w =>
      { posY := w.w0.toNat % 1024, sizeClass := w.w0.extractLsb' 10 1, color := w.w0.toNat / 4096
        posX := w.w1.toNat % 1024, flipX := w.w1.getLsbD 10, flipY := w.w1.getLsbD 11, pri := w.w1.toNat / 8192
        code := w.w2.toNat % 4096, reqH := w.w3.toNat % 64, reqW := w.w3.toNat / 64 % 64 }
    spriteGfx := fun _ c _ x y => if x < 8 ∧ y < 8 then BitVec.ofNat 8 c else 0xFF
    spriteRegionWord := 2
    fixedRegion := 0
    spriteOriginX := 0
    spriteOriginY := 0
    spritePosBits := 10
    spriteTransparentPen := 0xFF
    spriteBankStride := 256
    spriteOrder := List.finRange 128
    sprbankDecode := fun v => ⟨v.extractLsb' 0 4, v.toNat / 256 % 16⟩
    rozCtrlDecode := rozCtrlDefault
    rozTile := fun e => e.toNat
    rozRamSize := fun _ => 0x20000
    palRamSize := 0x6000
    vramSize := 0x10000
    eepromSize := 0x100
    rozGfx := fun _ t _ _ => if t % 256 = 0 then 0xFF else BitVec.ofNat 8 t
    rozPalBase := 0x1000
    rozBankStride := 256
    palDecode := fun m i => ⟨m (3 * i), m (3 * i + 1), m (3 * i + 2)⟩
    vidregMap := fun _ => ⟨9, 0, 0⟩
    vramTile := fun _ => none
    eepromBlob := fun _ => 0
    analogControl := fun _ _ => false
    initRam := fun _ _ => 0
    drawCache := fun _ _ _ _ => none
    drawFb := fun _ _ _ => 0
    drawColour := fun _ _ => default
    drawLatch := fun _ _ => 0
    drawDone := fun _ => false
    drawRead := fun _ _ _ _ _ => 0 }

/-- The start state of the vectors. -/
def s0 : State := State.afterReset boardT 0

/-- A state with the levels of both instances set. -/
def withLevels (m s : Levels) (t : State) : State :=
  { t with c148 := ⟨{ t.c148.master with levels := m }, { t.c148.slave with levels := s }⟩ }

/-- A 16-bit write on T. -/
def w16 (p : Proc) (a : Addr) (v : Word) (s : State) : State := busWrite16 boardT p a v .both s

/-- A sprite descriptor in bank 0, slot 0. -/
def sprite0 (w0 w1 w2 w3 : Word) (s : State) : State :=
  w16 .master 0x100006 w3 (w16 .master 0x100004 w2 (w16 .master 0x100002 w1 (w16 .master 0x100000 w0 s)))

/-- The identity registers `I` of section 2.5, with E(0, 0) = 0x0042. -/
def rozI : State :=
  w16 .master 0x300000 0x0042 (rozCtrlWrite boardT 0 3 0x0100 .both (rozCtrlWrite boardT 0 0 0x0100 .both s0))

/-! ### Well-formedness -/

/-- The tables of T map no `VRAM`, and T places no tile word in it, so T is no board of R93 and R42; `boardW` is T with a
range of it in both general CPUs' tables, and a placement. -/
theorem test_wf_boardT : boardT.checks = false ∧ boardT.mappedAlike (inRegion .vram) = false := by decide +kernel

/-- `mapT` with a range of `VRAM`. -/
def mapW : List AddressRange := mapT ++ [⟨0x700000, 0x70FFFF, .region .vram 0⟩]

/-- T with `m` for MASTER's table, `t` for SLAVE's, and T's own for the others. -/
def tables (m t : List AddressRange) : Board :=
  { boardT with map := fun p => match p with
      | .master => m
      | .slave => t
      | .sound => boardT.map .sound
      | .io => boardT.map .io }

/-- A placement of the tile words: layer after layer, from the start of `VRAM`. -/
def tilesInOrder (n : Nat) : Option (Layer × Word) :=
  if n < 16384 then some (Fin.ofNat 6 (n / 4096), BitVec.ofNat 16 (n % 4096))
  else if n < 18400 then some (Fin.ofNat 6 (4 + (n - 16384) / 1008), BitVec.ofNat 16 ((n - 16384) % 1008))
  else none

/-- A board of R93 and R42. -/
def boardW : Board := { tables mapW mapW with vramTile := tilesInOrder }

theorem test_wf_boardW_checks : boardW.checks = true := by decide +kernel

/-- R42: `boardW` places every tile word once. -/
theorem test_wf_boardW_tiles : boardW.placesTiles := by
  intro l t ht
  have hs : boardW.vramSize = 0x10000 := rfl
  have hv : boardW.vramTile = tilesInOrder := rfl
  rw [hs, hv]
  have hl := l.isLt
  have hn : ntiles l = if l.val < 4 then 4096 else 1008 := by exact (by decide : ∀ l : Layer, ntiles l = if l.val < 4 then 4096 else 1008) l
  refine ⟨if l.val < 4 then 4096 * l.val + t else 16384 + 1008 * (l.val - 4) + t, ?_, ?_⟩
  · by_cases h : l.val < 4
    · rw [hn, if_pos h] at ht ⊢
      rw [if_pos h]
      refine ⟨by omega, BitVec.ofNat 16 t, ?_, ?_⟩
      · unfold tilesInOrder
        rw [if_pos (by omega), show (4096 * l.val + t) / 4096 = l.val by omega, show (4096 * l.val + t) % 4096 = t by omega]
        congr 2; apply Fin.ext; simp only [Fin.ofNat]; omega
      · rw [BitVec.toNat_ofNat]; omega
    · rw [hn, if_neg h] at ht ⊢
      rw [if_neg h]
      refine ⟨by omega, BitVec.ofNat 16 t, ?_, ?_⟩
      · unfold tilesInOrder
        rw [if_neg (by omega), if_pos (by omega), show 4 + (16384 + 1008 * (l.val - 4) + t - 16384) / 1008 = l.val by omega,
          show (16384 + 1008 * (l.val - 4) + t - 16384) % 1008 = t by omega]
        congr 2; apply Fin.ext; simp only [Fin.ofNat]; omega
      · rw [BitVec.toNat_ofNat]; omega
  · rintro n ⟨-, t', h, h'⟩
    unfold tilesInOrder at h
    split at h
    · simp only [Option.some.injEq, Prod.mk.injEq] at h
      obtain ⟨rfl, rfl⟩ := h
      simp only [Fin.ofNat, BitVec.toNat_ofNat] at hn h' ⊢
      rw [if_pos (by omega)] at hn ⊢
      rw [hn] at h'
      omega
    · split at h
      · simp only [Option.some.injEq, Prod.mk.injEq] at h
        obtain ⟨rfl, rfl⟩ := h
        simp only [Fin.ofNat, BitVec.toNat_ofNat] at hn h' ⊢
        rw [if_neg (by omega)] at hn ⊢
        rw [hn] at h'
        omega
      · cases h

theorem test_wf_boardW : boardW.wellFormed := ⟨test_wf_boardW_checks, test_wf_boardW_tiles⟩

/-- R42: a word placed nowhere, as in T, and one placed at two places (log 35). -/
theorem test_wf_tiles : ¬ boardT.placesTiles
    ∧ ¬ ({ boardW with vramTile := fun n => tilesInOrder (n % 18400) } : Board).placesTiles := by
  refine ⟨fun h => ?_, fun h => ?_⟩
  · obtain ⟨n, ⟨-, t, h, -⟩, -⟩ := h 0 0 (by decide)
    cases h
  · obtain ⟨n, -, hn⟩ := h 0 0 (by decide)
    have h0 := hn 0 ⟨by decide, 0, by decide, by decide⟩
    have h1 := hn 18400 ⟨by decide, 0, by decide, by decide⟩
    omega

theorem test_wf_vid_reserved_layer : (Instr.vidRsvdK9 .master 0x106).wellFormed = true := by decide

/-- Kind 0, idx 0 names the tile words of layer 0: not a reserved code. -/
theorem test_wf_vid_not_reserved : (Instr.vidRsvdK9 .master 0x000).wellFormed = false := by decide

/-- Kind 0xA belongs to the row VID_RSVD_KA_B. -/
theorem test_wf_vid_kind_a : (Instr.vidRsvdK9 .master 0x0A0).wellFormed = false := by decide

/-- `mapW` without the ranges of one target. -/
def lacking (t : Target) : List AddressRange := mapW.filter fun R => !decide (R.target = t)

/-- `mapW` with one range registered after the others. -/
def withRange (R : AddressRange) : List AddressRange := mapW ++ [R]

/-- R93(a), 60_exceptions.md R412: a base where no C148 window lies; a later range in the middle of SLAVE's window, which
hides a byte of it; and a C148 window of SOUND. -/
theorem test_wf_c148 : ({ boardW with c148Base := 0x180000 } : Board).mapsC148 = false
    ∧ (tables mapW (withRange ⟨0x1D0000, 0x1D0000, .region .dpram 0⟩)).mapsC148 = false
    ∧ ({ boardW with map := fun p => if p = .sound then [⟨0, 0xFF, .c148⟩] else boardW.map p } : Board).c148OnGeneralOnly
      = false := by decide +kernel

/-- R93(b): the video registers, PALRAM or VRAM mapped by one general CPU alone; and SPRRAM at unlike bases, where
address 0x100000 reaches byte 0 for one and byte 2 for the other. -/
theorem test_wf_video : (tables mapW (lacking .video)).mapsVideo = false
    ∧ (tables mapW (lacking (.region .palram 0))).mapsVideo = false
    ∧ (tables (lacking (.region .vram 0)) mapW).mapsVideo = false
    ∧ (tables mapW (withRange ⟨0x100000, 0x103FFF, .region .sprram 2⟩)).mapsVideo = false := by decide +kernel

/-- A window that a later range hides whole is mapped by neither; one above the 24 address bits is none. A range of
`ROZRAM[1]` on a board of one plane is refused (log 33). -/
theorem test_wf_video_hidden :
    (let m := withRange ⟨0x100000, 0x103FFF, .region .dpram 0⟩
     (tables m m).mapsVideo = false)
      ∧ (let m := lacking (.region .palram 0) ++ [⟨0x1400000, 0x1405FFF, .region .palram 0⟩]
         (tables m m).mapsVideo = false)
      ∧ (tables (withRange ⟨0x800000, 0x81FFFF, .region (.rozram 1) 0⟩) mapW).mapsOwnRozRam = false := by decide +kernel

/-- R93(c), (d), (e): DPRAM mapped by MASTER alone; SCIRAM and the EEPROM mapped by no general CPU, and by one. -/
theorem test_wf_shared : ({ boardW with map := fun p => if p = .master then mapW else [] } : Board).mapsDpram = false
    ∧ (let m := lacking (.region .sciram 0)
       (tables m m).mapsSciram = false)
    ∧ (tables mapW (lacking (.region .sciram 0))).mapsSciram = true
    ∧ (let m := lacking (.region .eeprom 0)
       (tables m m).mapsEeprom = false)
    ∧ (tables mapW (lacking (.region .eeprom 0))).mapsEeprom = true := by decide +kernel

theorem test_wf_parameters : ({ boardW with priBits := .four } : Board).variantPriority = false
    ∧ ({ boardW with rozPlanes := .two } : Board).variantPlanes = false
    ∧ ({ boardW with palRamSize := 0 } : Board).sizes = false
    ∧ ({ boardW with spriteOrder := [0] } : Board).ordersSlots = false
    ∧ ({ boardW with palRamSize := 0 } : Board).checks = false := by decide +kernel

/-! ### Decoding -/

theorem test_decode_rd8 : decode 0x000000000000001000200000#96 = .ok (.rd8 .sound 0x0010) := rfl
theorem test_decode_wr8 : decode 0x000000990000001200300001#96 = .ok (.wr8 .io 0x0012 0x99) := rfl
theorem test_decode_rd16 : decode 0x000000000018001000100002#96 = .ok (.rd16 .slave 0x180010) := rfl
theorem test_decode_wr16 : decode 0x000012340018001000000003#96 = .ok (.wr16 .master 0x180010 0x1234 .both) := rfl
theorem test_decode_wr16_high : decode 0x0000AB000018001001000003#96 = .ok (.wr16 .master 0x180010 0xAB00 .high) := rfl
theorem test_decode_ifetch : decode 0x0000000000FFFFFE00010002#96 = .ok (.ifetch .master 0xFFFFFE) := rfl
theorem test_decode_ifetch_sound : decode 0x000000000000001100210000#96 = .ok (.ifetch .sound 0x0011) := rfl
theorem test_decode_lvlWrCpuirq : decode 0x000000040000000002120023#96 = .ok (.lvlWrCpuirq .slave 4 .low) := rfl
theorem test_decode_lvlWrExirq : decode 0x000000020000000002120024#96 = .ok (.lvlWrExirq .slave 2 .low) := rfl
theorem test_decode_lvlWrPosirq : decode 0x000000050000000002120025#96 = .ok (.lvlWrPosirq .slave 5 .low) := rfl
theorem test_decode_lvlWrScirq : decode 0x000000070000000002120026#96 = .ok (.lvlWrScirq .slave 7 .low) := rfl
theorem test_decode_lvlWrVblank : decode 0x000000030000000002120027#96 = .ok (.lvlWrVblank .slave 3 .low) := rfl
theorem test_decode_lvlRdCpuirq : decode 0x000000000000000000120003#96 = .ok (.lvlRdCpuirq .slave) := rfl
theorem test_decode_lvlRdExirq : decode 0x000000000000000000120004#96 = .ok (.lvlRdExirq .slave) := rfl
theorem test_decode_lvlRdPosirq : decode 0x000000000000000000120005#96 = .ok (.lvlRdPosirq .slave) := rfl
theorem test_decode_lvlRdScirq : decode 0x000000000000000000120006#96 = .ok (.lvlRdScirq .slave) := rfl
theorem test_decode_lvlRdVblank : decode 0x000000000000000000120007#96 = .ok (.lvlRdVblank .slave) := rfl
theorem test_decode_cpuirqTrig : decode 0x00000000000000000002002A#96 = .ok (.cpuirqTrig .master) := rfl
theorem test_decode_ackCpuirq : decode 0x00000000000000000012002B#96 = .ok (.ackCpuirq .slave) := rfl
theorem test_decode_ackExirq : decode 0x00000000000000000012002C#96 = .ok (.ackExirq .slave) := rfl
theorem test_decode_ackPosirq : decode 0x00000000000000000012002D#96 = .ok (.ackPosirq .slave) := rfl
theorem test_decode_ackScirq : decode 0x00000000000000000012002E#96 = .ok (.ackScirq .slave) := rfl
theorem test_decode_ackVblank : decode 0x00000000000000000012002F#96 = .ok (.ackVblank .slave) := rfl
theorem test_decode_ackReadCpuirq : decode 0x00000000000000000002000B#96 = .ok (.ackReadCpuirq .master) := rfl
theorem test_decode_ackReadExirq : decode 0x00000000000000000002000C#96 = .ok (.ackReadExirq .master) := rfl
theorem test_decode_ackReadPosirq : decode 0x00000000000000000002000D#96 = .ok (.ackReadPosirq .master) := rfl
theorem test_decode_ackReadScirq : decode 0x00000000000000000002000E#96 = .ok (.ackReadScirq .master) := rfl
theorem test_decode_ackReadVblank : decode 0x00000000000000000002000F#96 = .ok (.ackReadVblank .master) := rfl
theorem test_decode_eepromRdy : decode 0x000000000000000000020010#96 = .ok (.eepromRdy .master) := rfl
theorem test_decode_eepromRdyWr : decode 0x000000000000000000120030#96 = .ok (.eepromRdyWr .slave) := rfl
theorem test_decode_rstsndWr : decode 0x000000010000000000020031#96 = .ok (.rstsndWr .master 1 .both) := rfl
theorem test_decode_rstslvWr : decode 0x000000010000000000120032#96 = .ok (.rstslvWr .slave 1 .both) := rfl
theorem test_decode_rstsndRd : decode 0x000000000000000000020011#96 = .ok (.rstsndRd .master) := rfl
theorem test_decode_rstslvRd : decode 0x000000000000000000120012#96 = .ok (.rstslvRd .slave) := rfl
theorem test_decode_wdtKick : decode 0x000000000000000000020013#96 = .ok (.wdtKick .master false) := rfl
theorem test_decode_wdtKick_write : decode 0x000000000000000000120033#96 = .ok (.wdtKick .slave true) := rfl
theorem test_decode_c148RsvdS01 : decode 0x000000000000000000020001#96 = .ok (.c148RsvdS01 .master false 1) := rfl
theorem test_decode_c148RsvdS2 : decode 0x000000000000000000020022#96 = .ok (.c148RsvdS2 .master true) := rfl
theorem test_decode_c148RsvdS89 : decode 0x000000000000000000120029#96 = .ok (.c148RsvdS89 .slave true 1) := rfl
theorem test_decode_c148RsvdRdS10 : decode 0x00000000000000000002000A#96 = .ok (.c148RsvdRdS10 .master) := rfl
theorem test_decode_c148RsvdS2023 : decode 0x000000000000000000020034#96 = .ok (.c148RsvdS2023 .master true 0) := rfl
theorem test_decode_c148RsvdS2431 : decode 0x00000000000000000002001F#96 = .ok (.c148RsvdS2431 .master false 7) := rfl
theorem test_decode_tileWr : decode 0x03EF00420000000000030105#96 = .ok (.tileWr 5 1007 0x0042 .both) := rfl
theorem test_decode_scrollxWr : decode 0x000002080000000000030110#96 = .ok (.scrollxWr 0 0x0208 .both) := rfl
theorem test_decode_scrollyWr : decode 0x000000E60000000000030124#96 = .ok (.scrollyWr 4 230 .both) := rfl
theorem test_decode_bankWr : decode 0x000000240000000002030132#96 = .ok (.bankWr 2 0x0024 .low) := rfl
theorem test_decode_lpriWr : decode 0x000000090000000000030143#96 = .ok (.lpriWr 3 9 .both) := rfl
theorem test_decode_flipWr : decode 0x000000010000000000030150#96 = .ok (.flipWr 1 .both) := rfl
theorem test_decode_sprbankWr : decode 0x000003000000000000030160#96 = .ok (.sprbankWr 0x0300 .both) := rfl
theorem test_decode_rozctrlWr : decode 0x0000FFF0000000000003017D#96 = .ok (.rozctrlWr 1 5 0xFFF0 .both) := rfl
theorem test_decode_rozpriWr : decode 0x000000020000000000030181#96 = .ok (.rozpriWr 1 2 .both) := rfl
theorem test_decode_vidRd : decode 0x000900000000000000130002#96 = .ok (.vidRd .slave (.tile 2 9)) := rfl
theorem test_decode_vidRd_roz : decode 0x000000000000000000030076#96 = .ok (.vidRd .master (.rozCtrl 0 6)) := rfl
theorem test_decode_vidRsvdK9 : decode 0x000000000000000000030090#96 = .ok (.vidRsvdK9 .master 0x090) := rfl
theorem test_decode_vidRsvdK9_layer6 : decode 0x000000000000000000030106#96 = .ok (.vidRsvdK9 .master 0x106) := rfl
theorem test_decode_vidRsvdKAB : decode 0x0000000000000000003301BF#96 = .ok (.vidRsvdKAB .io true 0x1F) := rfl
theorem test_decode_vidRsvdKCF : decode 0x0000000000000000000300C0#96 = .ok (.vidRsvdKCF .master false 0) := rfl
theorem test_decode_evtRaiseVblank : decode 0x000000000000000000040010#96 = .ok (.evtRaiseVblank .master) := rfl
theorem test_decode_evtRaisePosirq : decode 0x000000000000000000040013#96 = .ok (.evtRaisePosirq .slave) := rfl
theorem test_decode_evtRaiseExirq : decode 0x000000000000000000040014#96 = .ok (.evtRaiseExirq .master) := rfl
theorem test_decode_evtRaiseScirq : decode 0x000000000000000000040017#96 = .ok (.evtRaiseScirq .slave) := rfl
theorem test_decode_evtRaiseCpuirq : decode 0x000000000000000000040018#96 = .ok (.evtRaiseCpuirq .master) := rfl
theorem test_decode_evtRsvdSrc5 : decode 0x00000000000000000004001B#96 = .ok (.evtRsvdSrc5 .slave) := rfl
theorem test_decode_evtRsvdSrc67 : decode 0x00000000000000000004001E#96 = .ok (.evtRsvdSrc67 2) := rfl
theorem test_decode_slice : decode 0x000000000000000000050001#96 = .ok (.slice) := rfl
theorem test_decode_frameEnd : decode 0x000000000000000000050002#96 = .ok (.frameEnd) := rfl
theorem test_decode_machineReset : decode 0x000000000000000000050003#96 = .ok (.machineReset) := rfl
theorem test_decode_composite : decode 0x000000000000000000050010#96 = .ok (.composite) := rfl
theorem test_decode_palScan : decode 0x000000000000000000050011#96 = .ok (.palScan) := rfl
theorem test_decode_renderLayer : decode 0x000000000000000000050025#96 = .ok (.renderLayer 5) := rfl
theorem test_decode_drawLayer : decode 0x000000000000000000050033#96 = .ok (.drawLayer 3) := rfl
theorem test_decode_drawRoz : decode 0x000000000000000000050041#96 = .ok (.drawRoz 1) := rfl
theorem test_decode_drawSprites : decode 0x00000000000000000005005F#96 = .ok (.drawSprites 15) := rfl

/-- 46_scheduler.md R376 (V-SCH-6): SCH 0x04, EVT 0x20. -/
theorem test_decode_reserved : decode 0x000000000000000000050004#96 = .error .reservedCode
    ∧ decode 0x000000000000000000040020#96 = .error .reservedCode := ⟨rfl, rfl⟩

/-- Format 6, processor 4, lane mask 3, a C148 code of 7 bits: no operation (log 1). -/
theorem test_decode_refusals : decode 0x000000000000000000060000#96 = .error .badFormat
    ∧ decode 0x000000000000000000400000#96 = .error .badProcessor
    ∧ decode 0x000000000000000003000000#96 = .error .badLanes
    ∧ decode 0x000000000000000000020040#96 = .error .badCode := ⟨rfl, rfl, rfl, rfl⟩

/-- The table's word 0x005F is DRAW_SPRITES 15, and 0x0132 is BANK_WR of layer 2. -/
theorem test_table_words : decodeTableWord 8 0x5F = some (.drawSprites 15)
    ∧ decodeTableWord 16 0x132 = some (.bankWr 2 0 .both) := ⟨rfl, rfl⟩

/-- Presented first after reset, the table's word 0x23 runs LVL_WR CPUIRQ. -/
theorem test_fetch_word : (step (State.reset.withFetchWord 8 0x23) = exec (.lvlWrCpuirq .master 0 .both)
    (takeOp (State.reset.withFetchWord 8 0x23) [])) := rfl

/-! ### Bus accesses (section 2.1) -/

/-- V-BUS-4: two byte writes make a big-endian word; SLAVE reads the same DPRAM. -/
theorem test_wr8_rd16 : read16Value boardT .slave 0x180010
    (busWrite8 boardT .master 0x180011 0x34 (busWrite8 boardT .master 0x180010 0x12 s0)) = 0x1234 := by decide +kernel

/-- P4: SOUND reads the byte MASTER wrote. -/
theorem test_rd8_shared : read8Value boardT .sound 0x0010 (w16 .master 0x180010 0x1234 s0) = 0x12 := by decide +kernel

/-- A word write of the even lane alone leaves the odd byte. -/
theorem test_wr16_lane : read16Value boardT .master 0x180010
    (busWrite16 boardT .master 0x180010 0xAB00 .high (w16 .master 0x180010 0x1234 s0)) = 0xAB34 := by decide +kernel

/-- An address no range holds reads as open bus of the access's width. -/
theorem test_open_bus : read16Value boardT .master 0x700000 s0 = 0xFFFF ∧ read8Value boardT .io 0x8000 s0 = 0xFF := by
  decide +kernel

/-- An odd word access, and a word access of SOUND, are refused. -/
theorem test_refused16 : legalAccess .master (.rd16 0x180011) = false ∧ legalAccess .sound (.rd16 0x10) = false
    ∧ legalAccess .sound (.ifetch 0x11) = true ∧ legalAccess .slave (.ifetch 0x11) = false := by decide

/-- MASTER's bus has 24 address bits: bit 24 does not reach the router. -/
theorem test_addr_bits : read16Value boardT .master 0x01180010 (w16 .master 0x180010 0x1234 s0) = 0x1234 := by decide +kernel

/-! ### The C148 (section 2.2) -/

/-- V-C148-1: raise, then acknowledge. -/
theorem test_raise_ack : let r := raiseIrq .master .vblank (w16 .master 0x1CE000 0x0003 s0)
    line r .master 3 = true ∧ line (w16 .master 0x1DE000 0 r) .master 3 = false := by decide +kernel

/-- V-C148-2: level 0 is disabled. -/
theorem test_raise_disabled : line (raiseIrq .master .vblank s0) .master 3 = false := by decide +kernel

/-- V-C148-4: two levels, one acknowledged. -/
theorem test_ack_other_level : let s := raiseIrq .master .exirq (raiseIrq .master .posirq
      (withLevels ⟨0, 5, 2, 0, 0⟩ ⟨0, 0, 0, 0, 0⟩ s0))
    ipl s .master = 5 ∧ line (w16 .master 0x1D8000 0 s) .master 2 = false
      ∧ line (w16 .master 0x1D8000 0 s) .master 5 = true := by decide +kernel

/-- V-C148-5: the level lies in the odd lane. -/
theorem test_level_lanes : levelOf (busWrite8 boardT .master 0x1CE000 0x07 s0) .master .vblank = 0
    ∧ levelOf (busWrite8 boardT .master 0x1CE001 0x06 s0) .master .vblank = 6 := by decide +kernel

/-- V-C148-6: 0xB is level 3. -/
theorem test_level_field : read16Value boardT .master 0x1CE000 (w16 .master 0x1CE000 0x000B s0) = 3 := by decide +kernel

/-- V-C148-7: the trigger reaches the peer, and under PEER the peer's own acknowledge does not clear it. -/
theorem test_trigger_peer : let s := w16 .master 0x1D4000 0 (w16 .slave 0x1C6000 4 { s0 with rstSlaveIO := 1 })
    line s .slave 4 = true ∧ line (w16 .slave 0x1D6000 0 s) .slave 4 = true
      ∧ line (w16 .master 0x1D6000 0 s) .slave 4 = false := by decide +kernel

/-- V-C148-9, V-C148-10: the read of an acknowledge selector. -/
theorem test_ack_read : let s := raiseIrq .master .vblank (w16 .master 0x1CE000 0x0003 s0)
    read16Value boardT .master 0x1DE000 s = 0xFFFF ∧ line (busRead16 boardT .master 0x1DE000 s) .master 3 = true
      ∧ line (busRead16 { boardT with ackOnRead := true } .master 0x1DE000 s) .master 3 = false := by decide +kernel

/-- V-C148-11: the EEPROM-ready status, and its ignored write. -/
theorem test_eeprom_ready : read16Value boardT .master 0x1E0000 (w16 .master 0x1E0000 0 s0) = 0xFFFF
    ∧ read8Value boardT .master 0x1E0001 s0 = 0xFF := by decide +kernel

/-- V-C148-12 to V-C148-14: releasing and holding SLAVE and IO. -/
theorem test_slave_release : let s := w16 .master 0x1E4000 1 { s0 with out := [] }
    s.rstSlaveIO = 1 ∧ s.turnOver = true
      ∧ s.out = [.resetLine .slave false, .resetLine .io false, .yield .master]
      ∧ (w16 .master 0x1E4000 0 s).rstSlaveIO = 0 ∧ held s .slave = false ∧ held s .io = false := by decide +kernel

/-- V-C148-15, V-C148-16: the sound reset control, inactive on SLAVE. -/
theorem test_sound_release : (w16 .slave 0x1E2000 1 { s0 with rstSlaveIO := 1 }).rstSound = 0
    ∧ read8Value boardT .master 0x1E2001 (w16 .master 0x1E2000 1 s0) = 1 := by decide +kernel

/-- V-C148-17, V-C148-18: any access of the watchdog selector kicks. -/
theorem test_watchdog_kick : (busRead8 boardT .master 0x1E6001 { s0 with wdt := 2 }).wdt = 0
    ∧ (w16 .slave 0x1E6000 0x1234 { s0 with wdt := 2 }).wdt = 0 := by decide +kernel

/-- V-C148-19, V-C148-20: reserved selectors, and an alias of selector 3. -/
theorem test_c148_selectors : read16Value boardT .master 0x1C0000 s0 = 0xFFFF ∧ read16Value boardT .master 0x1D4000 s0 = 0xFFFF
    ∧ read8Value boardT .master 0x1FFFFF s0 = 0xFF
    ∧ read16Value boardT .master 0x1C6000 (w16 .master 0x1C7FFE 2 s0) = 2 := by decide +kernel

/-! ### Tile layers (section 2.3) -/

/-- V-TILE-1: the tile is marked dirty, and no other. -/
theorem test_tile_write : let s := tileWrite boardT 0 65 0x1234 .both (renderTiles boardT 0 s0)
    tileWord boardT s 0 65 = 0x1234 ∧ dirtyAt s 0 65 = true ∧ dirtyAt s 0 64 = false ∧ dirtyAt s 0 66 = false := by
  decide +kernel

/-- V-TILE-9, V-TILE-10: the index wraps; only the even lane is written. -/
theorem test_tile_write_wrap : tileWord boardT (tileWrite boardT 4 1011 0x0042 .both s0) 4 3 = 0x0042
    ∧ tileWord boardT (tileWrite boardT 1 0 0xAB00 .high (tileWrite boardT 1 0 0x1234 .both s0)) 1 0 = 0xAB34 := by
  decide +kernel

/-- V-TILE-3, V-TILE-4: a redundant bank write, and one of 0x24. -/
theorem test_bank_write : let s := renderTiles boardT 2 (bankWrite boardT 2 3 .both s0)
    dirtyAt (bankWrite boardT 2 3 .both s) 2 0 = false ∧ dirtyAt (bankWrite boardT 2 0x24 .both s) 2 4095 = true
      ∧ ((bankWrite boardT 2 0x24 .both s).layer 2).colorBank = 4 := by decide +kernel

/-- V-TILE-5: an unchanged flip still marks every tile. -/
theorem test_flip_write : let s := flipWrite 0 .both (renderTiles boardT 4 s0)
    dirtyAt s 4 0 = true ∧ dirtyAt s 4 1007 = true ∧ dirtyAt s 4 1008 = false ∧ s.flip = 0 := by decide +kernel

/-- V-TILE-6: scrolled by 0x208, column 504 shows tile 0. -/
theorem test_scroll_x : let s := scrollXWrite 0 0x0208 .both (tileWrite boardT 0 0 5 .both s0)
    tilePixel boardT s 0 504 0 = some 5 ∧ tilePixel boardT s 0 0 0 = none := by decide +kernel

/-- V-TILE-7: a fixed layer wraps at 224 rows. -/
theorem test_scroll_y : tilePixel boardT (scrollYWrite 4 230 .both (tileWrite boardT 4 0 9 .both s0)) 4 0 218 = some 9 := by
  decide +kernel

/-- V-TILE-8: a dirty layer is not drawn. -/
theorem test_draw_guard : execDrawLayer 0 s0 = .fault .staleTileCache :=
  if_pos (show anyDirty s0 0 = true by decide +kernel)

/-- V-TILE-11: three priority bits. -/
theorem test_layer_pri : vidRead boardT (layerPriWrite boardT 3 9 .both s0) (.pri 3) = some 1 := by decide +kernel

/-- V-TILE-12: the flipped decode, and the pixel it gives back. -/
theorem test_flip_decode : decodePixel boardT 0x8000 0 1 6 7 = some 1 ∧ decodePixel boardT 0x8000 0 1 0 0 = some 63 := by
  decide +kernel

/-- V-TILE-14, V-TILE-15: the palette index, modulo 8192. -/
theorem test_tile_palette : decodePixel boardT 5 31 0 0 0 = some 7941
    ∧ decodePixel { boardT with tileBankStride := 512 } 5 17 0 0 0 = some 517 := by decide +kernel

/-! ### Sprites and ROZ (sections 2.4 and 2.5) -/

/-- V-SPR-1, V-SPR-2: a sprite, and its flip. -/
theorem test_sprite : let s := sprite0 0x1000 0x0004 0x0007 0x0410 s0
    spriteAt boardT (slotWords boardT s 0) 4 0 = some 263 ∧ spriteAt boardT (slotWords boardT s 0) 11 7 = some 263
      ∧ spriteAt boardT (slotWords boardT s 0) 12 0 = none ∧ spriteAt boardT (slotWords boardT s 0) 3 0 = none := by
  decide +kernel

/-- V-SPR-6, V-SPR-14: a negative position, and a sprite twice its native height. -/
theorem test_sprite_scale : let s := sprite0 0x1000 0x03FC 0x0007 0x0420 s0
    spriteAt boardT (slotWords boardT s 0) 3 15 = some 263 ∧ spriteAt boardT (slotWords boardT s 0) 4 0 = none
      ∧ spriteAt boardT (slotWords boardT s 0) 0 16 = none := by decide +kernel

/-- V-SPR-10, V-SPR-8: the level a sprite is drawn at, and one of no height. -/
theorem test_sprite_level : drawnAt boardT 3 ⟨0x1000, 0x6004, 0x0007, 0x0410⟩ = true
    ∧ drawnAt boardT 0 ⟨0x1000, 0x6004, 0x0007, 0x0410⟩ = false ∧ drawnAt boardT 0 ⟨0x1000, 0x0004, 0x0007, 0x0400⟩ = false := by
  decide +kernel

/-- V-SPR-12: bank 1 is read where the select register says 1. -/
theorem test_sprite_bank : activeBank boardT (sprBankWrite 0x0001 .both s0) = 1 := by decide +kernel

/-- V-ROZ-1, V-ROZ-9: the identity plane; a ROZ colour of 3. -/
theorem test_roz : rozPixel boardT rozI 0 7 7 = some 0x1042 ∧ rozPixel boardT rozI 0 8 0 = none
    ∧ rozPixel boardT (sprBankWrite 0x0300 .both rozI) 0 0 0 = some 0x1342 := by decide +kernel

/-- V-ROZ-2: one step past the maximum start is the first column again. -/
theorem test_roz_wrap : let s := rozCtrlWrite boardT 0 4 0x7FF0 .both rozI
    rozPixelCoord (rozX (rozCtl boardT s 0) 0 0) = 2047 ∧ rozPixel boardT s 0 1 0 = some 0x1042 := by decide +kernel

/-- V-ROZ-12, V-ROZ-13, V-ROZ-15: register 6 is kept; a lane; a plane the board does not have. -/
theorem test_roz_registers : rozBusAt (rozCtrlWrite boardT 0 6 0xBEEF .both rozI) 0 6 = 0xBEEF
    ∧ rozBusAt (rozCtrlWrite boardT 0 0 0x0200 .low rozI) 0 0 = 0x0100
    ∧ rozBusAt (rozCtrlWrite boardT 1 0 0x0100 .both rozI) 1 0 = 0 ∧ vidRead boardT rozI (.rozCtrl 1 0) = none := by
  decide +kernel

/-- The priority of a plane keeps three bits. -/
theorem test_roz_pri : (rozPriWrite boardT 0 0x000A .both s0).rozPri[0] = 2 := by decide +kernel

/-! ### The compositor and the scheduler (sections 2.6 to 2.8) -/

/-- V-COMP-2: at a shared level the sprite is drawn after the tile. -/
theorem test_priority : let s := sprite0 0x1000 0x2004 0x0007 0x0410 (layerPriWrite boardT 0 1 .both
      (bankWrite boardT 0 2 .both (tileWrite boardT 0 0 5 .both s0)))
    spritesAt boardT s 1 = [0] ∧ spriteAt boardT (slotWords boardT s 0) 4 0 = some 263
      ∧ tilePixel boardT s 0 3 0 = some 517 ∧ spriteAt boardT (slotWords boardT s 0) 3 0 = none := by decide +kernel

/-- V-PAL-2: a sprite off the screen is still scanned. -/
theorem test_scan_sprite : spritePensOf boardT ⟨0x1000, 0x0200, 0x0007, 0x0410⟩ = List.replicate 64 263 := by decide +kernel

/-- V-SCH-1: after reset only MASTER has a turn. -/
theorem test_slice_after_reset : (match sliceRound boardT { s0 with out := [] } with
    | .ok t => decide (t.out = [.execute .master 1000] ∧ t.slice = 1)
    | .error _ => false) = true := by decide +kernel

/-- V-SCH-8: the release of SOUND ends MASTER's turn, and SOUND runs in the same round. -/
theorem test_slice_release : (match sliceRound boardT
      { s0 with out := [], cores := ⟨[[.wr16 0x1E2000 1 .both, .wr8 0x180000 1]], [], [], []⟩ } with
    | .ok t => decide (t.out = [.execute .master 1000, .resetLine .sound false, .yield .master, .execute .sound 1000]
        ∧ t.cores.master = [[.wr8 0x180000 1]] ∧ t.rstSound = 1)
    | .error _ => false) = true := by decide +kernel

/-- R194, R373: SLAVE, on a board where the reset controls act from it, holds itself: its turn ends there, and what it
has not made stays first in its queue. -/
theorem test_slice_self_hold : (match sliceRound { boardT with resetCtrlOnSlave := true }
      { s0 with out := [], rstSlaveIO := 1, cores := ⟨[], [[.wr16 0x1E4000 0 .both, .wr16 0x1E4000 1 .both]], [], []⟩ } with
    | .ok t => decide (t.rstSlaveIO = 0 ∧ held t .slave = true ∧ t.cores.slave = [[.wr16 0x1E4000 1 .both]]
        ∧ t.out = [.execute .master 1000, .execute .slave 1000, .resetLine .slave true, .resetLine .io true])
    | .error _ => false) = true := by decide +kernel

/-- R56, R152: of two byte writes to a word of the analog input, only the lane the board gives the start-conversion
register starts a conversion; both are events. -/
theorem test_analog_lane :
    let b : Board := { boardT with
      map := fun _ => [⟨0, 0xFF, .peripheral .analog⟩]
      analogControl := fun off m => decide (off = 0x10) && decide (m = .low)
      drawDone := fun _ => true }
    let s : State := { s0 with out := [] }
    (busWrite8 b .io 0x10 0x55 s).analogDone = false ∧ (busWrite8 b .io 0x11 0x55 s).analogDone = true
      ∧ (busWrite8 b .io 0x11 0x55 s).draws = s.draws + 1
      ∧ (busWrite8 b .io 0x10 0x55 s).out = [.peripheralWrite .analog 0x10 0x5500 .high] := by decide +kernel

/-- R150, R152 (log 21): a byte access at the odd start of a handler range has the even offset -1. -/
theorem test_handler_odd_start : handlerOffEven ⟨0x1C0001, 0x1FFFFF, .c148⟩ 0x1C0001 = 0xFFFFFFFF := by decide

/-- V-SCH-5: memory is kept by MACHINE_RESET. -/
theorem test_machine_reset : let s := machineReset boardT (w16 .master 0x180010 0x1234 { s0 with wdt := 3, frame := 2 })
    read16Value boardT .master 0x180010 s = 0x1234 ∧ s.wdt = 0 ∧ s.frame = 0 ∧ s.draws = 2 := by decide +kernel

/-! ### Witnesses: concrete states and operands that meet the hypotheses of the obligations -/

/-- A state in which MASTER's VBLANK and POSIRQ share level 1, and SLAVE's EXIRQ has level 7. -/
def sLevels : State := withLevels ⟨1, 1, 0, 0, 0⟩ ⟨0, 0, 7, 0, 0⟩ State.reset

/-- Every layer rendered: no tile is dirty. -/
def sClean : State := renderAll Config.board State.reset

theorem dirty_reset (b : Board) (n : Nat) (l : Layer) {t : Nat} (ht : t < ntiles l) :
    dirtyAt (State.afterReset b n) l t = true := by
  have e : (State.afterReset b n).layer l = TileLayer.reset b n l := by fin_cases l <;> rfl
  unfold dirtyAt
  rw [e]
  simp [TileLayer.reset, ht]

theorem coherent_of_dirty {b : Board} {s : State} (h : ∀ (l : Layer) (t : Nat), t < ntiles l → dirtyAt s l t = true) :
    CacheCoherent b s := by
  intro l t ht hd
  rw [h l t ht] at hd
  cases hd

theorem coherent_reset (b b' : Board) (n : Nat) : CacheCoherent b (State.afterReset b' n) :=
  coherent_of_dirty fun l _ ht => dirty_reset b' n l ht

theorem settled_of {s : State} (h1 : s.phase = .done) (h2 : s.visible = 0) (h3 : s.prevRGB = none) : FrameSettled s := by
  refine ⟨h1, ?_, ?_⟩
  · unfold visibleAt; rw [h2]; simp
  · intro c hc; rw [h3] at hc; cases hc

theorem pins_reset : PinsAgree State.reset := by
  refine ⟨?_, ?_⟩
  · intro k L hL
    have h : C148.reset.ownerAt L = none := by unfold C148.ownerAt C148.reset; rw [if_neg hL]; simp
    cases k
    · change (0 : BitVec 8).getLsbD L.toNat = (C148.reset.ownerAt L).isSome; rw [h]; simp
    · change (0 : BitVec 8).getLsbD L.toNat = (C148.reset.ownerAt L).isSome; rw [h]; simp
  · intro p; cases p <;> rfl

theorem widths_reset : WidthsLegal Config.board State.reset := by
  have e : ∀ l, State.reset.layer l = TileLayer.reset Config.board 0 l := by intro l; fin_cases l <;> rfl
  refine ⟨fun l => ?_, fun l => ?_, fun p => ?_, fun l t ht => ?_⟩
  · rw [e]; exact Nat.two_pow_pos _
  · rw [e]; exact Nat.two_pow_pos _
  · have h : State.reset.rozPri[p] = 0 := by fin_cases p <;> rfl
    rw [h]; exact Nat.two_pow_pos _
  · unfold dirtyAt; rw [e]; simp [TileLayer.reset]; omega

/-- A step that ends in a next state from a state that meets every invariant: the presented PAL_SCAN. -/
def sStep : State := { State.reset with pending := [0x000000000000000000050011#96] }

theorem step_sStep : step sStep = .next (palScan Config.board (takeOp sStep [])) := by
  have h : decode 0x000000000000000000050011#96 = .ok .palScan := rfl
  unfold step
  rw [show sStep.pending = 0x000000000000000000050011#96 :: [] from rfl]
  simp only [h]
  rfl

theorem test_witness_DecodeEncodeAgree : (Instr.vidRsvdK9 .io 0x19F).wellFormed = true
    ∧ (Instr.drawSprites 15).wellFormed = true := by decide

/-- The first and last reserved EVT codes below and above the operations, and reserved SCH codes at the ends of every
row. -/
theorem test_witness_ReservedCodesRefused :
    (∀ c ∈ [0x00, 0x0F, 0x1A, 0x20, 0xFF], c < 256 ∧ (c < 0x10 ∨ 0x1A ≤ c))
      ∧ (∀ c ∈ [0x00, 0x04, 0x0F, 0x12, 0x26, 0x2F, 0x36, 0x42, 0x60, 0xFF], c < 256 ∧ c / 16 ≠ 5
        ∧ c ∉ [0x01, 0x02, 0x03, 0x10, 0x11, 0x20, 0x21, 0x22, 0x23, 0x24, 0x25, 0x30, 0x31, 0x32, 0x33, 0x34, 0x35,
          0x40, 0x41])
      ∧ ({ State.reset with pending := [packOp (BitVec.ofNat 16 0x1A) 4 0 0 0 0 0] } : State).pending
        = packOp (BitVec.ofNat 16 0x1A) 4 0 0 0 0 0 :: [] := ⟨by decide, by decide, rfl⟩

theorem test_witness_StepRunsPresentedOperation : sStep.pending = 0x000000000000000000050011#96 :: []
    ∧ decode 0x000000000000000000050011#96 = .ok .palScan := ⟨rfl, rfl⟩

theorem test_witness_LoopRunsSlicesThenFrameEnd : State.reset.pending = [] := rfl

/-- A core with accesses: MASTER writes a byte in its first turn. -/
def sBusy : State := { State.reset with cores := ⟨[[.wr8 0x180010 0x12, .rd16 0x180010]], [], [[.rd8 0x10]], []⟩ }

theorem test_witness_FrameRunsToCompletion : sBusy.pending = [] ∧ sBusy.slice = 0
    ∧ ∀ p : Proc, ∀ os ∈ sBusy.cores.get p, ∀ o ∈ os, legalAccess p o = true := by
  refine ⟨rfl, rfl, fun p => ?_⟩
  cases p <;> decide

theorem test_witness_TurnsLegal : TurnsLegal sBusy := by
  intro p
  cases p <;> decide

theorem test_witness_ResetProcedure : (1 : BitVec 3) ≠ 0 ∧ (7 : BitVec 3) ≠ 0 := by decide

theorem test_witness_TriggerPeer : levelOf State.reset .slave .cpuirq = 0
    ∧ levelOf (withLevels ⟨0, 0, 0, 0, 0⟩ ⟨0, 0, 0, 0, 7⟩ State.reset) .slave .cpuirq ≠ 0 := by decide

/-- Two sources of level 1, and of level 7. -/
theorem test_witness_SameLevelSharing : (∀ L ∈ [(1 : BitVec 3), 7], L ≠ 0
    ∧ levelOf (withLevels ⟨L, L, 0, 0, 0⟩ ⟨0, 0, 0, 0, 0⟩ State.reset) .master .vblank = L
    ∧ levelOf (withLevels ⟨L, L, 0, 0, 0⟩ ⟨0, 0, 0, 0, 0⟩ State.reset) .master .posirq = L)
    ∧ ∀ L' : BitVec 3, ownerOf sLevels .master L' = none := by decide

theorem test_witness_ReprogrammedLevel : levelOf sLevels .slave .exirq ≠ 0
    ∧ (0x0002 : Word).extractLsb' 0 3 ≠ levelOf sLevels .slave .exirq := by decide

/-- A raised line, an operation that may not clear it, and an access that reaches no C148. -/
theorem test_witness_OnlyAcknowledgeClears : mayClear .palScan = false
    ∧ exec .palScan (raiseIrq .master .vblank sLevels) = .next (palScan Config.board (raiseIrq .master .vblank sLevels))
    ∧ line (raiseIrq .master .vblank sLevels) .master 1 = true
    ∧ route boardT .master (busAddr boardT .master 0x180010)
      = .region ⟨0x180000, 0x1807FF, .region .dpram 0⟩ .dpram 0
    ∧ access boardT .master (.wr8 0x180010 1) s0 = .ok (busWrite8 boardT .master 0x180010 1 s0) :=
  ⟨rfl, rfl, by decide, by decide +kernel, rfl⟩

theorem test_witness_PinsAgreeKept : PinsAgree sStep ∧ ∃ t, step sStep = .next t :=
  ⟨⟨pins_reset.irq, pins_reset.reset⟩, _, step_sStep⟩

theorem test_witness_CacheCoherentKept : CacheCoherent Config.board sStep ∧ ∃ t, step sStep = .next t :=
  ⟨coherent_of_dirty fun l _ ht => dirty_reset Config.board 0 l ht, _, step_sStep⟩

theorem test_witness_MemoryCanonicalKept : MemoryCanonical Config.board sStep ∧ ∃ t, step sStep = .next t :=
  ⟨rfl, _, step_sStep⟩

theorem test_witness_WidthsLegalKept : WidthsLegal Config.board sStep ∧ ∃ t, step sStep = .next t :=
  ⟨⟨widths_reset.bank, widths_reset.pri, widths_reset.rozPri, widths_reset.dirty⟩, _, step_sStep⟩

theorem test_witness_FrameSettledKept : FrameSettled sStep ∧ ∃ t, step sStep = .next t :=
  ⟨settled_of rfl rfl rfl, _, step_sStep⟩

/-- V-BUS-12: the range registered later shadows the earlier one, at both its ends; past its end the earlier one is
reached; past both, none. -/
theorem test_witness_ResolveLastWins :
    let m : List AddressRange := [⟨0x0000, 0x0FFF, .region .dpram 0⟩, ⟨0x0400, 0x04FF, .region .sciram 0⟩]
    resolve m 0x0400 = some ⟨0x0400, 0x04FF, .region .sciram 0⟩ ∧ resolve m 0x04FF = some ⟨0x0400, 0x04FF, .region .sciram 0⟩
      ∧ resolve m 0x0500 = some ⟨0x0000, 0x0FFF, .region .dpram 0⟩ ∧ resolve m 0x1000 = none := by decide

/-- An odd address, SOUND, and an even address of a general CPU. -/
theorem test_witness_WordRead : (0x180011 : Addr).getLsbD 0 = true ∧ genOf .sound = none
    ∧ genOf .slave = some .slave ∧ (0x180010 : Addr).getLsbD 0 = false := by decide

theorem test_witness_WordWrite : (0x1807FF : Addr).getLsbD 0 = true ∧ genOf .io = none
    ∧ genOf .master = some .master ∧ (0x1807FE : Addr).getLsbD 0 = false
    ∧ regionPlace boardT .dpram 0x7FE ≠ regionPlace boardT .dpram 0x7FF := by decide

theorem test_witness_InstructionFetch : genOf .master = some .master ∧ genOf .io = none
    ∧ (0x000000 : Addr).getLsbD 0 = false := by decide

/-- The last byte of DPRAM; a byte of VRAM that is no tile's; the odd byte of a word that is tile 3 of layer 4 by its
index 1011. -/
theorem test_witness_RegionReadAfterWrite :
    let b : Board := { boardT with vramTile := fun i => if i = 0 then some (4, 1011) else none }
    regionPlace b .dpram 0x7FF = (.region .dpram, 0x7FF) ∧ regionPlace b .vram 2 = (.region .vram, 2)
      ∧ regionPlace b .vram 1 = (.tiles 4, 7) := by decide +kernel

/-- MASTER's 0x180010 and SOUND's 0x0010 are byte 0x10 of DPRAM. -/
theorem test_witness_SharedWindowVisible :
    resolve (boardT.map .master) (busAddr boardT .master 0x180010) = some ⟨0x180000, 0x1807FF, .region .dpram 0⟩
      ∧ resolve (boardT.map .sound) (busAddr boardT .sound 0x0010) = some ⟨0, 0x7FF, .region .dpram 0⟩
      ∧ (busAddr boardT .master 0x180010 - 0x180000 + 0) % regionSize boardT .dpram
        = (busAddr boardT .sound 0x0010 - 0 + 0) % regionSize boardT .dpram := by decide +kernel

theorem test_witness_DecodedTilePixels : (0 : Nat) < 8 ∧ (7 : Nat) < 8 := by decide

/-- Colour bank 1 and a write of 0: the bank changes. Colour bank 0 and a write of 0: it does not. -/
theorem test_witness_BankWrite :
    (0 : Word) ≠ ((setLayer 0 { State.reset.layer 0 with colorBank := 1 } State.reset).layer 0).colorBank
      ∧ (0 : Word) = (State.reset.layer 0).colorBank
      ∧ (laneWord ((setLayer 0 { State.reset.layer 0 with colorBank := 1 } State.reset).layer 0).colorBank 0 .both).toNat
        % 2 ^ Config.board.tileBankBits = 0 := by
  rw [layer_setLayer, if_pos rfl]
  exact ⟨by decide, rfl, Nat.zero_mod _⟩

theorem test_witness_DrawLayer : (∃ i, dirtyAt State.reset 5 i = true) ∧ ∀ i, dirtyAt sClean 5 i = false :=
  ⟨⟨1007, dirty_reset Config.board 0 5 (by decide)⟩, fun i => dirtyAt_renderAll Config.board State.reset 5 i⟩

/-- The clean state is coherent too: its tiles are decoded. -/
theorem coherent_sClean : CacheCoherent Config.board sClean := by
  intro l t ht _
  have hc := cacheTile_renderAll (coherent_reset Config.board Config.board 0) l ht
  have hm : sClean.mem = State.reset.mem := by unfold sClean; rw [renderAll_eq]
  have hf : sClean.flip = State.reset.flip := by unfold sClean; rw [renderAll_eq]
  have hb : (sClean.layer l).colorBank = (State.reset.layer l).colorBank := by
    unfold sClean; rw [renderAll_layer, renderTiles_layer, if_pos rfl]
  rw [tileWord_congr hm, hf, hb]
  exact hc

theorem test_witness_LayerPixelUnflipped : CacheCoherent Config.board sClean ∧ ∀ i, dirtyAt sClean 0 i = false :=
  ⟨coherent_sClean, fun i => dirtyAt_renderAll Config.board State.reset 0 i⟩

/-- Two states of different histories, of the same tile words and registers: all dirty, and all clean. -/
theorem test_witness_HistoryIndependent (l : Layer) : CacheCoherent Config.board State.reset
    ∧ CacheCoherent Config.board sClean
    ∧ (∀ i, i < ntiles l → tileWord Config.board State.reset l i = tileWord Config.board sClean l i)
    ∧ (State.reset.layer l).colorBank = (sClean.layer l).colorBank ∧ State.reset.flip = sClean.flip
    ∧ (State.reset.layer l).scrollX = (sClean.layer l).scrollX
    ∧ (State.reset.layer l).scrollY = (sClean.layer l).scrollY := by
  have hm : State.reset.mem = sClean.mem := by unfold sClean; rw [renderAll_eq]
  have hf : State.reset.flip = sClean.flip := by unfold sClean; rw [renderAll_eq]
  have hl : sClean.layer l = (renderTiles Config.board l State.reset).layer l := renderAll_layer Config.board State.reset l
  rw [renderTiles_layer, if_pos rfl] at hl
  exact ⟨coherent_reset _ _ 0, coherent_sClean, fun i _ => tileWord_congr hm l i, by rw [hl], hf, by rw [hl], by rw [hl]⟩

/-- V-SPR-1: the first and the last offset in the sprite's rectangle, and a pixel outside it. -/
theorem test_witness_SpritePixel : let f := boardT.spriteDecode ⟨0x1000, 0x0004, 0x0007, 0x0410⟩
    let X0 : Int := (BitVec.ofNat boardT.spritePosBits f.posX).toInt + boardT.spriteOriginX
    let Y0 : Int := (BitVec.ofNat boardT.spritePosBits f.posY).toInt + boardT.spriteOriginY
    0 < f.reqW ∧ 0 < f.reqH ∧ (4 : Int) = X0 + (0 : Nat) ∧ (0 : Int) = Y0 + (0 : Nat)
      ∧ 15 < f.reqW ∧ 15 < f.reqH ∧ (19 : Int) = X0 + (15 : Nat) ∧ (15 : Int) = Y0 + (15 : Nat)
      ∧ (∀ dx < f.reqW, (3 : Int) ≠ X0 + dx) ∧ ∀ dx < f.reqW, (20 : Int) ≠ X0 + dx := by decide +kernel

/-- The last offset of a sprite of native size, and of one scaled up. -/
theorem test_witness_SpriteSampling :
    (let f := boardT.spriteDecode ⟨0x1000, 0x0404, 0x0007, 0x0410⟩
     15 < f.reqW ∧ f.reqW = nativeSize f ∧ 15 < f.reqH ∧ f.reqH = nativeSize f ∧ f.flipX = true)
      ∧ 31 < (boardT.spriteDecode ⟨0x1000, 0x0004, 0x0007, 0x0810⟩).reqW := by decide +kernel

theorem test_witness_DrawSprites : (0 : BitVec 4).toNat ≤ priMax boardT ∧ (7 : BitVec 4).toNat ≤ priMax boardT
    ∧ ¬ (8 : BitVec 4).toNat ≤ priMax boardT := by decide

theorem test_witness_DrawRoz : ((0 : Plane) = 0 ∨ boardT.rozPlanes = .two) ∧ ¬ ((1 : Plane) = 0 ∨ boardT.rozPlanes = .two)
    ∧ boardT.rozPresent 0 = true := by decide

/-- W3: a step of 1.0. -/
theorem test_witness_RozAccumulationAndWrap : (rozCtl boardT rozI 0).rightDx = 0x10000 := by decide +kernel

theorem test_witness_PriorityOrdering : CacheCoherent Config.board State.reset := coherent_reset _ _ 0

theorem test_witness_ColourTableCurrent : FrameSettled State.reset := settled_of rfl rfl rfl

/-- Program P2, slice 0.10: MASTER releases SLAVE and IO in its turn, so both are released before theirs. -/
def sRelease : State := { s0 with cores := ⟨[[.wr16 0x1E4000 1 .both]], [[.wr16 0x1CE000 2 .both]], [], []⟩ }

/-- The state of an outcome; `s0` for a refusal. -/
def got (r : Except Refusal State) : State :=
  match r with
  | .ok s => s
  | .error _ => s0

/-- The outcome is a state. -/
def isOk (r : Except Refusal State) : Bool :=
  match r with
  | .ok _ => true
  | .error _ => false

theorem eq_got {r : Except Refusal State} (h : isOk r = true) : r = .ok (got r) := by
  cases r with
  | ok s => rfl
  | error e => cases h

theorem test_witness_ReleasedRunsInRound :
    sliceRound boardT sRelease = .ok (got (sliceRound boardT sRelease))
      ∧ runTurn boardT .master sRelease = .ok (got (runTurn boardT .master sRelease))
      ∧ runTurn boardT .slave (got (runTurn boardT .master sRelease))
        = .ok (got (runTurn boardT .slave (got (runTurn boardT .master sRelease))))
      ∧ held sRelease .slave = true ∧ held (got (runTurn boardT .master sRelease)) .slave = false :=
  ⟨eq_got (by decide +kernel), eq_got (by decide +kernel), eq_got (by decide +kernel), by decide +kernel, by decide +kernel⟩

end Sys2Proof.Tests
end

/-! The cache invariant, the store's canonical form and the register widths (10_state.md R39 to R49) are kept by every
step. The three read the same small part of the state, so what the shared operations do to that part is said once
(`VideoKept`, `VideoClosed`), and each invariant is then checked against the few operations that change it. -/

namespace Sys2Proof.Machine

/-! ### What the three invariants read -/

/-- The store, the flip, the plane priorities and the layers are as they were, but for the scroll registers. -/
structure VideoKept (s t : State) : Prop where
  mem : t.mem = s.mem
  flip : t.flip = s.flip
  rozPri : t.rozPri = s.rozPri
  layer : ∀ l, ∃ x y, t.layer l = { s.layer l with scrollX := x, scrollY := y }

namespace VideoKept

variable {s t : State}

theorem of_layers (hm : t.mem = s.mem) (hf : t.flip = s.flip) (hr : t.rozPri = s.rozPri) (hl : t.layers = s.layers) :
    VideoKept s t :=
  ⟨hm, hf, hr, fun l => ⟨_, _, layer_congr hl l⟩⟩

theorem refl (s : State) : VideoKept s s := of_layers rfl rfl rfl rfl

theorem colorBank (h : VideoKept s t) (l : Layer) : (t.layer l).colorBank = (s.layer l).colorBank := by
  obtain ⟨x, y, e⟩ := h.layer l; rw [e]

theorem pri (h : VideoKept s t) (l : Layer) : (t.layer l).pri = (s.layer l).pri := by
  obtain ⟨x, y, e⟩ := h.layer l; rw [e]

theorem dirtyAt (h : VideoKept s t) (l : Layer) (i : Nat) : dirtyAt t l i = dirtyAt s l i := by
  obtain ⟨x, y, e⟩ := h.layer l; unfold Sys2Proof.Machine.dirtyAt; rw [e]

theorem cacheTile (h : VideoKept s t) (l : Layer) (i : Nat) : cacheTile t l i = cacheTile s l i := by
  obtain ⟨x, y, e⟩ := h.layer l; unfold Sys2Proof.Machine.cacheTile; rw [e]

theorem raiseIrq (k : Gen) (src : Source) (s : State) : VideoKept s (raiseIrq k src s) := by
  rw [raiseIrq_eq]; exact of_layers rfl rfl rfl rfl

theorem acknowledge (k : Gen) (src : Source) (s : State) : VideoKept s (acknowledge k src s) := by
  rw [acknowledge_eq]; exact of_layers rfl rfl rfl rfl

theorem rstSoundWrite (b : Board) (k : Gen) (v : Word) (m : Lanes) (s : State) :
    VideoKept s (rstSoundWrite b k v m s) := by
  rw [rstSoundWrite_spec b k v m s _ rfl]
  split
  · exact of_layers rfl rfl rfl rfl
  · exact refl s

theorem rstSlaveWrite (b : Board) (k : Gen) (v : Word) (m : Lanes) (s : State) :
    VideoKept s (rstSlaveWrite b k v m s) := by
  rw [rstSlaveWrite_spec b k v m s _ rfl]
  split
  · exact of_layers rfl rfl rfl rfl
  · exact refl s

theorem rozCtrlWrite (b : Board) (p : Plane) (r : BitVec 3) (v : Word) (m : Lanes) (s : State) :
    VideoKept s (rozCtrlWrite b p r v m s) := by
  unfold Sys2Proof.Machine.rozCtrlWrite
  split
  · exact of_layers rfl rfl rfl rfl
  · exact refl s

theorem setScroll (l : Layer) (x y : Word) (s : State) :
    VideoKept s (setLayer l { s.layer l with scrollX := x, scrollY := y } s) := by
  refine ⟨rfl, rfl, rfl, fun l' => ?_⟩
  rw [layer_setLayer]
  by_cases hl : l' = l
  · subst hl; exact ⟨x, y, if_pos rfl⟩
  · exact ⟨_, _, if_neg hl⟩

/-- A composite changes no more of what the invariants read than rendering every layer does. -/
theorem composite (b : Board) (s : State) : VideoKept (renderAll b s) (composite b s) := by
  obtain ⟨fb, idx, rgb, -, hc, -, -⟩ := composite_eq b s
  rw [hc, renderAll_eq]
  exact of_layers rfl rfl rfl rfl

end VideoKept

/-! ### The operations that change it -/

/-- BANK_WR leaves the state alone, or writes the bank and marks the whole layer dirty (42_tilemap.md R234). -/
theorem bankWrite_cases (b : Board) (l : Layer) (v : Word) (m : Lanes) (s : State) : bankWrite b l v m s = s
    ∨ bankWrite b l v m s = setLayer l { s.layer l with
        colorBank := bankField b (merge (s.layer l).colorBank v m), dirty := allDirty l } s := by
  unfold bankWrite
  simp only
  split
  · exact .inl rfl
  · exact .inr rfl

/-- Marking a tile dirty twice around another write to the store is marking it once. -/
theorem markDirty_writeByte_markDirty (b : Board) (l : Layer) (t : Nat) (k : Bank) (o : Nat) (v : Byte) (s : State) :
    markDirty l t (writeByte b k o v (markDirty l t s)) = markDirty l t (writeByte b k o v s) := by
  have hl : (writeByte b k o v (markDirty l t s)).layer l = (markDirty l t s).layer l := rfl
  have hl' : (writeByte b k o v s).layer l = s.layer l := rfl
  unfold markDirty at *
  rw [hl, hl', layer_setLayer, if_pos rfl]
  simp [setLayer, writeByte, markTile, setWire, BitVec.or_assoc]

/-- A tile write is two byte writes, each of which marks the tile dirty (42_tilemap.md R231, 20_memory.md R92). -/
theorem tileWrite_eq_bytes (b : Board) (l : Layer) (t v : Word) (m : Lanes) (s : State) : ∃ i hi lo, i < ntiles l
    ∧ tileWrite b l t v m s = markDirty l i (writeByte b (.tiles l) (2 * i + 1) lo
        (markDirty l i (writeByte b (.tiles l) (2 * i) hi s))) :=
  ⟨t.toNat % ntiles l, _, _, Nat.mod_lt _ (ntiles_pos l), (markDirty_writeByte_markDirty _ _ _ _ _ _ _).symm⟩

/-- A region write is a plain byte write, or a write of a byte of a tile that marks the tile dirty (log 8). -/
theorem regionWrite_cases (b : Board) (r : Region) (o : Nat) (v : Byte) (s : State) :
    (∃ r' o', regionWrite b r o v s = writeByte b (.region r') o' v s)
    ∨ ∃ l o', o' / 2 < ntiles l ∧ regionWrite b r o v s = markDirty l (o' / 2) (writeByte b (.tiles l) o' v s) := by
  unfold regionWrite
  cases hp : (regionPlace b r o).1 with
  | region r' => exact .inl ⟨r', _, rfl⟩
  | tiles l => exact .inr ⟨l, _, regionPlace_tiles hp, rfl⟩

/-! ### One induction for the three invariants -/

/-- What is left to check of a property of the store, the flip, the layers and the plane priorities, to have it kept by
every operation. -/
structure VideoClosed (b : Board) (P : State → Prop) : Prop where
  congr : ∀ {s t : State}, VideoKept s t → P s → P t
  plainByte : ∀ (r : Region) (o : Nat) (v : Byte) (s : State), P s → P (writeByte b (.region r) o v s)
  tileByte : ∀ (l : Layer) (o : Nat) (v : Byte) (s : State), o / 2 < ntiles l → P s →
    P (markDirty l (o / 2) (writeByte b (.tiles l) o v s))
  bank : ∀ (l : Layer) (d : Word) (s : State), P s →
    P (setLayer l { s.layer l with colorBank := bankField b d, dirty := allDirty l } s)
  pri : ∀ (l : Layer) (d : Word) (s : State), P s → P (setLayer l { s.layer l with pri := priField b d } s)
  rozPri : ∀ (p : Plane) (d : Word) (s : State), P s →
    P { s with rozPri := s.rozPri.set p.val (priField b d) p.isLt }
  flip : ∀ (v : Word) (m : Lanes) (s : State), P s → P (flipWrite v m s)
  render : ∀ (l : Layer) (s : State), P s → P (renderTiles b l s)
  reset : ∀ s : State, P s → P (machineReset b s)

namespace VideoClosed

variable {b : Board} {P : State → Prop} (h : VideoClosed b P)

include h

theorem region (r : Region) (o : Nat) (v : Byte) {s : State} (hs : P s) : P (regionWrite b r o v s) := by
  obtain ⟨r', o', e⟩ | ⟨l, o', ho, e⟩ := regionWrite_cases b r o v s
  · rw [e]; exact h.plainByte r' o' v s hs
  · rw [e]; exact h.tileByte l o' v s ho hs

theorem tile (l : Layer) (t v : Word) (m : Lanes) {s : State} (hs : P s) : P (tileWrite b l t v m s) := by
  obtain ⟨i, hi, lo, hlt, e⟩ := tileWrite_eq_bytes b l t v m s
  have hfirst := h.tileByte l (2 * i) hi s (by omega) hs
  rw [show 2 * i / 2 = i by omega] at hfirst
  have hsecond := h.tileByte l (2 * i + 1) lo _ (by omega) hfirst
  rwa [show (2 * i + 1) / 2 = i by omega, ← e] at hsecond

theorem bankWrite (l : Layer) (v : Word) (m : Lanes) {s : State} (hs : P s) : P (bankWrite b l v m s) := by
  obtain e | e := bankWrite_cases b l v m s
  · rwa [e]
  · rw [e]; exact h.bank l _ s hs

theorem rozPriWrite (p : Plane) (v : Word) (m : Lanes) {s : State} (hs : P s) : P (rozPriWrite b p v m s) := by
  unfold Sys2Proof.Machine.rozPriWrite
  split
  · exact h.rozPri p _ s hs
  · exact hs

theorem renderAll {s : State} (hs : P s) : P (renderAll b s) :=
  List.foldlRecOn allLayers _ hs fun t ht l _ => h.render l t ht

/-- The operations of the block that are not listed change nothing that the property reads. -/
theorem closed : Closed b P where
  book _ _ _ _ _ _ _ _ _ _ _ _ := h.congr (.of_layers rfl rfl rfl rfl)
  raise k src s := h.congr (.raiseIrq k src s)
  ack k src s := h.congr (.acknowledge k src s)
  level _ _ _ _ _ := h.congr (.of_layers rfl rfl rfl rfl)
  rstSound k v m s := h.congr (.rstSoundWrite b k v m s)
  rstSlave k v m s := h.congr (.rstSlaveWrite b k v m s)
  region r o v _ := h.region r o v
  tile l t v m _ := h.tile l t v m
  scrollX l _ _ s := h.congr (.setScroll l _ (s.layer l).scrollY s)
  scrollY l _ _ s := h.congr (.setScroll l (s.layer l).scrollX _ s)
  bank l v m _ := h.bankWrite l v m
  pri l _ _ s := h.pri l _ s
  flip := h.flip
  sprBank _ _ _ := h.congr (.of_layers rfl rfl rfl rfl)
  rozCtrl p r v m s := h.congr (.rozCtrlWrite b p r v m s)
  rozPri p v m _ := h.rozPriWrite p v m
  render := h.render
  drawn _ _ := h.congr (.of_layers rfl rfl rfl rfl)
  scan _ := h.congr (.of_layers rfl rfl rfl rfl)
  compose s hs := h.congr (.composite b s) (h.renderAll hs)
  reset := h.reset

end VideoClosed

/-! ### What a flip and a reset leave of the layers -/

theorem flipWrite_layer (v : Word) (m : Lanes) (s : State) (l : Layer) :
    (flipWrite v m s).layer l = { s.layer l with dirty := allDirty l } := by
  simp [flipWrite, State.layer]

theorem dirtyAt_flipWrite (v : Word) (m : Lanes) (s : State) (l : Layer) (i : Nat) :
    dirtyAt (flipWrite v m s) l i = decide (i < ntiles l) := by
  unfold dirtyAt; rw [flipWrite_layer, getLsbD_allDirty]

theorem machineReset_layer (b : Board) (s : State) (l : Layer) :
    (machineReset b s).layer l = TileLayer.reset b s.draws l := by
  fin_cases l <;> rfl

theorem dirtyAt_machineReset (b : Board) (s : State) (l : Layer) (i : Nat) :
    dirtyAt (machineReset b s) l i = decide (i < ntiles l) := by
  unfold dirtyAt; rw [machineReset_layer]; exact getLsbD_allDirty l i

/-! ### The store's canonical form -/

theorem memoryCanonical_writeByte {b : Board} {s : State} (k : Bank) (o : Nat) (v : Byte) (hs : MemoryCanonical b s) :
    MemoryCanonical b (writeByte b k o v s) :=
  memory_wf_memWrite (key k o) v hs

theorem memoryCanonical_videoClosed (b : Board) : VideoClosed b (MemoryCanonical b) where
  congr h hs := by unfold MemoryCanonical at *; rwa [h.mem]
  plainByte r o v _ hs := memoryCanonical_writeByte (.region r) o v hs
  tileByte l o v _ _ hs := memoryCanonical_writeByte (.tiles l) o v hs
  bank _ _ _ hs := hs
  pri _ _ _ hs := hs
  rozPri _ _ _ hs := hs
  flip _ _ _ hs := hs
  render _ _ hs := hs
  reset _ hs := hs

/-- Settles O22: every write to the store keeps its form, and nothing else reaches it. -/
theorem memoryCanonicalKept : Obligations.MemoryCanonicalKept :=
  stepKeeps_of_closed (memoryCanonical_videoClosed Config.board).closed

/-! ### The cache invariant -/

/-- A byte written into a tile's word leaves the words of all other tiles. -/
theorem tileWord_writeByte_of_ne (b : Board) {l l' : Layer} {o t : Nat} (v : Byte) (s : State)
    (h : ¬ (l' = l ∧ t = o / 2)) : tileWord b (writeByte b (.tiles l) o v s) l' t = tileWord b s l' t := by
  have h0 : ¬ (l' = l ∧ 2 * t = o) := fun e => h ⟨e.1, by omega⟩
  have h1 : ¬ (l' = l ∧ 2 * t + 1 = o) := fun e => h ⟨e.1, by omega⟩
  simp [tileWord, h0, h1]

/-- A byte written outside the tile words leaves them all. -/
theorem tileWord_writeByte_region (b : Board) (r : Region) (o : Nat) (v : Byte) (s : State) (l : Layer) (t : Nat) :
    tileWord b (writeByte b (.region r) o v s) l t = tileWord b s l t := by
  simp [tileWord]

/-- Marking a tile dirty leaves every cached tile. -/
theorem cacheTile_markDirty (l l' : Layer) (t i : Nat) (s : State) :
    cacheTile (markDirty l t s) l' i = cacheTile s l' i := by
  unfold cacheTile
  rw [← markDirty_layer l l' t s]

/-- Marking a tile dirty leaves every colour bank. -/
theorem colorBank_markDirty (l l' : Layer) (t : Nat) (s : State) :
    ((markDirty l t s).layer l').colorBank = (s.layer l').colorBank := by
  rw [← markDirty_layer l l' t s]

/-- A write of a byte of a tile marks that tile dirty, so it need keep the caches of the others only. -/
theorem cacheCoherent_tileByte {b : Board} {l : Layer} {o : Nat} (v : Byte) {s : State} (ho : o / 2 < ntiles l)
    (hs : CacheCoherent b s) : CacheCoherent b (markDirty l (o / 2) (writeByte b (.tiles l) o v s)) := by
  intro l' t ht hd
  have hlt : o / 2 < 4096 := lt_of_lt_of_le ho (ntiles_le l)
  rw [dirtyAt_markDirty _ _ hlt, Bool.or_eq_false_iff, decide_eq_false_iff_not] at hd
  obtain ⟨hclean, hne⟩ := hd
  rw [cacheTile_markDirty, colorBank_markDirty, tileWord_markDirty, tileWord_writeByte_of_ne b v s hne]
  exact hs l' t ht hclean

/-- Replacing a layer keeps the invariant where the new layer's clean tiles are as their words, its bank and the flip
say. -/
theorem cacheCoherent_setLayer {b : Board} {l : Layer} {x : TileLayer} {s : State} (hs : CacheCoherent b s)
    (hx : ∀ t, t < ntiles l → x.dirty.getLsbD t = false →
      x.cache.getD t [] = decodeTile b (tileWord b s l t) x.colorBank s.flip) :
    CacheCoherent b (setLayer l x s) := by
  intro l' t ht hd
  have hw : tileWord b (setLayer l x s) l' t = tileWord b s l' t := tileWord_congr rfl l' t
  rw [dirtyAt_setLayer] at hd
  unfold cacheTile
  rw [layer_setLayer, hw, setLayer_flip]
  by_cases hl : l' = l
  · subst hl
    rw [if_pos rfl] at hd ⊢
    exact hx t ht hd
  · rw [if_neg hl] at hd ⊢
    exact hs l' t ht hd

/-- Where every tile is dirty the invariant asks nothing. -/
theorem cacheCoherent_of_allDirty {b : Board} {s : State} (h : ∀ l i, dirtyAt s l i = decide (i < ntiles l)) :
    CacheCoherent b s := by
  intro l t ht hd
  simp [h, ht] at hd

/-- The dirty tiles of a rendered layer are decoded afresh, its clean ones were coherent before. -/
theorem cacheCoherent_renderTiles {b : Board} (l : Layer) {s : State} (hs : CacheCoherent b s) :
    CacheCoherent b (renderTiles b l s) := by
  refine cacheCoherent_setLayer hs fun t ht _ => ?_
  rw [tab_getD _ _ _ ht]
  split
  · rfl
  · rename_i hd
    exact hs l t ht (by simpa using hd)

theorem cacheCoherent_videoClosed (b : Board) : VideoClosed b (CacheCoherent b) where
  congr h hs := by
    intro l t ht hd
    rw [h.dirtyAt] at hd
    rw [h.cacheTile, h.colorBank, h.flip, tileWord_congr h.mem]
    exact hs l t ht hd
  plainByte r o v s hs := by
    intro l t ht hd
    rw [tileWord_writeByte_region]
    exact hs l t ht hd
  tileByte _ _ v _ ho hs := cacheCoherent_tileByte v ho hs
  bank l _ _ hs := cacheCoherent_setLayer hs fun t ht hd => by simp [ht] at hd
  pri l _ _ hs := cacheCoherent_setLayer hs (hs l)
  rozPri _ _ _ hs := hs
  flip v m s _ := cacheCoherent_of_allDirty (dirtyAt_flipWrite v m s)
  render l _ hs := cacheCoherent_renderTiles l hs
  reset s _ := cacheCoherent_of_allDirty (dirtyAt_machineReset b s)

/-- Settles O21: what changes a tile's word, its layer's bank or the flip marks the tile dirty, and rendering decodes what
is dirty. -/
theorem cacheCoherentKept : Obligations.CacheCoherentKept :=
  stepKeeps_of_closed (cacheCoherent_videoClosed Config.board).closed

/-! ### The register widths -/

theorem bankField_lt (b : Board) (d : Word) : (bankField b d).toNat < 2 ^ b.tileBankBits := by
  rw [bankField_toNat]; exact Nat.mod_lt _ (Nat.two_pow_pos _)

theorem priField_lt (b : Board) (d : Word) : (priField b d).toNat < 2 ^ priBits b := by
  rw [priField_toNat]; exact Nat.mod_lt _ (Nat.two_pow_pos _)

/-- A layer's registers are within their widths (10_state.md R40, R43). -/
structure LayerWidths (b : Board) (l : Layer) (x : TileLayer) : Prop where
  bank : x.colorBank.toNat < 2 ^ b.tileBankBits
  pri : x.pri.toNat < 2 ^ priBits b
  dirty : ∀ t, ntiles l ≤ t → x.dirty.getLsbD t = false

theorem widthsLegal_iff {b : Board} {s : State} : WidthsLegal b s ↔
    (∀ l, LayerWidths b l (s.layer l)) ∧ ∀ p : Plane, (s.rozPri[p]).toNat < 2 ^ priBits b :=
  ⟨fun h => ⟨fun l => ⟨h.bank l, h.pri l, h.dirty l⟩, h.rozPri⟩,
    fun ⟨hl, hp⟩ => ⟨fun l => (hl l).bank, fun l => (hl l).pri, hp, fun l => (hl l).dirty⟩⟩

/-- Marking a whole layer dirty sets no bit beyond its tiles (10_state.md R43). -/
theorem allDirty_beyond (l : Layer) (t : Nat) (ht : ntiles l ≤ t) : (allDirty l).getLsbD t = false := by
  simp [Nat.not_lt.mpr ht]

theorem widthsLegal_setLayer {b : Board} {l : Layer} {x : TileLayer} {s : State} (hs : WidthsLegal b s)
    (hx : LayerWidths b l x) : WidthsLegal b (setLayer l x s) := by
  obtain ⟨hl, hp⟩ := widthsLegal_iff.mp hs
  refine widthsLegal_iff.mpr ⟨fun l' => ?_, hp⟩
  rw [layer_setLayer]
  by_cases e : l' = l
  · subst e; rw [if_pos rfl]; exact hx
  · rw [if_neg e]; exact hl l'

/-- Marking one of a layer's tiles dirty sets no bit beyond them. -/
theorem widthsLegal_markDirty {b : Board} {l : Layer} {t : Nat} {s : State} (ht : t < ntiles l)
    (hs : WidthsLegal b s) : WidthsLegal b (markDirty l t s) := by
  refine widthsLegal_setLayer hs ⟨hs.bank l, hs.pri l, fun i hi => ?_⟩
  rw [markTile, getLsbD_setWire, if_neg (by omega)]
  exact hs.dirty l i hi

theorem widthsLegal_videoClosed (b : Board) : VideoClosed b (WidthsLegal b) where
  congr h hs := {
    bank := fun l => by rw [h.colorBank]; exact hs.bank l
    pri := fun l => by rw [h.pri]; exact hs.pri l
    rozPri := fun p => by rw [h.rozPri]; exact hs.rozPri p
    dirty := fun l t ht => by rw [h.dirtyAt]; exact hs.dirty l t ht }
  plainByte _ _ _ _ hs := ⟨hs.bank, hs.pri, hs.rozPri, hs.dirty⟩
  tileByte _ _ _ _ ho hs := widthsLegal_markDirty ho ⟨hs.bank, hs.pri, hs.rozPri, hs.dirty⟩
  bank l d _ hs := widthsLegal_setLayer hs ⟨bankField_lt b d, hs.pri l, allDirty_beyond l⟩
  pri l d _ hs := widthsLegal_setLayer hs ⟨hs.bank l, priField_lt b d, hs.dirty l⟩
  rozPri p d s hs := by
    refine ⟨hs.bank, hs.pri, fun q => ?_, hs.dirty⟩
    simp only [Fin.getElem_fin, Vector.getElem_set]
    split
    · exact priField_lt b d
    · exact hs.rozPri q
  flip v m s hs := by
    refine widthsLegal_iff.mpr ⟨fun l => ?_, hs.rozPri⟩
    rw [flipWrite_layer]
    exact ⟨hs.bank l, hs.pri l, allDirty_beyond l⟩
  render l _ hs := widthsLegal_setLayer hs ⟨hs.bank l, hs.pri l, fun _ _ => BitVec.getLsbD_zero⟩
  reset s hs := by
    refine widthsLegal_iff.mpr ⟨fun l => ?_, fun p => ?_⟩
    · rw [machineReset_layer]
      exact ⟨Nat.two_pow_pos _, Nat.two_pow_pos _, allDirty_beyond l⟩
    · have h0 : (machineReset b s).rozPri[p] = 0 := Vector.getElem_replicate p.isLt
      rw [h0]
      exact Nat.two_pow_pos _

/-- Settles O23: every write to a narrow register keeps its field's bits alone, and a dirty bit is set for tiles of the
layer alone. -/
theorem widthsLegalKept : Obligations.WidthsLegalKept :=
  stepKeeps_of_closed (widthsLegal_videoClosed Config.board).closed

end Sys2Proof.Machine

/-! The address decoder, the bytes of the shared regions, and what a write through one processor's table shows to
another (20_memory.md R82, R83, R86). -/

namespace Sys2Proof.Machine

/-! ### The range an address resolves to -/

/-- The ranges are looked at from the one registered last. -/
theorem resolve_eq_find? (table : List AddressRange) (a : Nat) :
    resolve table a = table.reverse.find? fun R => decide (R.start ≤ a ∧ a ≤ R.stop) := by
  induction table using List.reverseRecOn with
  | nil => rfl
  | append_singleton table R ih =>
    rw [resolve_append, List.reverse_append, List.reverse_singleton, List.singleton_append, List.find?_cons, ih]
    by_cases h : R.start ≤ a ∧ a ≤ R.stop <;> simp [h]

theorem resolve_eq_some_iff {table : List AddressRange} {a : Nat} {R : AddressRange} :
    resolve table a = some R ↔ ∃ pre post : List AddressRange, table = pre ++ R :: post
      ∧ (R.start ≤ a ∧ a ≤ R.stop) ∧ ∀ R' ∈ post, ¬ (R'.start ≤ a ∧ a ≤ R'.stop) := by
  simp only [resolve_eq_find?, List.find?_eq_some_iff_append, decide_eq_true_iff, Bool.not_eq_true',
    decide_eq_false_iff_not]
  constructor
  · rintro ⟨hR, later, earlier, htable, hlater⟩
    have hsplit : table = earlier.reverse ++ R :: later.reverse := by
      simpa using congrArg List.reverse htable
    exact ⟨earlier.reverse, later.reverse, hsplit, hR, fun R' h' => hlater R' (List.mem_reverse.mp h')⟩
  · rintro ⟨pre, post, rfl, hR, hpost⟩
    exact ⟨hR, post.reverse, pre.reverse, by simp, fun R' h' => hpost R' (List.mem_reverse.mp h')⟩

theorem resolve_eq_none_iff {table : List AddressRange} {a : Nat} :
    resolve table a = none ↔ ∀ R ∈ table, ¬ (R.start ≤ a ∧ a ≤ R.stop) := by
  rw [resolve_eq_find?, List.find?_eq_none]
  simp only [List.mem_reverse, decide_eq_true_iff]

/-- Settles O26: looking from the range registered last, the first that holds the address is the one no later one
shadows. -/
theorem resolveLastWins : Obligations.ResolveLastWins :=
  fun _ _ => ⟨fun _ => resolve_eq_some_iff, resolve_eq_none_iff⟩

/-! ### The bytes of the regions -/

/-- A byte outside `VRAM` is a stored byte of its own (10_state.md R39). -/
theorem regionPlace_of_ne_vram (b : Board) {r : Region} (h : r ≠ .vram) (o : Nat) :
    regionPlace b r o = (.region r, o) := by
  cases r with
  | vram => exact absurd rfl h
  | _ => rfl

/-- A region byte read after a region write (20_memory.md R83). -/
theorem regionRead_regionWrite (b : Board) (r r' : Region) (o o' : Nat) (v : Byte) (s : State) :
    regionRead b (regionWrite b r o v s) r' o'
      = if regionPlace b r' o' = regionPlace b r o then v else regionRead b s r' o' :=
  readByte_regionWrite b r o v s (regionPlace b r' o').1 (regionPlace b r' o').2

/-- Settles O32: a write reaches one stored byte, and a read reaches it exactly where it names the same place. -/
theorem regionReadAfterWrite : Obligations.RegionReadAfterWrite := by
  refine ⟨fun b r o => ?_, regionRead_regionWrite⟩
  by_cases h : r = .vram
  · subst h; rfl
  · rw [if_neg h, regionPlace_of_ne_vram b h]

/-! ### Byte accesses to a region -/

section RegionAccess

variable {b : Board} {p : Proc} {a : Addr} {R : AddressRange} {r : Region} {base : Nat}

/-- An address of a region's range reaches that region (20_memory.md R83). -/
theorem route_region {x : Nat} (hR : resolve (b.map p) x = some R) (ht : R.target = .region r base) :
    route b p x = .region R r base := by
  simp only [route, hR, ht]

/-- RD8 of a region byte returns the byte and does nothing else (40_router.md R150). -/
theorem access_rd8_region (hR : resolve (b.map p) (busAddr b p a) = some R) (ht : R.target = .region r base)
    (s : State) : access b p (.rd8 a) s
      = .ok (return8 p (regionRead b s r ((busAddr b p a - R.start + base) % regionSize b r)) s) := by
  simp only [access, busRead8, read8Value, route_region hR ht, readEffect, regionIndex, Nat.add_zero]

/-- WR8 of a region byte is the region write (40_router.md R152). -/
theorem access_wr8_region (hR : resolve (b.map p) (busAddr b p a) = some R) (ht : R.target = .region r base)
    (v : Byte) (s : State) : access b p (.wr8 a v) s
      = .ok (regionWrite b r ((busAddr b p a - R.start + base) % regionSize b r) v s) := by
  simp only [access, busWrite8, route_region hR ht, regionIndex, Nat.add_zero]

end RegionAccess

/-- Settles O33: both accesses come down to the one byte of the region, whatever tables they came through. -/
theorem sharedWindowVisible : Obligations.SharedWindowVisible := by
  intro b p p' a a' v s R R' r base base' hR ht hR' ht' hsame
  refine ⟨_, access_wr8_region hR ht v s, ?_⟩
  rw [access_rd8_region hR' ht', ← hsame, regionRead_regionWrite, if_pos rfl]
  rfl

end Sys2Proof.Machine

/-! The codes of the five formats (30_encoding.md R120-R125): the round trip through the operation word, a few codes
written out, and what an operation of a VID code does compared with an access to the video window. -/

namespace Sys2Proof.Machine

open Sys2Proof.Laws

/-! ### The round trip -/

/-- The round trip of every operation, from that of each constructor. -/
theorem decode_encode : ∀ i : Instr, i.wellFormed = true → decode (encode i) = .ok i
  | .rd8 p a => EncodeRoundTrip.rd8 p a
  | .wr8 p a v => EncodeRoundTrip.wr8 p a v
  | .rd16 p a => EncodeRoundTrip.rd16 p a
  | .wr16 p a v m => EncodeRoundTrip.wr16 p a v m
  | .ifetch p a => EncodeRoundTrip.ifetch p a
  | .lvlWrCpuirq k v m => EncodeRoundTrip.lvlWrCpuirq k v m
  | .lvlWrExirq k v m => EncodeRoundTrip.lvlWrExirq k v m
  | .lvlWrPosirq k v m => EncodeRoundTrip.lvlWrPosirq k v m
  | .lvlWrScirq k v m => EncodeRoundTrip.lvlWrScirq k v m
  | .lvlWrVblank k v m => EncodeRoundTrip.lvlWrVblank k v m
  | .lvlRdCpuirq k => EncodeRoundTrip.lvlRdCpuirq k
  | .lvlRdExirq k => EncodeRoundTrip.lvlRdExirq k
  | .lvlRdPosirq k => EncodeRoundTrip.lvlRdPosirq k
  | .lvlRdScirq k => EncodeRoundTrip.lvlRdScirq k
  | .lvlRdVblank k => EncodeRoundTrip.lvlRdVblank k
  | .cpuirqTrig k => EncodeRoundTrip.cpuirqTrig k
  | .ackCpuirq k => EncodeRoundTrip.ackCpuirq k
  | .ackExirq k => EncodeRoundTrip.ackExirq k
  | .ackPosirq k => EncodeRoundTrip.ackPosirq k
  | .ackScirq k => EncodeRoundTrip.ackScirq k
  | .ackVblank k => EncodeRoundTrip.ackVblank k
  | .ackReadCpuirq k => EncodeRoundTrip.ackReadCpuirq k
  | .ackReadExirq k => EncodeRoundTrip.ackReadExirq k
  | .ackReadPosirq k => EncodeRoundTrip.ackReadPosirq k
  | .ackReadScirq k => EncodeRoundTrip.ackReadScirq k
  | .ackReadVblank k => EncodeRoundTrip.ackReadVblank k
  | .eepromRdy k => EncodeRoundTrip.eepromRdy k
  | .eepromRdyWr k => EncodeRoundTrip.eepromRdyWr k
  | .rstsndWr k v m => EncodeRoundTrip.rstsndWr k v m
  | .rstslvWr k v m => EncodeRoundTrip.rstslvWr k v m
  | .rstsndRd k => EncodeRoundTrip.rstsndRd k
  | .rstslvRd k => EncodeRoundTrip.rstslvRd k
  | .wdtKick k wr => EncodeRoundTrip.wdtKick k wr
  | .c148RsvdS01 k wr s => EncodeRoundTrip.c148RsvdS01 k wr s
  | .c148RsvdS2 k wr => EncodeRoundTrip.c148RsvdS2 k wr
  | .c148RsvdS89 k wr s => EncodeRoundTrip.c148RsvdS89 k wr s
  | .c148RsvdRdS10 k => EncodeRoundTrip.c148RsvdRdS10 k
  | .c148RsvdS2023 k wr s => EncodeRoundTrip.c148RsvdS2023 k wr s
  | .c148RsvdS2431 k wr s => EncodeRoundTrip.c148RsvdS2431 k wr s
  | .tileWr l t v m => EncodeRoundTrip.tileWr l t v m
  | .scrollxWr l v m => EncodeRoundTrip.scrollxWr l v m
  | .scrollyWr l v m => EncodeRoundTrip.scrollyWr l v m
  | .bankWr l v m => EncodeRoundTrip.bankWr l v m
  | .lpriWr l v m => EncodeRoundTrip.lpriWr l v m
  | .flipWr v m => EncodeRoundTrip.flipWr v m
  | .sprbankWr v m => EncodeRoundTrip.sprbankWr v m
  | .rozctrlWr p r v m => EncodeRoundTrip.rozctrlWr p r v m
  | .rozpriWr p v m => EncodeRoundTrip.rozpriWr p v m
  | .vidRd p r => EncodeRoundTrip.vidRd p r
  | .vidRsvdK9 p c => EncodeRoundTrip.vidRsvdK9 p c
  | .vidRsvdKAB p wr c => EncodeRoundTrip.vidRsvdKAB p wr c
  | .vidRsvdKCF p wr c => EncodeRoundTrip.vidRsvdKCF p wr c
  | .evtRaiseVblank k => EncodeRoundTrip.evtRaiseVblank k
  | .evtRaisePosirq k => EncodeRoundTrip.evtRaisePosirq k
  | .evtRaiseExirq k => EncodeRoundTrip.evtRaiseExirq k
  | .evtRaiseScirq k => EncodeRoundTrip.evtRaiseScirq k
  | .evtRaiseCpuirq k => EncodeRoundTrip.evtRaiseCpuirq k
  | .evtRsvdSrc5 k => EncodeRoundTrip.evtRsvdSrc5 k
  | .evtRsvdSrc67 c => EncodeRoundTrip.evtRsvdSrc67 c
  | .slice => EncodeRoundTrip.slice
  | .frameEnd => EncodeRoundTrip.frameEnd
  | .machineReset => EncodeRoundTrip.machineReset
  | .composite => EncodeRoundTrip.composite
  | .palScan => EncodeRoundTrip.palScan
  | .renderLayer l => EncodeRoundTrip.renderLayer l
  | .drawLayer l => EncodeRoundTrip.drawLayer l
  | .drawRoz p => EncodeRoundTrip.drawRoz p
  | .drawSprites v => EncodeRoundTrip.drawSprites v

/-- Settles O1, one constructor at a time: each format's word decodes by its code, and each code gives back its
operation. -/
theorem decodeEncodeAgree : Obligations.DecodeEncodeAgree := decode_encode

/-! ### Codes written out -/

/-- Settles O2 by running the decoder on each of the eight words. -/
theorem specCodesDecode : Obligations.SpecCodesDecode := ⟨rfl, rfl, rfl, rfl, rfl, rfl, rfl, rfl⟩

/-! ### The video window -/

/-- The code `wr ++ kind ++ idx` as a number (R123), in the spelling of `vidCode_fields`. -/
theorem vidCode_eq_ofNat (wr : Bool) (kind idx : BitVec 4) :
    BitVec.ofBool wr ++ kind ++ idx = BitVec.ofNat 9 ((if wr then 256 else 0) + (16 * kind.toNat + idx.toNat)) := by
  have hk := kind.isLt
  have hi := idx.isLt
  apply BitVec.eq_of_toNat_eq
  rw [BitVec.toNat_append, BitVec.toNat_append, ← Nat.shiftLeft_add_eq_or_of_lt hk,
    ← Nat.shiftLeft_add_eq_or_of_lt hi, BitVec.toNat_ofNat, Nat.shiftLeft_eq, Nat.shiftLeft_eq]
  cases wr <;> simp <;> omega

/-- The decoder takes a VID code `wr ++ kind ++ idx` apart into its direction, its kind and its idx. -/
theorem vidCode_parts (wr : Bool) (kind idx : BitVec 4) :
    (BitVec.ofBool wr ++ kind ++ idx).getLsbD 8 = wr
      ∧ (BitVec.ofBool wr ++ kind ++ idx).toNat / 16 % 16 = kind.toNat
      ∧ (BitVec.ofBool wr ++ kind ++ idx).toNat % 16 = idx.toNat := by
  have hk := kind.isLt
  have hi := idx.isLt
  obtain ⟨hwr, hkind, hidx⟩ := vidCode_fields wr (n := 16 * kind.toNat + idx.toNat) (by omega)
  rw [vidCode_eq_ofNat]
  exact ⟨hwr, by omega, by omega⟩

/-- The write operation of a register writes that register (R123). -/
theorem exec_vidWriteOp (r : VidReg) (v : Word) (m : Lanes) (s : State) :
    exec (vidWriteOp r v m) s = .next (vidWrite Config.board r v m s) := by
  cases r <;> rfl

/-- A code of a register writes it or reads it, by the direction (R123). -/
theorem exec_decodeVid_reg (p : Proc) {c : BitVec 9} {t : Word} {r : VidReg}
    (hr : vidRegOf (c.toNat / 16 % 16) (c.toNat % 16) t = some r) (v : Word) (m : Lanes) (s : State) :
    exec (decodeVid p c t v m) s = .next (if c.getLsbD 8 then vidWrite Config.board r v m s
      else return16 p ((vidRead Config.board s r).getD Config.board.openBus16) s) := by
  rw [decodeVid, hr]
  cases c.getLsbD 8
  · rfl
  · exact exec_vidWriteOp r v m s

/-- A code of no register discards a write and reads as open bus (R132), whichever of the three rows it is in. -/
theorem exec_decodeVid_reserved (p : Proc) {c : BitVec 9} {t : Word}
    (hr : vidRegOf (c.toNat / 16 % 16) (c.toNat % 16) t = none) (v : Word) (m : Lanes) (s : State) :
    exec (decodeVid p c t v m) s = .next (vidReserved Config.board p (c.getLsbD 8) s) := by
  simp only [decodeVid, hr]
  split
  · rfl
  · split <;> rfl

/-- What the code `wr ++ kind ++ idx` of an offset does is what a word access to the window at that offset does. -/
theorem exec_decodeVid_window (p : Proc) (wr : Bool) {off : Addr} {c : VidSel} (hc : Config.board.vidregMap off = c)
    (v : Word) (m : Lanes) (s : State) :
    exec (decodeVid p (BitVec.ofBool wr ++ c.kind ++ c.idx) c.t v m) s
      = .next (if wr then videoWrite Config.board off v m s
          else return16 p ((videoReadValue Config.board off s).getD Config.board.openBus16) s) := by
  obtain ⟨hwr, hkind, hidx⟩ := vidCode_parts wr c.kind c.idx
  have hasked : vidRegOf ((BitVec.ofBool wr ++ c.kind ++ c.idx).toNat / 16 % 16)
      ((BitVec.ofBool wr ++ c.kind ++ c.idx).toNat % 16) c.t = videoReg Config.board off := by
    rw [hkind, hidx, videoReg, hc]
  cases hreg : videoReg Config.board off with
  | some r => rw [exec_decodeVid_reg p (hasked.trans hreg), hwr, videoWrite, videoReadValue, hreg]
  | none =>
    rw [exec_decodeVid_reserved p (hasked.trans hreg), hwr, videoWrite, videoReadValue, hreg]
    rfl

/-- Settles O35: the decoder and the window ask `vidRegOf` for the same register, and where there is one both write it
or read it; where there is none both take R132's open bus. -/
theorem videoWindowDispatch : Obligations.VideoWindowDispatch :=
  fun p _ v m s => ⟨exec_decodeVid_window p true rfl v m s, exec_decodeVid_window p false rfl v m s⟩

end Sys2Proof.Machine

/-! The bus accesses of the Address Space Router (40_router.md R150-R154): what each of them reaches, what a word write
leaves of a region, and that a read changes neither the store nor the layers. -/

namespace Sys2Proof.Machine

/-! ### What an address reaches -/

section Route

variable {b : Board} {p : Proc} {x : Nat} {R : AddressRange}

theorem route_unmapped (hR : resolve (b.map p) x = none) : route b p x = .openBus := by
  simp only [route, hR]

theorem route_c148 {k : Gen} (hR : resolve (b.map p) x = some R) (ht : R.target = .c148) (hk : genOf p = some k) :
    route b p x = .c148 R k := by
  simp only [route, hR, ht, hk]

/-- SOUND and IO have no C148 (60_exceptions.md R412; log 9). -/
theorem route_c148_of_genOf_none (hR : resolve (b.map p) x = some R) (ht : R.target = .c148) (hp : genOf p = none) :
    route b p x = .openBus := by
  simp only [route, hR, ht, hp]

theorem route_video (hR : resolve (b.map p) x = some R) (ht : R.target = .video) : route b p x = .video R := by
  simp only [route, hR, ht]

theorem route_peripheral {d : Peripheral} (hR : resolve (b.map p) x = some R) (ht : R.target = .peripheral d) :
    route b p x = .peripheral R d := by
  simp only [route, hR, ht]

end Route

/-! ### Which accesses are refused -/

section Exec

variable {p : Proc} {a : Addr}

theorem exec_rd8 (p : Proc) (a : Addr) (s : State) : exec (.rd8 p a) s = .next (busRead8 Config.board p a s) := rfl

theorem exec_wr8 (p : Proc) (a : Addr) (v : Byte) (s : State) :
    exec (.wr8 p a v) s = .next (busWrite8 Config.board p a v s) := rfl

theorem refused16_eq_true_iff : refused16 p a = true ↔ a.getLsbD 0 = true ∨ genOf p = none := by
  simp only [refused16, Bool.or_eq_true, Option.isNone_iff_eq_none]

theorem refused16_eq_false {k : Gen} (hk : genOf p = some k) (ha : a.getLsbD 0 = false) : refused16 p a = false := by
  simp only [refused16, hk, ha, Option.isNone_some, Bool.or_false]

theorem exec_rd16 (p : Proc) (a : Addr) (s : State) : exec (.rd16 p a) s
    = if refused16 p a = true then .refused .misalignedWord else .next (busRead16 Config.board p a s) := by
  change finish (access Config.board p (.rd16 a) s) = _
  simp only [access]
  split <;> rfl

theorem exec_wr16 (p : Proc) (a : Addr) (v : Word) (m : Lanes) (s : State) : exec (.wr16 p a v m) s
    = if refused16 p a = true then .refused .misalignedWord else .next (busWrite16 Config.board p a v m s) := by
  change finish (access Config.board p (.wr16 a v m) s) = _
  simp only [access]
  split <;> rfl

/-- A fetch of a general CPU is the word read (R154). -/
theorem exec_ifetch_of_genOf {k : Gen} (hk : genOf p = some k) (a : Addr) (s : State) :
    exec (.ifetch p a) s = exec (.rd16 p a) s := by
  change finish (access Config.board p (.ifetch a) s) = finish (access Config.board p (.rd16 a) s)
  simp only [access, hk]

/-- A fetch of SOUND or IO is the byte read (R154). -/
theorem exec_ifetch_of_genOf_none (hp : genOf p = none) (a : Addr) (s : State) :
    exec (.ifetch p a) s = exec (.rd8 p a) s := by
  change finish (access Config.board p (.ifetch a) s) = finish (access Config.board p (.rd8 a) s)
  simp only [access, hp]

end Exec

/-! ### A word write to a region -/

section WordToRegion

variable (b : Board) (r : Region) (i j : Nat) (v : Word) (m : Lanes) (s : State)

theorem regionWrite16_both : regionWrite16 b r i j v .both s
    = regionWrite b r j (loByte v) (regionWrite b r i (hiByte v) s) := rfl

theorem regionWrite16_high : regionWrite16 b r i j v .high s = regionWrite b r i (hiByte v) s := rfl

theorem regionWrite16_low : regionWrite16 b r i j v .low s = regionWrite b r j (loByte v) s := rfl

/-- The byte of the low lane is stored last, so it is what is left where the word wraps onto one place. -/
theorem readByte_regionWrite16 (k : Bank) (o : Nat) : readByte b (regionWrite16 b r i j v m s) k o
    = if m ≠ .high ∧ (k, o) = regionPlace b r j then loByte v
      else if m ≠ .low ∧ (k, o) = regionPlace b r i then hiByte v
      else readByte b s k o := by
  cases m with
  | both => simp [regionWrite16_both, readByte_regionWrite]
  | high => simp [regionWrite16_high, readByte_regionWrite]
  | low => simp [regionWrite16_low, readByte_regionWrite]

theorem dirtyAt_regionWrite16 (l : Layer) (n : Nat) : dirtyAt (regionWrite16 b r i j v m s) l n = (dirtyAt s l n
    || decide (m ≠ .low ∧ (regionPlace b r i).1 = .tiles l ∧ (regionPlace b r i).2 / 2 = n)
    || decide (m ≠ .high ∧ (regionPlace b r j).1 = .tiles l ∧ (regionPlace b r j).2 / 2 = n)) := by
  cases m with
  | both => simp [regionWrite16_both, dirtyAt_regionWrite]
  | high => simp [regionWrite16_high, dirtyAt_regionWrite]
  | low => simp [regionWrite16_low, dirtyAt_regionWrite]

theorem regionWrite16_layer (l : Layer) :
    { (regionWrite16 b r i j v m s).layer l with dirty := (s.layer l).dirty } = s.layer l := by
  cases m with
  | both =>
    have hsecond := regionWrite_layer b r j (loByte v) (regionWrite b r i (hiByte v) s) l
    have hfirst := regionWrite_layer b r i (hiByte v) s l
    rw [← hsecond] at hfirst
    exact hfirst
  | high => exact regionWrite_layer b r i (hiByte v) s l
  | low => exact regionWrite_layer b r j (loByte v) s l

theorem regionWrite16_frame : { regionWrite16 b r i j v m s with mem := s.mem, layers := s.layers } = s := by
  cases m with
  | both =>
    rw [regionWrite16_both, regionWrite_eq, regionWrite_eq b r i]
  | high => exact regionWrite_frame b r i (hiByte v) s
  | low => exact regionWrite_frame b r j (loByte v) s

end WordToRegion

/-! ### A write to an opaque peripheral -/

/-- The event of a write to an opaque peripheral, and what a "start conversion" latches (20_memory.md R84, 10_state.md
R56; log 11). -/
theorem peripheralWrite_eq (b : Board) (d : Peripheral) (off : Addr) (v : Word) (m : Lanes) (s : State) {c : Bool}
    (hc : c = (decide (d = .analog) && b.analogControl off m)) : peripheralWrite b d off v m s = { s with
      out := s.out ++ [.peripheralWrite d off v m]
      analogLatch := if c then Vector.ofFn fun i => b.drawLatch s.draws i.val else s.analogLatch
      analogDone := if c then b.drawDone s.draws else s.analogDone
      draws := if c then s.draws + 1 else s.draws } := by
  have hstart : (d = .analog ∧ b.analogControl off m = true) ↔ c = true := by
    rw [hc, Bool.and_eq_true, decide_eq_true_iff]
  simp only [peripheralWrite, hstart]
  cases c <;> rfl

/-! ### A read changes neither the store nor the layers -/

theorem ackRead_mem_layers (b : Board) (k : Gen) (src : Source) (s : State) :
    (ackRead b k src s).mem = s.mem ∧ (ackRead b k src s).layers = s.layers := by
  unfold ackRead
  split
  · rw [ackWrite, acknowledge_eq]
    exact ⟨rfl, rfl⟩
  · exact ⟨rfl, rfl⟩

/-- A read of the C148 window acknowledges a source, kicks the watchdog or does nothing (41_c148.md R190, R197). -/
theorem c148ReadEffect_cases (b : Board) (k : Gen) (off : Addr) (s : State) :
    (∃ src, c148ReadEffect b k off s = ackRead b k src s) ∨ c148ReadEffect b k off s = watchdogKick s
      ∨ c148ReadEffect b k off s = s := by
  unfold c148ReadEffect
  split
  · exact .inl ⟨.cpuirq, rfl⟩
  · exact .inl ⟨.exirq, rfl⟩
  · exact .inl ⟨.posirq, rfl⟩
  · exact .inl ⟨.scirq, rfl⟩
  · exact .inl ⟨.vblank, rfl⟩
  · exact .inr (.inl rfl)
  · exact .inr (.inr rfl)

theorem readEffect_mem_layers (b : Board) (p : Proc) (a : Addr) (w16 : Bool) (h : Hit) (off : Addr) (s : State) :
    (readEffect b p a w16 h off s).mem = s.mem ∧ (readEffect b p a w16 h off s).layers = s.layers := by
  cases h with
  | c148 R k =>
    change (c148ReadEffect b k off s).mem = s.mem ∧ (c148ReadEffect b k off s).layers = s.layers
    obtain ⟨src, he⟩ | he | he := c148ReadEffect_cases b k off s
    · rw [he]; exact ackRead_mem_layers b k src s
    · rw [he]; exact ⟨rfl, rfl⟩
    · rw [he]; exact ⟨rfl, rfl⟩
  | _ => exact ⟨rfl, rfl⟩

theorem busRead8_mem_layers (b : Board) (p : Proc) (a : Addr) (s : State) :
    (busRead8 b p a s).mem = s.mem ∧ (busRead8 b p a s).layers = s.layers :=
  readEffect_mem_layers b p a false _ _ s

theorem busRead16_mem_layers (b : Board) (p : Proc) (a : Addr) (s : State) :
    (busRead16 b p a s).mem = s.mem ∧ (busRead16 b p a s).layers = s.layers :=
  readEffect_mem_layers b p a true _ _ s

/-- Settles O31: the fetch is the read of its processor's width, and a read leaves the store and the layers. -/
theorem instructionFetch : Obligations.InstructionFetch := by
  refine ⟨fun p k a s hk => exec_ifetch_of_genOf hk a s, fun p a s hp => exec_ifetch_of_genOf_none hp a s,
    fun p a s hlegal => ?_⟩
  cases hk : genOf p with
  | none =>
    rw [exec_ifetch_of_genOf_none hk, exec_rd8]
    exact ⟨_, rfl, busRead8_mem_layers Config.board p a s⟩
  | some k =>
    have ha : a.getLsbD 0 = false := hlegal.resolve_left (by simp [hk])
    rw [exec_ifetch_of_genOf hk, exec_rd16, refused16_eq_false hk ha]
    exact ⟨_, rfl, busRead16_mem_layers Config.board p a s⟩

/-! ### The reads -/

theorem busRead8_of_openBus {b : Board} {p : Proc} {a : Addr} (h : route b p (busAddr b p a) = .openBus) (s : State) :
    busRead8 b p a s = { s with out := s.out ++ [.openBus p a false false, .data8 p b.openBus8] } := by
  simp [busRead8, read8Value, h, readEffect, handlerValue, return8, emit]

/-- Settles O27, by what the address reaches. -/
theorem byteRead : Obligations.ByteRead := by
  intro p a s
  rw [exec_rd8]
  dsimp only
  cases hR : resolve (Config.board.map p) (busAddr Config.board p a) with
  | none => rw [busRead8_of_openBus (route_unmapped hR)]
  | some R =>
    cases ht : R.target with
    | region r base =>
      simp [busRead8, read8Value, route_region hR ht, readEffect, regionIndex, return8, emit, ht]
    | c148 =>
      cases hk : genOf p with
      | some k =>
        cases hv : c148ReadValue Config.board k (handlerOffEven R (busAddr Config.board p a)) s <;>
          simp [busRead8, read8Value, route_c148 hR ht hk, readEffect, handlerValue, hitOff, return8, emit, ht, hv]
      | none => simp only [busRead8_of_openBus (route_c148_of_genOf_none hR ht hk), ht]
    | video =>
      cases hv : videoReadValue Config.board (handlerOffEven R (busAddr Config.board p a)) s <;>
        simp [busRead8, read8Value, route_video hR ht, readEffect, handlerValue, hitOff, return8, emit, ht, hv]
    | peripheral d =>
      simp [busRead8, read8Value, route_peripheral hR ht, readEffect, handlerValue, hitOff, return8, emit, ht,
        peripheralReadEffect, peripheralValue]

/-- Settles O28, by what the address reaches. -/
theorem wordRead : Obligations.WordRead := by
  refine ⟨fun p a s hbad => ?_, fun p k a s hk ha => ?_⟩
  · rw [exec_rd16, if_pos (refused16_eq_true_iff.mpr hbad)]
  · rw [exec_rd16, refused16_eq_false hk ha]
    dsimp only
    cases hR : resolve (Config.board.map p) (busAddr Config.board p a) with
    | none => simp [busRead16, read16Value, route_unmapped hR, readEffect, handlerValue, return16, emit]
    | some R =>
      cases ht : R.target with
      | region r base =>
        simp [busRead16, read16Value, route_region hR ht, readEffect, regionIndex, regionWord, ofBytes, return16, emit, ht]
      | c148 =>
        cases hv : c148ReadValue Config.board k (handlerOff R (busAddr Config.board p a)) s <;>
          simp [busRead16, read16Value, route_c148 hR ht hk, readEffect, handlerValue, hitOff, return16, emit, ht, hv]
      | video =>
        cases hv : videoReadValue Config.board (handlerOff R (busAddr Config.board p a)) s <;>
          simp [busRead16, read16Value, route_video hR ht, readEffect, handlerValue, hitOff, return16, emit, ht, hv]
      | peripheral d =>
        simp [busRead16, read16Value, route_peripheral hR ht, readEffect, handlerValue, hitOff, return16, emit, ht,
          peripheralReadEffect, peripheralValue]

/-! ### The writes -/

/-- Settles O29, by what the address reaches. -/
theorem byteWrite : Obligations.ByteWrite := by
  intro p a v s
  refine ⟨_, exec_wr8 p a v s, ?_⟩
  dsimp only
  cases hR : resolve (Config.board.map p) (busAddr Config.board p a) with
  | none => simp [busWrite8, route_unmapped hR, emit]
  | some R =>
    cases ht : R.target with
    | region r base =>
      simp only [busWrite8, route_region hR ht, regionIndex, ht, Nat.add_zero]
      refine ⟨?_, fun k o ho => ?_, ?_, ?_, ?_⟩
      · rw [regionRead_regionWrite, if_pos rfl]
      · rw [readByte_regionWrite, if_neg ho]
      · exact dirtyAt_regionWrite _ _ _ _ _
      · exact regionWrite_layer _ _ _ _ _
      · exact regionWrite_frame _ _ _ _ _
    | c148 =>
      cases hk : genOf p with
      | some k => simp only [busWrite8, route_c148 hR ht hk, ht]; rfl
      | none => simp only [busWrite8, route_c148_of_genOf_none hR ht hk, ht]; rfl
    | video => simp only [busWrite8, route_video hR ht, ht]; rfl
    | peripheral d =>
      simp only [busWrite8, route_peripheral hR ht, ht]
      exact peripheralWrite_eq _ _ _ _ _ _ rfl

/-- Settles O30, by what the address reaches. -/
theorem wordWrite : Obligations.WordWrite := by
  refine ⟨fun p a v m s hbad => ?_, fun p k a v m s hk ha => ⟨busWrite16 Config.board p a v m s, ?_, ?_⟩⟩
  · rw [exec_wr16, if_pos (refused16_eq_true_iff.mpr hbad)]
  · rw [exec_wr16, refused16_eq_false hk ha]
    rfl
  · dsimp only
    cases hR : resolve (Config.board.map p) (busAddr Config.board p a) with
    | none => simp [busWrite16, route_unmapped hR, emit]
    | some R =>
      cases ht : R.target with
      | region r base =>
        simp only [busWrite16, route_region hR ht, regionIndex, ht, Nat.add_zero]
        refine ⟨fun hm => ?_, fun hm hplace => ?_, fun k o ho => ?_, ?_, ?_, ?_⟩
        · rw [regionRead, readByte_regionWrite16, if_pos ⟨hm, rfl⟩]
          rfl
        · rw [regionRead, readByte_regionWrite16, if_neg (by tauto), if_pos ⟨hm, rfl⟩]
          rfl
        · rw [readByte_regionWrite16, if_neg (by tauto), if_neg (by tauto)]
        · exact dirtyAt_regionWrite16 _ _ _ _ _ _ _
        · exact regionWrite16_layer _ _ _ _ _ _ _
        · exact regionWrite16_frame _ _ _ _ _ _ _
      | c148 => simp only [busWrite16, route_c148 hR ht hk, ht]; rfl
      | video => simp only [busWrite16, route_video hR ht, ht]; rfl
      | peripheral d =>
        simp only [busWrite16, route_peripheral hR ht, ht]
        exact peripheralWrite_eq _ _ _ _ _ _ rfl

end Sys2Proof.Machine

/-! The C148 Interrupt Controller (41_c148.md R170-R200): the meanings of its operations and of its window, and the pins
that every step keeps in agreement with the lines and the reset controls (R199). -/

namespace Sys2Proof.Machine

/-! ### What R199 reads -/

/-- The pins, and all that says what they should show, are as they were. -/
structure PinsKept (s t : State) : Prop where
  irqPin : t.irqPin = s.irqPin
  rstPin : t.rstPin = s.rstPin
  c148 : t.c148 = s.c148
  rstSound : t.rstSound = s.rstSound
  rstSlaveIO : t.rstSlaveIO = s.rstSlaveIO

theorem PinsKept.refl (s : State) : PinsKept s s := ⟨rfl, rfl, rfl, rfl, rfl⟩

theorem PinsAgree.congr {s t : State} (hs : PinsAgree s) (h : PinsKept s t) : PinsAgree t where
  irq k L hL := by rw [h.irqPin, line_congr h.c148]; exact hs.irq k L hL
  reset p := by rw [h.rstPin, held_congr h.rstSound h.rstSlaveIO]; exact hs.reset p

/-! ### The operations outside the C148 reach none of it -/

theorem pinsKept_regionWrite (b : Board) (r : Region) (o : Nat) (v : Byte) (s : State) :
    PinsKept s (regionWrite b r o v s) := by
  rw [regionWrite_eq]; exact ⟨rfl, rfl, rfl, rfl, rfl⟩

theorem pinsKept_bankWrite (b : Board) (l : Layer) (v : Word) (m : Lanes) (s : State) :
    PinsKept s (bankWrite b l v m s) := by
  obtain e | e := bankWrite_cases b l v m s
  · rw [e]; exact .refl s
  · rw [e]; exact ⟨rfl, rfl, rfl, rfl, rfl⟩

theorem pinsKept_rozCtrlWrite (b : Board) (p : Plane) (r : BitVec 3) (v : Word) (m : Lanes) (s : State) :
    PinsKept s (rozCtrlWrite b p r v m s) := by
  unfold rozCtrlWrite
  split
  · exact ⟨rfl, rfl, rfl, rfl, rfl⟩
  · exact .refl s

theorem pinsKept_rozPriWrite (b : Board) (p : Plane) (v : Word) (m : Lanes) (s : State) :
    PinsKept s (rozPriWrite b p v m s) := by
  unfold rozPriWrite
  split
  · exact ⟨rfl, rfl, rfl, rfl, rfl⟩
  · exact .refl s

theorem pinsKept_composite (b : Board) (s : State) : PinsKept s (composite b s) := by
  obtain ⟨fb, idx, rgb, -, hc, -, -⟩ := composite_eq b s
  rw [hc]; exact ⟨rfl, rfl, rfl, rfl, rfl⟩

/-! ### The operations of the C148 move the pins with it -/

/-- A raise sets the line and its pin together (R171). -/
theorem pinsAgree_raiseIrq (k : Gen) (src : Source) {s : State} (hs : PinsAgree s) : PinsAgree (raiseIrq k src s) where
  irq k' L hL := by
    change irqPinAt (raiseIrq k src s) k' L = _
    rw [irqPinAt_raiseIrq, line_raiseIrq]
    split
    · rfl
    · exact hs.irq k' L hL
  reset p := by rw [raiseIrq_eq]; exact hs.reset p

/-- An acknowledge clears the line and its pin together (R172). -/
theorem pinsAgree_acknowledge (k : Gen) (src : Source) {s : State} (hs : PinsAgree s) :
    PinsAgree (acknowledge k src s) where
  irq k' L hL := by
    change irqPinAt (acknowledge k src s) k' L = _
    rw [irqPinAt_acknowledge, line_acknowledge]
    split
    · rfl
    · exact hs.irq k' L hL
  reset p := by rw [acknowledge_eq]; exact hs.reset p

theorem line_levelWrite (k k' : Gen) (src : Source) (v : Word) (m : Lanes) (L : BitVec 3) (s : State) :
    line (levelWrite k src v m s) k' L = line s k' L := by
  rw [line_eq_isSome, ownerOf_levelWrite, ← line_eq_isSome]

/-- A level write moves no owner, so no line (R174-R178). -/
theorem pinsAgree_levelWrite (k : Gen) (src : Source) (v : Word) (m : Lanes) {s : State} (hs : PinsAgree s) :
    PinsAgree (levelWrite k src v m s) where
  irq k' L hL := by rw [line_levelWrite]; exact hs.irq k' L hL
  reset := hs.reset

/-- A write of the sound control drives the line of SOUND alone (R193). -/
theorem pinsAgree_rstSoundWrite (b : Board) (k : Gen) (v : Word) (m : Lanes) {s : State} (hs : PinsAgree s) :
    PinsAgree (rstSoundWrite b k v m s) := by
  rw [rstSoundWrite_spec b k v m s _ rfl]
  split
  · exact ⟨hs.irq, fun
      | .master => hs.reset .master
      | .slave => hs.reset .slave
      | .sound => rfl
      | .io => hs.reset .io⟩
  · exact hs

/-- A write of the slave and I/O control drives the lines of SLAVE and IO alone (R194). -/
theorem pinsAgree_rstSlaveWrite (b : Board) (k : Gen) (v : Word) (m : Lanes) {s : State} (hs : PinsAgree s) :
    PinsAgree (rstSlaveWrite b k v m s) := by
  rw [rstSlaveWrite_spec b k v m s _ rfl]
  split
  · exact ⟨hs.irq, fun
      | .master => hs.reset .master
      | .slave => rfl
      | .sound => hs.reset .sound
      | .io => rfl⟩
  · exact hs

@[simp] theorem ownerAt_reset (L : BitVec 3) : C148.reset.ownerAt L = none := by
  simp [C148.ownerAt, C148.reset]

@[simp] theorem line_machineReset (b : Board) (s : State) (k : Gen) (L : BitVec 3) :
    line (machineReset b s) k L = false := by
  cases k <;> exact congrArg Option.isSome (ownerAt_reset L)

/-- The reset procedure leaves every line low, SOUND, SLAVE and IO held, and drives the pins so (R440). -/
theorem pinsAgree_machineReset (b : Board) (s : State) : PinsAgree (machineReset b s) where
  irq k L _ := by
    rw [line_machineReset]
    cases k <;> exact BitVec.getLsbD_zero
  reset
    | .master => rfl
    | .slave => rfl
    | .sound => rfl
    | .io => rfl

theorem pinsAgree_closed (b : Board) : Closed b PinsAgree where
  book _ _ _ _ _ _ _ _ _ _ _ _ hs := hs.congr ⟨rfl, rfl, rfl, rfl, rfl⟩
  raise k src _ hs := pinsAgree_raiseIrq k src hs
  ack k src _ hs := pinsAgree_acknowledge k src hs
  level k src v m _ hs := pinsAgree_levelWrite k src v m hs
  rstSound k v m _ hs := pinsAgree_rstSoundWrite b k v m hs
  rstSlave k v m _ hs := pinsAgree_rstSlaveWrite b k v m hs
  region r o v s hs := hs.congr (pinsKept_regionWrite b r o v s)
  tile _ _ _ _ _ hs := hs.congr ⟨rfl, rfl, rfl, rfl, rfl⟩
  scrollX _ _ _ _ hs := hs.congr ⟨rfl, rfl, rfl, rfl, rfl⟩
  scrollY _ _ _ _ hs := hs.congr ⟨rfl, rfl, rfl, rfl, rfl⟩
  bank l v m s hs := hs.congr (pinsKept_bankWrite b l v m s)
  pri _ _ _ _ hs := hs.congr ⟨rfl, rfl, rfl, rfl, rfl⟩
  flip _ _ _ hs := hs.congr ⟨rfl, rfl, rfl, rfl, rfl⟩
  sprBank _ _ _ hs := hs.congr ⟨rfl, rfl, rfl, rfl, rfl⟩
  rozCtrl p r v m s hs := hs.congr (pinsKept_rozCtrlWrite b p r v m s)
  rozPri p v m s hs := hs.congr (pinsKept_rozPriWrite b p v m s)
  render _ _ hs := hs.congr ⟨rfl, rfl, rfl, rfl, rfl⟩
  drawn _ _ hs := hs.congr ⟨rfl, rfl, rfl, rfl, rfl⟩
  scan _ hs := hs.congr ⟨rfl, rfl, rfl, rfl, rfl⟩
  compose s hs := hs.congr (pinsKept_composite b s)
  reset s _ := pinsAgree_machineReset b s

/-! ### Which C148, which operation -/

theorem peer_ne (k : Gen) : peer k ≠ k := by cases k <;> decide

/-- An acknowledge acts on the writer's own C148, but for CPUIRQ where the peer acknowledges (R185-R189). -/
theorem ackTarget_eq (b : Board) (k : Gen) (src : Source) :
    ackTarget b k src = if src = .cpuirq ∧ b.cpuirqAckBy = .peer then peer k else k := by
  cases src with
  | cpuirq => cases h : b.cpuirqAckBy <;> simp [ackTarget, h]
  | _ => simp [ackTarget]

theorem exec_cpuirqTrig (k : Gen) (s : State) : exec (.cpuirqTrig k) s = .next (raiseIrq (peer k) .cpuirq s) := rfl

theorem exec_rstsndWr (k : Gen) (v : Word) (m : Lanes) (s : State) :
    exec (.rstsndWr k v m) s = .next (rstSoundWrite Config.board k v m s) := rfl

theorem exec_rstslvWr (k : Gen) (v : Word) (m : Lanes) (s : State) :
    exec (.rstslvWr k v m) s = .next (rstSlaveWrite Config.board k v m s) := rfl

/-- A write to the window does what the write operation of its selector does, row by row of the table of selectors
(30_encoding.md R121, R122). -/
theorem exec_decodeC148_write (k : Gen) (off : Addr) (v : Word) (m : Lanes) (s : State) :
    exec (decodeC148 k true (selector off).toNat v m) s = .next (c148Write Config.board k off v m s) := by
  have hlt : (selector off).toNat < 32 := (selector off).isLt
  unfold c148Write
  generalize (selector off).toNat = n at hlt
  interval_cases n <;> rfl

/-- A read of the window has the effect and the value of the read operation of its selector, row by row of the table of
selectors (30_encoding.md R121, R122). -/
theorem exec_decodeC148_read (k : Gen) (off : Addr) (v : Word) (m : Lanes) (s : State) :
    exec (decodeC148 k false (selector off).toNat v m) s
      = .next (return16 (genProc k) ((c148ReadValue Config.board k off s).getD Config.board.openBus16)
          (c148ReadEffect Config.board k off s)) := by
  have hlt : (selector off).toNat < 32 := (selector off).isLt
  unfold c148ReadValue c148ReadEffect
  generalize (selector off).toNat = n at hlt
  interval_cases n <;> rfl

/-! ### Lines, requests and pending sources -/

/-- The request of a C148 with one line asserted (10_state.md R36). -/
theorem ipl_of_line_eq {s : State} {k : Gen} {L : BitVec 3} (h : ∀ L', line s k L' = decide (L' = L)) :
    ipl s k = L.toNat := by
  simp only [ipl, h]
  clear h
  revert L
  decide

/-- A source is pending only while the line of its level is asserted (60_exceptions.md R404). -/
theorem sourcePending_eq_false {s : State} {k : Gen} {src : Source} (h : line s k (levelOf s k src) = false) :
    sourcePending s k src = false := by
  have hnone : (s.c148.get k).ownerAt (levelOf s k src) = none := by
    rwa [line_eq_isSome, Option.isSome_eq_false_iff, Option.isNone_iff_eq_none] at h
  simp [sourcePending, hnone]

/-- A raised source whose level is not 0 is pending, and the line of its level asserted (R171). -/
theorem pending_raiseIrq {k : Gen} {src : Source} {s : State} (h : levelOf s k src ≠ 0) :
    line (raiseIrq k src s) k (levelOf s k src) = true ∧ sourcePending (raiseIrq k src s) k src = true := by
  have howner : ownerOf (raiseIrq k src s) k (levelOf s k src) = some src := by
    rw [ownerOf_raiseIrq, if_pos ⟨rfl, rfl, h⟩]
  refine ⟨by rw [line_eq_isSome, howner]; rfl, ?_⟩
  change (decide _ && decide (ownerOf _ k _ = some src)) = true
  rw [levelOf_raiseIrq, howner]
  simpa using h

/-- Two raises at one level of a quiet C148 leave it with one owner, the later source (R200). -/
theorem ownerOf_raiseIrq_raiseIrq {k : Gen} {src1 src2 : Source} {L : BitVec 3} {s : State} (hL : L ≠ 0)
    (h1 : levelOf s k src1 = L) (h2 : levelOf s k src2 = L) (hquiet : ∀ L', ownerOf s k L' = none) (L' : BitVec 3) :
    ownerOf (raiseIrq k src2 (raiseIrq k src1 s)) k L' = if L' = L then some src2 else none := by
  rw [ownerOf_raiseIrq, ownerOf_raiseIrq, levelOf_raiseIrq, h1, h2, hquiet]
  by_cases h : L' = L
  · rw [if_pos ⟨rfl, h, h ▸ hL⟩, if_pos h]
  · rw [if_neg (fun e => h e.2.1), if_neg (fun e => h e.2.1), if_neg h]

/-- With one line asserted, the acknowledge of a source of its level leaves none (R172). -/
theorem line_acknowledge_of_line_eq {s : State} {k : Gen} {src : Source} {L : BitVec 3} (hL : L ≠ 0)
    (hsrc : levelOf s k src = L) (h : ∀ L', line s k L' = decide (L' = L)) (L' : BitVec 3) :
    line (acknowledge k src s) k L' = false := by
  rw [line_acknowledge, hsrc, h]
  by_cases e : L' = L
  · rw [if_pos ⟨rfl, e, e ▸ hL⟩]
  · rw [if_neg (fun e' => e e'.2.1), decide_eq_false e]

end Sys2Proof.Machine

/-! The statements about the C148 (41_c148.md). They have a namespace of their own because the model's functions already
bear the names of two of them, `triggerPeer` and `levelWrite`. -/

namespace Sys2Proof.Machine.C148Claims

/-- Settles O20: the operations of the C148 drive each pin with its line or control, and nothing else reaches either. -/
theorem pinsAgreeKept : Obligations.PinsAgreeKept := stepKeeps_of_closed (pinsAgree_closed Config.board)

/-- Settles O8, by what a raise does to each part of the state. -/
theorem raiseSource : Obligations.RaiseSource := fun k src s =>
  ⟨raiseIrq k src s, exec_raiseOp k src s, ownerOf_raiseIrq k src s, irqPinAt_raiseIrq k src s,
    levelOf_raiseIrq k src s, raiseIrq_out k src s, raiseIrq_frame k src s⟩

/-- Settles O9, by what an acknowledge on the target's C148 does to each part of the state. -/
theorem acknowledgeSource : Obligations.AcknowledgeSource := fun k src s =>
  ⟨ackTarget Config.board k src, ackWrite Config.board k src s, exec_ackOp k src s, ackTarget_eq Config.board k src,
    ownerOf_acknowledge _ src s, irqPinAt_acknowledge _ src s, levelOf_acknowledge _ src s, acknowledge_out _ src s,
    acknowledge_frame _ src s⟩

/-- Settles O11: the trigger is the raise of CPUIRQ on the peer. -/
theorem triggerPeer : Obligations.TriggerPeer := fun k s =>
  ⟨peer k, raiseIrq (peer k) .cpuirq s, peer_ne k, exec_cpuirqTrig k s, exec_raiseOp (peer k) .cpuirq s,
    fun h => if_pos h, pending_raiseIrq⟩

/-- Settles O12: the write reaches a level register alone. -/
theorem levelWrite : Obligations.LevelWrite := fun k src v m s =>
  ⟨Machine.levelWrite k src v m s, exec_lvlWrOp k src v m s,
    fun k' src' => levelOf_levelWrite k k' src src' v m s,
    fun k' L => ownerOf_levelWrite k k' src v m L s, rfl⟩

/-- Settles O14, in the case where the control is not effective and the case where it is. -/
theorem soundResetControl : Obligations.SoundResetControl := by
  intro k v m s
  refine ⟨_, _, exec_rstsndWr k v m s, rfl, ?_⟩
  rw [rstSoundWrite_spec Config.board k v m s _ rfl, resetCtrlActive_eq]
  by_cases h : k = .slave ∧ Config.board.resetCtrlOnSlave = false
  · rw [if_pos h, decide_eq_true h]; rfl
  · rw [if_neg h, decide_eq_false h]; exact ⟨rfl, rfl, rfl, rfl, rfl⟩

/-- Settles O15, in the case where the control is not effective and the case where it is. -/
theorem slaveIoResetControl : Obligations.SlaveIoResetControl := by
  intro k v m s
  refine ⟨_, _, exec_rstslvWr k v m s, rfl, ?_⟩
  rw [rstSlaveWrite_spec Config.board k v m s _ rfl, resetCtrlActive_eq]
  by_cases h : k = .slave ∧ Config.board.resetCtrlOnSlave = false
  · rw [if_pos h, decide_eq_true h]; rfl
  · rw [if_neg h, decide_eq_false h]; exact ⟨rfl, rfl, rfl, rfl, rfl⟩

/-- Settles O17: after the two raises the later source owns the one asserted line, and either acknowledge clears that
line, without which neither source is pending. -/
theorem sameLevelSharing : Obligations.SameLevelSharing := by
  intro k src1 src2 L s hL h1 h2 hquiet
  have howner := ownerOf_raiseIrq_raiseIrq hL h1 h2 hquiet
  refine ⟨raiseIrq k src1 s, raiseIrq k src2 (raiseIrq k src1 s), exec_raiseOp k src1 s, exec_raiseOp k src2 _, ?_⟩
  have hlevel : ∀ src, levelOf (raiseIrq k src2 (raiseIrq k src1 s)) k src = levelOf s k src := fun src => by
    rw [levelOf_raiseIrq, levelOf_raiseIrq]
  generalize raiseIrq k src2 (raiseIrq k src1 s) = t at howner hlevel
  have hline : ∀ L', line t k L' = decide (L' = L) := fun L' => by
    rw [line_eq_isSome, howner]
    by_cases h : L' = L <;> simp [h]
  refine ⟨hline, by rw [howner, if_pos rfl], ipl_of_line_eq hline, fun src hsrc => ?_⟩
  have hsrcL : levelOf t k src = L := by
    obtain rfl | rfl := hsrc
    · rw [hlevel, h1]
    · rw [hlevel, h2]
  have hclear := line_acknowledge_of_line_eq hL hsrcL hline
  exact ⟨hclear, sourcePending_eq_false (hclear _), sourcePending_eq_false (hclear _)⟩

/-- Settles O34: the selector of the offset is the number that the decoder reads. -/
theorem c148WindowDispatch : Obligations.C148WindowDispatch := by
  intro k off v m s
  rw [← selector_toNat]
  exact ⟨exec_decodeC148_write k off v m s, exec_decodeC148_read k off v m s⟩

/-- Settles O10, where `ACK_ON_READ` and where not. -/
theorem acknowledgeRead : Obligations.AcknowledgeRead := by
  intro k src s
  refine ⟨_, ackRead Config.board k src s, exec_ackReadOp k src s, rfl, ?_⟩
  unfold ackRead
  split
  · exact exec_ackOp k src s
  · rfl

/-- Settles O13 by running each operation. -/
theorem c148ReadsAndKick : Obligations.C148ReadsAndKick := fun k s =>
  ⟨fun src => exec_lvlRdOp k src s, rfl, rfl, rfl, rfl, rfl, rfl⟩

/-- Settles O16: the operation of every reserved selector is `c148Reserved`. -/
theorem reservedSelectors : Obligations.ReservedSelectors := by
  intro k s c1 c2 c3
  simp only [List.forall_mem_cons]
  exact ⟨⟨rfl, rfl, rfl, rfl, rfl, rfl, List.forall_mem_nil _⟩, rfl, rfl, rfl, rfl, rfl, List.forall_mem_nil _⟩

end Sys2Proof.Machine.C148Claims

/-! The Tilemap Layer Manager (42_tilemap.md R231-R242): the lane merges of its register writes, what a tile write and a
render leave of the store and of the layers, and the pixels that a layer shows. -/

namespace Sys2Proof.Machine

/-! ### Layers -/

theorem layer_setLayer_self (l : Layer) (x : TileLayer) (s : State) : (setLayer l x s).layer l = x := by
  rw [layer_setLayer, if_pos rfl]

/-- Replacing a layer changes nothing else. -/
theorem onlyLayer_setLayer (l : Layer) (x : TileLayer) (s : State) : OnlyLayer l s (setLayer l x s) :=
  ⟨rfl, fun l' hl => by rw [layer_setLayer, if_neg hl]⟩

/-! ### TILE_WR -/

/-- A tile word is two bytes of the store; writing it leaves every other one. -/
theorem readByte_setTileWord_of_ne (b : Board) {l : Layer} {t : Nat} (w : Word) (s : State) {k : Bank} {o : Nat}
    (h : ¬ (k = .tiles l ∧ o / 2 = t)) : readByte b (setTileWord b l t w s) k o = readByte b s k o := by
  have hhigh : ¬ (k = .tiles l ∧ o = 2 * t) := fun ⟨hk, ho⟩ => h ⟨hk, by omega⟩
  have hlow : ¬ (k = .tiles l ∧ o = 2 * t + 1) := fun ⟨hk, ho⟩ => h ⟨hk, by omega⟩
  rw [setTileWord, readByte_writeByte, if_neg hlow, readByte_writeByte, if_neg hhigh]

section TileWrite

variable (b : Board) (l : Layer) (t v : Word) (m : Lanes) (s : State)

theorem tileWord_tileWrite : tileWord b (tileWrite b l t v m s) l (t.toNat % ntiles l)
    = laneWord (tileWord b s l (t.toNat % ntiles l)) v m := by
  rw [tileWrite, tileWord_markDirty, tileWord_setTileWord, if_pos ⟨rfl, rfl⟩, merge_eq_laneWord]

theorem bytesKept_tileWrite :
    BytesKept b s (tileWrite b l t v m s) fun k o => k = .tiles l ∧ o / 2 = t.toNat % ntiles l :=
  fun _ _ h => readByte_setTileWord_of_ne b _ s h

theorem dirtyAt_tileWrite (l' : Layer) (i : Nat) : dirtyAt (tileWrite b l t v m s) l' i
    = (dirtyAt s l' i || decide (l' = l ∧ i = t.toNat % ntiles l)) :=
  dirtyAt_markDirty l l' ((Nat.mod_lt _ (ntiles_pos l)).trans_le (ntiles_le l)) i _

theorem tileWrite_layer (l' : Layer) :
    { (tileWrite b l t v m s).layer l' with dirty := (s.layer l').dirty } = s.layer l' :=
  markDirty_layer l l' _ (setTileWord b l _ _ s)

theorem tileWrite_frame : { tileWrite b l t v m s with mem := s.mem, layers := s.layers } = s := by
  simp [tileWrite, markDirty, setTileWord]

end TileWrite

/-! ### RENDER_LAYER -/

theorem onlyLayer_renderTiles (b : Board) (l : Layer) (s : State) : OnlyLayer l s (renderTiles b l s) :=
  onlyLayer_setLayer l _ s

theorem renderTiles_layer_self (b : Board) (l : Layer) (s : State) : (renderTiles b l s).layer l = { s.layer l with
    cache := ((renderTiles b l s).layer l).cache, dirty := ((renderTiles b l s).layer l).dirty } := by
  rw [renderTiles_layer, if_pos rfl]

/-- No tile of a rendered layer is dirty. -/
theorem dirtyAt_renderTiles_self (b : Board) (l : Layer) (s : State) (i : Nat) :
    dirtyAt (renderTiles b l s) l i = false := by
  rw [dirtyAt_renderTiles, if_pos rfl]

/-- Rendering a clean layer whose cache is the table of its tiles changes nothing. -/
theorem renderTiles_eq_self (b : Board) {l : Layer} {s : State} (hclean : (s.layer l).dirty = 0)
    (hcache : (s.layer l).cache = tab (ntiles l) (cacheTile s l)) : renderTiles b l s = s := by
  have hdirty : ∀ i, dirtyAt s l i = false := fun i => by rw [dirtyAt, hclean]; exact BitVec.getLsbD_zero
  simp only [renderTiles, hdirty, Bool.false_eq_true, if_false]
  rw [← hcache, ← hclean]
  exact setLayer_self l s

/-- A second render changes nothing (R237). -/
theorem renderTiles_renderTiles (b : Board) (l : Layer) (s : State) :
    renderTiles b l (renderTiles b l s) = renderTiles b l s := by
  apply renderTiles_eq_self
  · rw [renderTiles_layer, if_pos rfl]
  · rw [tab_congr fun i hi => cacheTile_renderTiles b l s hi, renderTiles_layer, if_pos rfl]

/-! ### The pixels of a tile and of a layer -/

/-- A palette index is taken modulo the size of the palette (D47). -/
theorem palIndex_eq_mod (base bank stride pen : Nat) :
    palIndex base bank stride pen = BitVec.ofNat 13 ((base + bank * stride + pen) % 8192) := by
  apply BitVec.eq_of_toNat_eq
  rw [palIndex, BitVec.toNat_ofNat, BitVec.toNat_ofNat]
  exact (Nat.mod_mod _ 8192).symm

theorem exec_drawLayer (l : Layer) (s : State) : exec (.drawLayer l) s
    = if anyDirty s l then .fault .staleTileCache else .next (drawTiles Config.board l s) := rfl

/-- The pixel of a clean layer (R239). -/
theorem layerPixel_of_clean {b : Board} {s : State} {l : Layer} (hs : CacheCoherent b s)
    (hclean : ∀ i, dirtyAt s l i = false) (ux uy : Nat) : layerPixel b s l ux uy = tilePixel b s l ux uy :=
  layerPixel_eq_tilePixel (hs l _ (tileIndexAt_lt b s l ux uy) (hclean _))

/-- What an unflipped layer shows depends on its tile words, bank and scrolls alone. -/
theorem tilePixel_congr {b : Board} {s s' : State} {l : Layer}
    (hword : ∀ i, i < ntiles l → tileWord b s l i = tileWord b s' l i)
    (hbank : (s.layer l).colorBank = (s'.layer l).colorBank) (hx : (s.layer l).scrollX = (s'.layer l).scrollX)
    (hy : (s.layer l).scrollY = (s'.layer l).scrollY) (ux uy : Nat) :
    tilePixel b s l ux uy = tilePixel b s' l ux uy := by
  have htile := hword _ (tileIndexAt_lt b s l ux uy)
  simp only [tileIndexAt, layerX, layerY, hx, hy] at htile
  simp only [tilePixel, hx, hy, hbank, htile]

/-- What a rendered layer shows is what its tile words, bank and scrolls said before the render (R242). -/
theorem layerPixel_renderTiles {b : Board} {s : State} (l : Layer) (hs : CacheCoherent b s) (ux uy : Nat) :
    layerPixel b (renderTiles b l s) l ux uy = tilePixel b s l ux uy := by
  rw [layerPixel_of_clean (cacheCoherent_renderTiles l hs) (dirtyAt_renderTiles_self b l s)]
  have hlayer := renderTiles_layer_self b l s
  apply tilePixel_congr
  · exact fun i _ => tileWord_congr rfl l i
  · rw [hlayer]
  · rw [hlayer]
  · rw [hlayer]

/-! ### Reads -/

theorem exec_vidRd (p : Proc) (r : VidReg) (s : State) : exec (.vidRd p r) s
    = .next (return16 p ((vidRead Config.board s r).getD Config.board.openBus16) s) := rfl

theorem exec_vidRsvdK9 (p : Proc) (c : BitVec 9) (s : State) : exec (.vidRsvdK9 p c) s
    = .next (vidReserved Config.board p (c.getLsbD 8) s) := rfl

/-- A reserved code reads as open bus, and discards a write (30_encoding.md R132). -/
theorem vidReserved_eq (b : Board) (p : Proc) (wr : Bool) (s : State) : vidReserved b p wr s
    = if wr then s else { s with out := s.out ++ [.data16 p b.openBus16] } := rfl

/-- A register of a plane reads as open bus where the board does not have the plane (30_encoding.md R133). -/
theorem getD_planeExists (b : Board) (p : Plane) (w openBus : Word) :
    (if planeExists b p then some w else none).getD openBus
      = if p.val < (if b.rozPlanes = .two then 2 else 1) then w else openBus := by
  by_cases h : planeExists b p = true
  · rw [if_pos h, if_pos ((planeExists_iff b p).mp h)]
    rfl
  · rw [if_neg h, if_neg (mt (planeExists_iff b p).mpr h)]
    rfl

/-- The direction of a VID code is its top bit. -/
theorem vidCode_write_iff (c : BitVec 9) : c.getLsbD 8 = true ↔ ¬ c.toNat < 256 := by
  change c.msb = true ↔ _
  rw [BitVec.msb_eq_decide, decide_eq_true_iff, Nat.not_lt]

end Sys2Proof.Machine

/-! The statements about the tile layers (42_tilemap.md). They have a namespace of their own because the model's functions
already bear the names of three of them, `tileWrite`, `bankWrite` and `flipWrite`. -/

namespace Sys2Proof.Machine.TilemapClaims

/-- Settles O36, by what a tile write does to the store and to the dirty bits. -/
theorem tileWrite : Obligations.TileWrite := fun l t v m s =>
  ⟨Machine.tileWrite Config.board l t v m s, rfl, tileWord_tileWrite _ l t v m s, bytesKept_tileWrite _ l t v m s,
    dirtyAt_tileWrite _ l t v m s, tileWrite_layer _ l t v m s, tileWrite_frame _ l t v m s⟩

/-- Settles O37: each of the three replaces the layer by one with a merged register. -/
theorem layerRegisterWrite : Obligations.LayerRegisterWrite := by
  intro l v m s
  refine ⟨scrollXWrite l v m s, scrollYWrite l v m s, layerPriWrite Config.board l v m s,
    priField Config.board (laneWord ((s.layer l).pri.setWidth 16) v m), rfl, ?_, onlyLayer_setLayer l _ s, rfl, ?_,
    onlyLayer_setLayer l _ s, rfl, priField_toNat _ _, ?_, onlyLayer_setLayer l _ s⟩
  · rw [scrollXWrite, layer_setLayer_self, merge_eq_laneWord]
  · rw [scrollYWrite, layer_setLayer_self, merge_eq_laneWord]
  · rw [layerPriWrite, layer_setLayer_self, merge_eq_laneWord]

/-- Settles O38, in the case where the bank stays and the case where it changes. -/
theorem bankWrite : Obligations.BankWrite := by
  intro l v m s
  refine ⟨Machine.bankWrite Config.board l v m s, bankField Config.board (laneWord (s.layer l).colorBank v m), rfl,
    bankField_toNat _ _, ?_⟩
  simp only [Machine.bankWrite, merge_eq_laneWord]
  refine ⟨fun hsame => if_pos hsame, fun hnew => ?_⟩
  rw [if_neg hnew]
  refine ⟨onlyLayer_setLayer l _ s, fun i hi => ?_, ?_⟩
  · rw [dirtyAt, layer_setLayer_self, getLsbD_allDirty, decide_eq_true hi]
  · rw [layer_setLayer_self]

/-- Settles O39: the write reaches the flip and the dirty bits alone. -/
theorem flipWrite : Obligations.FlipWrite := by
  intro v m s
  refine ⟨Machine.flipWrite v m s, rfl, bitField_merge s.flip v m, fun l i hi => ?_, fun l => ?_, rfl⟩
  · rw [dirtyAt_flipWrite, decide_eq_true hi]
  · rw [flipWrite_layer]

/-- Settles O42: the render of a layer, its cleaned dirty bits, the cache invariant that it keeps, and the second render
that changes nothing. -/
theorem renderLayer : Obligations.RenderLayer := fun l s =>
  ⟨renderTiles Config.board l s, rfl, fun _ hi => cacheTile_renderTiles _ l s hi, dirtyAt_renderTiles_self _ l s,
    onlyLayer_renderTiles _ l s, renderTiles_layer_self _ l s,
    fun hs i hi => cacheCoherent_renderTiles l hs l i hi (dirtyAt_renderTiles_self _ l s i),
    congrArg Host.Outcome.next (renderTiles_renderTiles _ l s)⟩

/-- Settles O43, by the mask at the mirrored position. -/
theorem decodedTilePixels : Obligations.DecodedTilePixels := by
  intro b word bank f px py hx hy
  rw [decodeTile_getD b word bank f hx hy]
  simp only [decodePixel, palIndex_eq_mod, Nat.zero_add]
  cases b.tileMask (b.tileRemap word) (if f = 1 then 7 - px else px) (if f = 1 then 7 - py else py) <;> rfl

/-- Settles O44, in the case where some tile is dirty and the case where none is. -/
theorem drawLayer : Obligations.DrawLayer := by
  intro l s
  refine ⟨fun hdirty => ?_, fun hclean => ⟨drawTiles Config.board l s, ?_, fun x y hx hy => ?_, rfl⟩⟩
  · rw [exec_drawLayer, if_pos ((anyDirty_iff s l).mpr hdirty)]
  · have hnone : ¬ anyDirty s l = true := by simp [anyDirty_iff, hclean]
    rw [exec_drawLayer, if_neg hnone]
  · exact fbAt_drawTiles _ l s hx hy

/-- Settles O45: on a clean layer the invariant gives the cached tile, and the mirrored position cancels its flip. -/
theorem layerPixelUnflipped : Obligations.LayerPixelUnflipped :=
  fun _ _ _ ux uy hs hclean => layerPixel_of_clean hs hclean ux uy

/-- Settles O46: after the render both layers show what their tile words, banks and scrolls say, which are the same. -/
theorem historyIndependent : Obligations.HistoryIndependent := by
  intro l s s' hs hs' hword hbank _ hx hy
  refine ⟨renderTiles Config.board l s, renderTiles Config.board l s', rfl, rfl, fun ux uy => ?_⟩
  calc layerPixel Config.board (renderTiles Config.board l s) l ux uy
      = tilePixel Config.board s l ux uy := layerPixel_renderTiles l hs ux uy
    _ = tilePixel Config.board s' l ux uy := tilePixel_congr hword hbank hx hy ux uy
    _ = layerPixel Config.board (renderTiles Config.board l s') l ux uy := (layerPixel_renderTiles l hs' ux uy).symm

/-- Settles O41: the reserved rows by the direction of their code, the reads by the register. -/
theorem videoReadAndReserved : Obligations.VideoReadAndReserved := by
  refine ⟨fun p s c9 c5 c6 => ⟨?_, rfl, rfl, rfl, rfl⟩, fun p r s => ?_⟩
  · simp only [exec_vidRsvdK9, vidReserved_eq, vidCode_write_iff, ite_not]
  · rw [exec_vidRd]
    cases r with
    | rozCtrl q i =>
      rw [vidRead, getD_planeExists]
      rfl
    | rozPri q =>
      rw [vidRead, getD_planeExists]
      rfl
    | _ => rfl

end Sys2Proof.Machine.TilemapClaims

/-! The Sprite Renderer (43_sprite.md R271-R280) and the ROZ registers (44_roz.md R310, R311): what a register write leaves
of each register, the rectangle of a sprite, the position its scaling samples, and the pixel it shows. -/

namespace Sys2Proof.Machine

/-! ### The ROZ registers -/

section RozRegisters

variable (b : Board) (p : Plane) (r : BitVec 3) (v : Word) (m : Lanes) (s : State)

/-- A write to a plane the board does not have is discarded (30_encoding.md R133). -/
theorem rozCtrlWrite_of_absent (hp : ¬ planeExists b p = true) : rozCtrlWrite b p r v m s = s := if_neg hp

/-- As `rozCtrlWrite_of_absent`, for the priority of the plane. -/
theorem rozPriWrite_of_absent (hp : ¬ planeExists b p = true) : rozPriWrite b p v m s = s := if_neg hp

theorem rozCtrlWrite_frame : { rozCtrlWrite b p r v m s with rozBus := s.rozBus } = s := by
  unfold rozCtrlWrite; split <;> rfl

theorem rozPriWrite_frame : { rozPriWrite b p v m s with rozPri := s.rozPri } = s := by
  unfold rozPriWrite; split <;> rfl

theorem rozBusAt_rozCtrlWrite (hp : planeExists b p = true) (p' : Plane) (r' : BitVec 3) :
    rozBusAt (rozCtrlWrite b p r v m s) p' r'
      = if p' = p ∧ r' = r then laneWord (rozBusAt s p r) v m else rozBusAt s p' r' := by
  rw [rozCtrlWrite, if_pos hp, merge_eq_laneWord]
  by_cases hplane : p' = p
  · subst hplane
    simp [rozBusAt, Vector.getElem_set, ← BitVec.toNat_inj, eq_comm]
  · have hval : p.val ≠ p'.val := fun e => hplane (Fin.ext e.symm)
    simp [rozBusAt, hplane, hval]

theorem rozPri_rozPriWrite (hp : planeExists b p = true) (p' : Plane) : ((rozPriWrite b p v m s).rozPri[p']).toNat
    = if p' = p then (laneWord ((s.rozPri[p]).setWidth 16) v m).toNat % 2 ^ priBits b else (s.rozPri[p']).toNat := by
  rw [rozPriWrite, if_pos hp, merge_eq_laneWord]
  by_cases hplane : p' = p
  · subst hplane
    simp [priField_toNat]
  · have hval : p.val ≠ p'.val := fun e => hplane (Fin.ext e.symm)
    simp [hplane, hval]

end RozRegisters

theorem exec_sprbankWr (v : Word) (m : Lanes) (s : State) :
    exec (.sprbankWr v m) s = .next { s with sprBank := laneWord s.sprBank v m } := by
  rw [← merge_eq_laneWord]; rfl

/-! ### Scaled sampling -/

/-- Nearest-neighbour sampling along one axis: `n` native pixels over `r` requested ones, then the flip (R276, R277). -/
def sampled (flip : Bool) (n r d : Nat) : Nat := if flip then n - 1 - d * n / r else d * n / r

theorem spriteSx_eq_sampled (f : SpriteFields) (d : Nat) : spriteSx f d = sampled f.flipX (nativeSize f) f.reqW d := rfl

theorem spriteSy_eq_sampled (f : SpriteFields) (d : Nat) : spriteSy f d = sampled f.flipY (nativeSize f) f.reqH d := rfl

theorem nativeSize_pos (f : SpriteFields) : 0 < nativeSize f := by
  unfold nativeSize; split <;> decide

theorem sampled_lt (flip : Bool) {n r d : Nat} (hn : 0 < n) (hd : d < r) : sampled flip n r d < n := by
  have hscaled : d * n / r < n := Nat.div_lt_of_lt_mul (Nat.mul_lt_mul_of_pos_right hd hn)
  cases flip with
  | true => exact (Nat.sub_le _ _).trans_lt (Nat.sub_one_lt_of_lt hn)
  | false => exact hscaled

/-- At native size the sampling is the 1:1 copy (R280). -/
theorem sampled_native (flip : Bool) {n : Nat} (hn : 0 < n) (d : Nat) :
    sampled flip n n d = if flip then n - 1 - d else d := by
  rw [sampled, Nat.mul_div_cancel d hn]

/-! ### The fields of a descriptor -/

/-- The sign extension of the low `n` bits is the two's-complement value of the word they make (00_scope.md R11). -/
theorem signExtendNat_eq_toInt (n v : Nat) : signExtendNat n v = (BitVec.ofNat n v).toInt := by
  cases n with
  | zero => simp [signExtendNat, Nat.mod_one, BitVec.of_length_zero]
  | succ n =>
    rw [signExtendNat, BitVec.toInt_eq_toNat_cond, BitVec.toNat_ofNat, Nat.add_sub_cancel]
    have hhalf : v % 2 ^ (n + 1) < 2 ^ n ↔ 2 * (v % 2 ^ (n + 1)) < 2 ^ (n + 1) := by omega
    simp only [hhalf]

theorem descriptorWord_eq_getD (w : SpriteWords) (i : Fin 4) :
    descriptorWord w i = [w.w0, w.w1, w.w2, w.w3].getD i.val 0 := by
  fin_cases i <;> rfl

theorem spriteRegion_eq (b : Board) (w : SpriteWords) : spriteRegion b w = if b.spriteLayout = .default then
    ([w.w0, w.w1, w.w2, w.w3].getD b.spriteRegionWord.val 0).extractLsb' 13 1 else b.fixedRegion := by
  rw [← descriptorWord_eq_getD, spriteRegion]
  cases b.spriteLayout <;> rfl

theorem spritePri_eq (b : Board) (f : SpriteFields) :
    spritePri b f = f.pri % (if b.spriteLayout = .default then 8 else 16) := by
  unfold spritePri
  cases b.spriteLayout <;> rfl

/-! ### The pixel of a sprite -/

section SpriteAt

variable {b : Board} {w : SpriteWords} {X Y : Nat}

theorem spriteAt_offset {dx dy : Nat} (hdx : dx < (b.spriteDecode w).reqW) (hdy : dy < (b.spriteDecode w).reqH)
    (hX : (X : Int) = spriteX0 b (b.spriteDecode w) + dx) (hY : (Y : Int) = spriteY0 b (b.spriteDecode w) + dy) :
    spriteAt b w X Y = spritePixel b w dx dy := by
  have hx : (X : Int) - spriteX0 b (b.spriteDecode w) = dx := by omega
  have hy : (Y : Int) - spriteY0 b (b.spriteDecode w) = dy := by omega
  have hin : (0 : Int) ≤ dx ∧ (dx : Int) < (b.spriteDecode w).reqW ∧ (0 : Int) ≤ dy
    ∧ (dy : Int) < (b.spriteDecode w).reqH := by omega
  simp only [spriteAt, hx, hy, if_pos hin, Int.toNat_natCast]

theorem spriteAt_outside (hout : ∀ dx dy : Nat, dx < (b.spriteDecode w).reqW → dy < (b.spriteDecode w).reqH →
      ¬ ((X : Int) = spriteX0 b (b.spriteDecode w) + dx ∧ (Y : Int) = spriteY0 b (b.spriteDecode w) + dy)) :
    spriteAt b w X Y = none := by
  refine if_neg fun ⟨hx0, hxW, hy0, hyH⟩ => ?_
  exact hout ((X : Int) - spriteX0 b (b.spriteDecode w)).toNat ((Y : Int) - spriteY0 b (b.spriteDecode w)).toNat
    (by omega) (by omega) (by omega)

end SpriteAt

end Sys2Proof.Machine

/-! The statements about the sprites (43_sprite.md). They have a namespace of their own because the model's function
`spritePixel` already bears the name of one of them. -/

namespace Sys2Proof.Machine.SpriteClaims

/-- Settles O40, for a plane the board has and for one it does not have. -/
theorem spriteAndRozRegisterWrite : Obligations.SpriteAndRozRegisterWrite := by
  intro p r v m s
  refine ⟨rozCtrlWrite Config.board p r v m s, rozPriWrite Config.board p v m s, exec_sprbankWr v m s, rfl, rfl, ?_⟩
  by_cases hp : planeExists Config.board p = true
  · rw [if_pos ((planeExists_iff _ p).mp hp)]
    exact ⟨rozBusAt_rozCtrlWrite _ p r v m s hp, rozCtrlWrite_frame _ p r v m s, rozPri_rozPriWrite _ p v m s hp,
      rozPriWrite_frame _ p v m s⟩
  · rw [if_neg (mt (planeExists_iff _ p).mpr hp)]
    exact ⟨rozCtrlWrite_of_absent _ p r v m s hp, rozPriWrite_of_absent _ p v m s hp⟩

/-- Settles O47, by the fold of the slots at one pixel; the words of a slot are the model's own definition. -/
theorem drawSprites : Obligations.DrawSprites :=
  ⟨fun _ _ _ => rfl, spritePri_eq, fun v s => ⟨drawSpritesAt Config.board v.toNat s, rfl,
    fun _ _ hx hy => fbAt_drawSpritesAt _ v.toNat s hx hy, drawSpritesAt_onlyFb _ v.toNat s⟩⟩

/-- Settles O48, at an offset of the rectangle and outside it. -/
theorem spritePixel : Obligations.SpritePixel := by
  intro b w X Y f N X0 Y0 region
  have hX0 : spriteX0 b f = X0 := by rw [spriteX0, signExtendNat_eq_toInt]
  have hY0 : spriteY0 b f = Y0 := by rw [spriteY0, signExtendNat_eq_toInt]
  have hregion : spriteRegion b w = region := spriteRegion_eq b w
  refine ⟨hX0, hY0, hregion, fun dx dy hdx hdy hX hY => ?_, fun hout => ?_⟩
  · rw [← hX0] at hX
    rw [← hY0] at hY
    rw [spriteAt_offset hdx hdy hX hY, Machine.spritePixel, hregion, spritePen, palIndex_eq_mod, Nat.zero_add]
    rfl
  · rw [← hX0, ← hY0] at hout
    exact spriteAt_outside hout

/-- Settles O49: both axes sample alike. -/
theorem spriteSampling : Obligations.SpriteSampling := by
  intro f d
  have hn := nativeSize_pos f
  rw [spriteSx_eq_sampled, spriteSy_eq_sampled]
  refine ⟨fun hd => ⟨sampled_lt _ hn hd, fun hnative => ?_⟩, fun hd => ⟨sampled_lt _ hn hd, fun hnative => ?_⟩⟩
  · rw [hnative, sampled_native _ hn]
  · rw [hnative, sampled_native _ hn]

end Sys2Proof.Machine.SpriteClaims

/-! The ROZ Affine Rasterizer (44_roz.md R312-R321): where the accumulators start and how they step, the source-space
coordinate they give, the pixel there, and the draw of a plane. -/

namespace Sys2Proof.Machine

/-! ### The accumulators -/

section Accumulators

variable (c : RozCtl) (ux uy : Nat)

/-- R312. -/
theorem rozX_origin : rozX c 0 0 = c.startX.signExtend 32 <<< 12 := by simp [rozX]

/-- R312. -/
theorem rozY_origin : rozY c 0 0 = c.startY.signExtend 32 <<< 12 := by simp [rozY]

/-- One product of the closed form of R313 grows by its delta with each step. -/
theorem ofNat_succ_mul (n : Nat) (d : BitVec 32) : BitVec.ofNat 32 (n + 1) * d = BitVec.ofNat 32 n * d + d := by
  rw [BitVec.ofNat_add, BitVec.add_mul, BitVec.one_mul]

theorem rozX_down : rozX c 0 (uy + 1) = rozX c 0 uy + c.downDx := by
  simp only [rozX, ofNat_succ_mul, BitVec.zero_mul, BitVec.add_zero, BitVec.add_assoc]

theorem rozY_down : rozY c 0 (uy + 1) = rozY c 0 uy + c.downDy := by
  simp only [rozY, ofNat_succ_mul, BitVec.zero_mul, BitVec.add_zero, BitVec.add_assoc]

theorem rozX_right : rozX c (ux + 1) uy = rozX c ux uy + c.rightDx := by
  simp only [rozX, ofNat_succ_mul, BitVec.add_assoc]

theorem rozY_right : rozY c (ux + 1) uy = rozY c ux uy + c.rightDy := by
  simp only [rozY, ofNat_succ_mul, BitVec.add_assoc]

end Accumulators

/-! ### The source-space coordinate -/

/-- R314: the fraction drops out, and the coordinate wraps. -/
theorem rozPixelCoord_eq (x : BitVec 32) : rozPixelCoord x = x.toNat / 65536 % 2048 := by
  rw [rozPixelCoord, BitVec.extractLsb'_toNat, Nat.shiftRight_eq_div_pow]

/-- Adding 1.0 to an accumulator moves to the next source pixel, and from the last one to the first. -/
theorem rozPixelCoord_add_one (x : BitVec 32) : rozPixelCoord (x + 0x10000) = (rozPixelCoord x + 1) % 2048 := by
  rw [rozPixelCoord_eq, rozPixelCoord_eq, BitVec.toNat_add, show (0x10000 : BitVec 32).toNat = 65536 from rfl]
  omega

/-- Either reading of the maximum start lies in the last source column (R321). -/
theorem rozPixelCoord_maxStart {startX : Word} (h : startX = 0x7FF0 ∨ startX = 0x7FFF) :
    rozPixelCoord (startX.signExtend 32 <<< 12) = 2047 := by
  obtain rfl | rfl := h
  · decide
  · decide

/-- One step of 1.0 from a maximum start reaches column 0 (R321). -/
theorem rozPixelCoord_step_maxStart {c : RozCtl} (hdx : c.rightDx = 0x10000)
    (hstart : c.startX = 0x7FF0 ∨ c.startX = 0x7FFF) : rozPixelCoord (rozX c 1 0) = 0 := by
  rw [rozX_right, rozX_origin, hdx, rozPixelCoord_add_one, rozPixelCoord_maxStart hstart]

/-- A start of 0 samples column 0 first. -/
theorem rozPixelCoord_zeroStart {c : RozCtl} (hstart : c.startX = 0) : rozPixelCoord (rozX c 0 0) = 0 := by
  rw [rozX_origin, hstart]
  decide

/-! ### The pixel -/

/-- The pixel of a plane with graphics (R318): the tile's pixel at the wrapped coordinates. -/
theorem rozPixel_present {b : Board} {p : Plane} (h : b.rozPresent p = true) (s : State) (ux uy : Nat) :
    rozPixel b s p ux uy
      = rozPen b s (b.rozGfx p
          (rozTileAt b s p (rozPixelCoord (rozX (rozCtl b s p) ux uy)) (rozPixelCoord (rozY (rozCtl b s p) ux uy)))
          (rozPixelCoord (rozX (rozCtl b s p) ux uy) % 8) (rozPixelCoord (rozY (rozCtl b s p) ux uy) % 8)) :=
  if_pos h

/-- The colour of a pen, with its palette index taken modulo 8192 (R317). -/
theorem rozPen_eq (b : Board) (s : State) (pen : Byte) : rozPen b s pen = if pen = 0xFF then none
    else some (BitVec.ofNat 13
      ((b.rozPalBase + (b.sprbankDecode s.sprBank).rozColor * b.rozBankStride + pen.toNat) % 8192)) := by
  rw [rozPen, palIndex_eq_mod]

/-! ### The draw -/

theorem exec_drawRoz (p : Plane) (s : State) : exec (.drawRoz p) s
    = if planeExists Config.board p then .next (drawRozPlane Config.board p s) else .refused .noSuchPlane := rfl

/-- Plane 0 is on every board, plane 1 on a board of two (00_scope.md R9). -/
theorem planeExists_iff_zero_or_two (b : Board) (p : Plane) :
    planeExists b p = true ↔ p = 0 ∨ b.rozPlanes = .two := by
  rw [planeExists, Bool.or_eq_true, beq_iff_eq, beq_iff_eq]

/-- A plane without graphics leaves every pixel as it was (R320). -/
theorem fbAt_drawRozPlane_ite (b : Board) (p : Plane) (s : State) {x y : Nat} (hx : x < 288) (hy : y < 224) :
    fbAt (drawRozPlane b p s) x y
      = if b.rozPresent p then (rozPixel b s p x y).getD (fbAt s x y) else fbAt s x y := by
  rw [fbAt_drawRozPlane b p s hx hy]
  cases h : b.rozPresent p with
  | true => rfl
  | false => rw [rozPixel_absent h]; rfl

end Sys2Proof.Machine

/-! The statements about the ROZ planes (44_roz.md). They have a namespace of their own because the model's function
`rozPixel` already bears the name of one of them. -/

namespace Sys2Proof.Machine.RozClaims

/-- Settles O50, for a plane the board has and for one it does not have. -/
theorem drawRoz : Obligations.DrawRoz := by
  intro p s
  rw [exec_drawRoz]
  by_cases hp : planeExists Config.board p = true
  · rw [if_pos ((planeExists_iff_zero_or_two _ p).mp hp), if_pos hp]
    exact ⟨drawRozPlane Config.board p s, rfl, fun _ _ hx hy => fbAt_drawRozPlane_ite _ p s hx hy,
      drawRozPlane_frame _ p s⟩
  · rw [if_neg (mt (planeExists_iff_zero_or_two _ p).mpr hp), if_neg hp]

/-- Settles O51: the step past a maximum start wraps to the column of start 0, and each step adds its delta. -/
theorem rozAccumulationAndWrap : Obligations.RozAccumulationAndWrap := by
  constructor
  · intro b s p c startX syp hdx hstart
    have hwrap : rozPixelCoord (rozX { c with startX := startX } 1 0) = 0 := rozPixelCoord_step_maxStart hdx hstart
    have hzero : rozPixelCoord (rozX { c with startX := 0 } 0 0) = 0 := rozPixelCoord_zeroStart rfl
    exact ⟨hwrap, by rw [hwrap, hzero]⟩
  · intro c ux uy
    exact ⟨⟨rozX_origin c, rozY_origin c⟩, ⟨rozX_down c uy, rozY_down c uy⟩, ⟨rozX_right c ux uy, rozY_right c ux uy⟩⟩

/-- Settles O52, for a plane without graphics and for one that has them. -/
theorem rozPixel : Obligations.RozPixel := by
  intro b s p ux uy
  cases hp : b.rozPresent p with
  | false => rw [rozPixel_absent hp, if_pos rfl]
  | true =>
    rw [rozPixel_present hp, rozPen_eq, rozPixelCoord_eq, rozPixelCoord_eq]
    rfl

end Sys2Proof.Machine.RozClaims

/-! The compositor (45_compositor.md R340-R352): what every operation leaves of the phase, the visible set and the colours,
which palette indices a scan marks, what a composite leaves of each field, and the pixels its levels draw. -/

namespace Sys2Proof.Machine

/-! ### PAL_SCAN -/

/-- Index 0 is never visible (R351). -/
theorem visibleAt_palScan_zero (b : Board) (s : State) : visibleAt (palScan b s) 0 = false := by
  rw [visibleAt, palScan_visible, getLsbD_setWire, if_pos rfl, Bool.and_false]

/-- Every other index is visible exactly if the frame's content references it (R347). -/
theorem visibleAt_palScan_iff (b : Board) (s : State) (c : Pen) :
    visibleAt (palScan b s) c.toNat = true ↔ c ≠ 0 ∧ c ∈ framePens b s := by
  by_cases hc : c = 0
  · subst hc
    rw [show (0 : Pen).toNat = 0 from rfl, visibleAt_palScan_zero]
    simp
  · have hne : ¬ c.toNat = 0 := fun e => hc (BitVec.eq_of_toNat_eq e)
    rw [visibleAt, palScan_visible, getLsbD_setWire, if_neg hne, markPens_getLsbD _ _ c.isLt,
      and_iff_right hc]
    simp only [BitVec.toNat_inj, exists_eq_right]

/-- The three scans of R347. -/
theorem framePens_mem (b : Board) (s : State) (c : Pen) :
    c ∈ framePens b s ↔ c ∈ tilePens b s ∨ c ∈ rozPens b s ∨ c ∈ spritePens b s := by
  rw [framePens, List.mem_append, List.mem_append, or_assoc]

/-- Settles O56: the visible set is that of the three scans without index 0, and each scan finds the indices its elements
use. -/
theorem paletteScan : Obligations.PaletteScan := by
  intro s
  refine ⟨palScan Config.board s, rfl, rfl, fun c => ?_⟩
  rw [visibleAt_palScan_iff, framePens_mem, tilePens_mem, rozPens_mem, spritePens_mem]

/-! ### What a composite leaves of each field -/

section CompositeFields

variable (b : Board) (s : State)

theorem composite_phase : (composite b s).phase = .done := by
  obtain ⟨fb, idx, rgb, -, hc, -, -⟩ := composite_eq b s
  rw [hc]

theorem composite_visible : (composite b s).visible = (palScan b s).visible := by
  obtain ⟨fb, idx, rgb, -, hc, -, -⟩ := composite_eq b s
  rw [hc]

theorem composite_layers : (composite b s).layers = (renderAll b s).layers := by
  obtain ⟨fb, idx, rgb, -, hc, -, -⟩ := composite_eq b s
  rw [hc]

theorem composite_prevRGB : (composite b s).prevRGB = some (paletteColours b s) := by
  obtain ⟨fb, idx, rgb, -, hc, -, -⟩ := composite_eq b s
  rw [hc]

theorem composite_colourTable : (composite b s).colourTable
    = if s.prevRGB = some (paletteColours b s) then s.colourTable else paletteColours b s := by
  obtain ⟨fb, idx, rgb, -, hc, -, -⟩ := composite_eq b s
  rw [hc]

theorem composite_fb : (composite b s).fb = (drawLevels b (compositeInit b s)).fb := by
  obtain ⟨fb, idx, rgb, hfb, hc, -, -⟩ := composite_eq b s
  rw [hc, hfb]

/-- A composite leaves the registers of a layer alone. -/
theorem composite_layer (l : Layer) :
    { (composite b s).layer l with cache := (s.layer l).cache, dirty := (s.layer l).dirty } = s.layer l := by
  rw [layer_congr (composite_layers b s) l, renderAll_layer, renderTiles_layer_self]

theorem dirtyAt_composite (l : Layer) (i : Nat) : dirtyAt (composite b s) l i = false := by
  rw [dirtyAt_congr (composite_layers b s), dirtyAt_renderAll]

end CompositeFields

/-- The table is the palette's whether or not the rebuild is skipped (R352): where it is, the recorded colours are those
of the table. -/
theorem composite_colourTable_of_settled {b : Board} {s : State} (hs : FrameSettled s) :
    (composite b s).colourTable = paletteColours b s := by
  rw [composite_colourTable]
  split
  · rename_i hsame
    exact hs.colours _ hsame
  · rfl

/-- Settles O53, by what a composite leaves of every field and the two grids it puts out. -/
theorem compositeFrame : Obligations.CompositeFrame := by
  intro s
  obtain ⟨fb, idx, rgb, -, hc, hidx, hrgb⟩ := composite_eq Config.board s
  refine ⟨composite Config.board s, palScan Config.board s, idx, rgb, rfl, rfl, composite_phase _ s,
    composite_visible _ s, dirtyAt_composite _ s, ?_, ?_, ?_, ?_, ?_, fun x y hx hy => ?_, composite_layer _ s, ?_⟩
  · rw [hc]
  · rw [hidx, grid_length]; rfl
  · rw [hidx]; exact fun _ => grid_row_length
  · rw [hrgb, grid_length]; rfl
  · rw [hrgb]; exact fun _ => grid_row_length
  · have hpen : gridAt 0 idx x y
        = if s.flip = 1 then gridAt 0 fb (screenW - 1 - x) (screenH - 1 - y) else gridAt 0 fb x y := by
      rw [hidx]; exact gridAt_grid 0 _ hx hy
    rw [hpen, hrgb, hc]
    exact ⟨rfl, gridAt_grid default _ hx hy⟩
  · rw [hc]

/-- Settles O55: under the invariant the table after a composite is the palette's, and where it was already recorded it
was the table before. -/
theorem colourTableCurrent : Obligations.ColourTableCurrent := by
  intro s hs
  refine ⟨composite Config.board s, rfl, ?_⟩
  rw [composite_prevRGB, composite_colourTable_of_settled hs]
  exact ⟨fun i hi => tab_getD _ _ _ hi, rfl, fun hsame => (hs.colours _ hsame).symm⟩

/-! ### The painter's order -/

/-- Drawing a list of elements in order over background pen 0 shows the last one that is not transparent (R346). -/
theorem drawOver_zero (es : List (Nat → Nat → Px)) (x y : Nat) : drawOver es x y 0 = topPen es x y :=
  foldl_getD_eq (fun f : Nat → Nat → Px => f x y) es 0

/-- The levels are drawn one over the other (R343). -/
theorem fbAt_foldl_perLevel {b : Board} {s u : State} (hs : CacheCoherent b s) (hu : SameScene b s u) {x y : Nat}
    (hx : x < 288) (hy : y < 224) {levels : List Nat} (hmax : ∀ n ∈ levels, n ≤ priMax b) :
    fbAt (levels.foldl (perLevel b) u) x y = drawOver (levels.flatMap (levelElements b s)) x y (fbAt u x y) := by
  induction levels generalizing u with
  | nil => rfl
  | cons n levels ih =>
    obtain ⟨hn, hrest⟩ := List.forall_mem_cons.mp hmax
    rw [List.foldl_cons, ih (sameScene_drawn hu (onlyDrawn_perLevel b u n)) hrest, fbAt_perLevel hs hu hn hx hy,
      List.flatMap_cons, drawOver_append]

/-- The levels are drawn over background pen 0 (R340). -/
theorem fbAt_compositeInit (b : Board) (s : State) {x y : Nat} (hx : x < 288) (hy : y < 224) :
    fbAt (compositeInit b s) x y = 0 := by
  rw [compositeInit_eq]
  exact gridAt_grid 0 _ hx hy

theorem fbAt_composite {b : Board} {s : State} (hs : CacheCoherent b s) {x y : Nat} (hx : x < 288) (hy : y < 224) :
    fbAt (composite b s) x y = topPen (frameElements b s) x y := by
  have hmax : ∀ n ∈ List.range (priMax b + 1), n ≤ priMax b := fun n hn => Nat.le_of_lt_succ (List.mem_range.mp hn)
  calc fbAt (composite b s) x y
      = fbAt (drawLevels b (compositeInit b s)) x y := by rw [fbAt, composite_fb, fbAt]
    _ = drawOver (frameElements b s) x y (fbAt (compositeInit b s) x y) :=
        fbAt_foldl_perLevel hs (sameScene_init b s) hx hy hmax
    _ = topPen (frameElements b s) x y := by rw [fbAt_compositeInit b s hx hy, drawOver_zero]

/-- Settles O54: the levels draw their elements in order over the cleared frame, and rendering first makes each layer show
its tile words. -/
theorem priorityOrdering : Obligations.PriorityOrdering :=
  fun s hs => ⟨composite Config.board s, rfl, fun _ _ hx hy => fbAt_composite hs hx hy⟩

/-! ### The invariant between steps -/

/-- What the invariant reads is as it was. -/
structure FrameKept (s t : State) : Prop where
  phase : t.phase = s.phase
  visible : t.visible = s.visible
  prevRGB : t.prevRGB = s.prevRGB
  colourTable : t.colourTable = s.colourTable

namespace FrameKept

variable {s t : State}

theorem frameSettled (h : FrameKept s t) (hs : FrameSettled s) : FrameSettled t where
  phase := h.phase.trans hs.phase
  pen0 := by rw [visibleAt, h.visible]; exact hs.pen0
  colours c hc := h.colourTable.trans (hs.colours c (h.prevRGB.symm.trans hc))

theorem refl (s : State) : FrameKept s s := ⟨rfl, rfl, rfl, rfl⟩

theorem raiseIrq (k : Gen) (src : Source) (s : State) : FrameKept s (raiseIrq k src s) := by
  rw [raiseIrq_eq]; exact ⟨rfl, rfl, rfl, rfl⟩

theorem acknowledge (k : Gen) (src : Source) (s : State) : FrameKept s (acknowledge k src s) := by
  rw [acknowledge_eq]; exact ⟨rfl, rfl, rfl, rfl⟩

theorem rstSoundWrite (b : Board) (k : Gen) (v : Word) (m : Lanes) (s : State) :
    FrameKept s (rstSoundWrite b k v m s) := by
  rw [rstSoundWrite_spec b k v m s _ rfl]
  split
  · exact ⟨rfl, rfl, rfl, rfl⟩
  · exact refl s

theorem rstSlaveWrite (b : Board) (k : Gen) (v : Word) (m : Lanes) (s : State) :
    FrameKept s (rstSlaveWrite b k v m s) := by
  rw [rstSlaveWrite_spec b k v m s _ rfl]
  split
  · exact ⟨rfl, rfl, rfl, rfl⟩
  · exact refl s

theorem regionWrite (b : Board) (r : Region) (o : Nat) (v : Byte) (s : State) :
    FrameKept s (regionWrite b r o v s) := by
  rw [regionWrite_eq]; exact ⟨rfl, rfl, rfl, rfl⟩

theorem bankWrite (b : Board) (l : Layer) (v : Word) (m : Lanes) (s : State) : FrameKept s (bankWrite b l v m s) := by
  obtain e | e := bankWrite_cases b l v m s
  · rw [e]; exact refl s
  · rw [e]; exact ⟨rfl, rfl, rfl, rfl⟩

theorem rozCtrlWrite (b : Board) (p : Plane) (r : BitVec 3) (v : Word) (m : Lanes) (s : State) :
    FrameKept s (rozCtrlWrite b p r v m s) := by
  unfold Sys2Proof.Machine.rozCtrlWrite
  split
  · exact ⟨rfl, rfl, rfl, rfl⟩
  · exact refl s

theorem rozPriWrite (b : Board) (p : Plane) (v : Word) (m : Lanes) (s : State) :
    FrameKept s (rozPriWrite b p v m s) := by
  unfold Sys2Proof.Machine.rozPriWrite
  split
  · exact ⟨rfl, rfl, rfl, rfl⟩
  · exact refl s

end FrameKept

theorem frameSettled_palScan (b : Board) {s : State} (hs : FrameSettled s) : FrameSettled (palScan b s) :=
  ⟨hs.phase, visibleAt_palScan_zero b s, hs.colours⟩

/-- A composite is done when it ends, has scanned the palette, and has recorded the colours of its table. -/
theorem frameSettled_composite (b : Board) {s : State} (hs : FrameSettled s) : FrameSettled (composite b s) where
  phase := composite_phase b s
  pen0 := by rw [visibleAt, composite_visible]; exact visibleAt_palScan_zero b s
  colours c hc := by
    rw [composite_prevRGB] at hc
    rw [composite_colourTable_of_settled hs]
    exact Option.some.inj hc

/-- After a reset no colours are recorded, so the table is held to none (70_reset_and_hazards.md R440). -/
theorem frameSettled_machineReset (b : Board) (s : State) : FrameSettled (machineReset b s) where
  phase := rfl
  pen0 := BitVec.getLsbD_zero
  colours _ hc := nomatch hc

theorem frameSettled_closed (b : Board) : Closed b FrameSettled where
  book _ _ _ _ _ _ _ _ _ _ _ _ := FrameKept.frameSettled ⟨rfl, rfl, rfl, rfl⟩
  raise k src s := (FrameKept.raiseIrq k src s).frameSettled
  ack k src s := (FrameKept.acknowledge k src s).frameSettled
  level _ _ _ _ _ := FrameKept.frameSettled ⟨rfl, rfl, rfl, rfl⟩
  rstSound k v m s := (FrameKept.rstSoundWrite b k v m s).frameSettled
  rstSlave k v m s := (FrameKept.rstSlaveWrite b k v m s).frameSettled
  region r o v s := (FrameKept.regionWrite b r o v s).frameSettled
  tile _ _ _ _ _ := FrameKept.frameSettled ⟨rfl, rfl, rfl, rfl⟩
  scrollX _ _ _ _ := FrameKept.frameSettled ⟨rfl, rfl, rfl, rfl⟩
  scrollY _ _ _ _ := FrameKept.frameSettled ⟨rfl, rfl, rfl, rfl⟩
  bank l v m s := (FrameKept.bankWrite b l v m s).frameSettled
  pri _ _ _ _ := FrameKept.frameSettled ⟨rfl, rfl, rfl, rfl⟩
  flip _ _ _ := FrameKept.frameSettled ⟨rfl, rfl, rfl, rfl⟩
  sprBank _ _ _ := FrameKept.frameSettled ⟨rfl, rfl, rfl, rfl⟩
  rozCtrl p r v m s := (FrameKept.rozCtrlWrite b p r v m s).frameSettled
  rozPri p v m s := (FrameKept.rozPriWrite b p v m s).frameSettled
  render _ _ := FrameKept.frameSettled ⟨rfl, rfl, rfl, rfl⟩
  drawn _ _ := FrameKept.frameSettled ⟨rfl, rfl, rfl, rfl⟩
  scan _ := frameSettled_palScan b
  compose _ := frameSettled_composite b
  reset s _ := frameSettled_machineReset b s

/-- Settles O24: only scans, composites and resets reach what the invariant reads, and each leaves it settled. -/
theorem frameSettledKept : Obligations.FrameSettledKept :=
  stepKeeps_of_closed (frameSettled_closed Config.board)

end Sys2Proof.Machine

/-! The scheduler (46_scheduler.md R372-R382): what a step runs, the codes it refuses, what the turns of a round do to the
queues and the outputs, what the end of a frame leaves, and the loop of a whole frame. -/

namespace Sys2Proof.Machine

/-! ### What a step runs (R377, R381) -/

section Step

variable {s : State} {w : OpWord} {rest : List OpWord}

theorem step_of_decode_ok {i : Instr} (hs : s.pending = w :: rest) (hw : decode w = .ok i) :
    step s = exec i (takeOp s rest) := by
  simp only [step, hs, hw]

theorem step_of_decode_error {e : DecodeError} (hs : s.pending = w :: rest) (hw : decode w = .error e) :
    step s = .refused (decodeRefusal e) := by
  simp only [step, hs, hw]

theorem step_of_pending_nil (hs : s.pending = []) : step s = exec (loopInstr Config.board s) (takeOp s []) := by
  simp only [step, hs]

theorem run_succ_of_step {t : State} (n : Nat) (h : step s = .next t) :
    Sys2Proof.core.run (n + 1) s = Sys2Proof.core.run n t := by
  have hstep : Sys2Proof.core.step s = .next t := h
  simp only [Host.Core.run, hstep]

end Step

/-! ### Reserved codes (R376) -/

/-- An EVT code alone in its word decodes by its format's table (30_encoding.md R124). -/
theorem decode_evtWord {c : Nat} (hc : c < 256) : decode (packOp (BitVec.ofNat 16 c) 4 0 0 0 0 0) = decodeEvt c := by
  have hcode : (BitVec.ofNat 16 c).toNat = c := by rw [BitVec.toNat_ofNat]; omega
  rw [decode_packOp _ _ _ _ _ _ _ (p := .master) (m := .both) rfl rfl]
  change (if (BitVec.ofNat 16 c).toNat < 256 then decodeEvt (BitVec.ofNat 16 c).toNat else _) = _
  rw [hcode, if_pos hc]

/-- Outside `0001 ++ src3 ++ k` there is no EVT code (30_encoding.md R124). -/
theorem decodeEvt_of_outside {c : Nat} (h : c < 0x10 ∨ 0x20 ≤ c) : decodeEvt c = .error .reservedCode := by
  unfold decodeEvt
  split
  case h_9 => rfl
  all_goals omega

/-- The codes with src3 in 5 to 7 decode to operations that are refused (R376). -/
theorem decodeEvt_of_reservedSource {c : Nat} (hlo : 0x1A ≤ c) (hhi : c < 0x20) :
    ∃ i, decodeEvt c = .ok i ∧ ∀ s, exec i s = .refused .reservedCode := by
  obtain h | h | h : c / 2 = 13 ∨ c / 2 = 14 ∨ c / 2 = 15 := by omega
  · exact ⟨.evtRsvdSrc5 (genOfBit c), by simp only [decodeEvt, h], fun _ => rfl⟩
  · exact ⟨.evtRsvdSrc67 (BitVec.ofNat 2 c), by simp only [decodeEvt, h], fun _ => rfl⟩
  · exact ⟨.evtRsvdSrc67 (BitVec.ofNat 2 c), by simp only [decodeEvt, h], fun _ => rfl⟩

theorem step_of_reservedEvt {c : Nat} {s : State} {rest : List OpWord} (hc : c < 256) (h : c < 0x10 ∨ 0x1A ≤ c)
    (hs : s.pending = packOp (BitVec.ofNat 16 c) 4 0 0 0 0 0 :: rest) : step s = .refused .reservedCode := by
  by_cases hsrc : 0x1A ≤ c ∧ c < 0x20
  · obtain ⟨i, hi, hrefused⟩ := decodeEvt_of_reservedSource hsrc.1 hsrc.2
    rw [step_of_decode_ok hs ((decode_evtWord hc).trans hi), hrefused]
  · have hout := decodeEvt_of_outside (c := c) (by omega)
    rw [step_of_decode_error hs ((decode_evtWord hc).trans hout)]
    rfl

/-- The SCH codes of 30_encoding.md R125, but for the row of DRAW_SPRITES, whose sixteen codes are all operations. -/
def schCodes : List Nat :=
  [0x01, 0x02, 0x03, 0x10, 0x11, 0x20, 0x21, 0x22, 0x23, 0x24, 0x25, 0x30, 0x31, 0x32, 0x33, 0x34, 0x35, 0x40, 0x41]

theorem layerOf_eq_none {n : Nat} (h : 6 ≤ n) : layerOf n = none := dif_neg (Nat.not_lt.mpr h)

/-- Outside the table of R125 there is no SCH code. -/
theorem decodeSch_of_not_mem {c : Nat} (hc : c ∉ schCodes) (hrow : c / 16 ≠ 5) : decodeSch c = .error .reservedCode := by
  simp only [schCodes, List.mem_cons, List.not_mem_nil, or_false, not_or] at hc
  unfold decodeSch
  split
  case h_6 => rw [layerOf_eq_none (by omega)]
  case h_7 => rw [layerOf_eq_none (by omega)]
  case h_11 => rfl
  all_goals omega

theorem step_of_reservedSch {c : Nat} {s : State} {rest : List OpWord} (hc : c < 256) (hcode : c ∉ schCodes)
    (hrow : c / 16 ≠ 5) (hs : s.pending = encSch c :: rest) : step s = .refused .reservedCode := by
  rw [step_of_decode_error hs ((decode_encSch hc).trans (decodeSch_of_not_mem hcode hrow))]
  rfl

/-! ### One turn (R372-R374) -/

section Turn

variable {b : Board} {p : Proc} {s t : State}

theorem runTurn_of_held (h : held s p = true) : runTurn b p s = .ok s := by
  rw [runTurn, if_pos h]

theorem runTurn_of_idle (h : held s p = false) (hq : s.cores.get p = []) : runTurn b p s = .ok (beginTurn b p s) := by
  simp only [runTurn, h, hq]; rfl

theorem runTurn_of_turn {os : List BusAccess} {ts : List (List BusAccess)} (h : held s p = false)
    (hq : s.cores.get p = os :: ts) : runTurn b p s = .ok t ↔ ∃ u rest,
      runAccesses b p os (beginTurn b p s) = .ok (u, rest)
        ∧ { u with cores := u.cores.set p (requeue rest ts) } = t := by
  cases hr : runAccesses b p os (beginTurn b p s) with
  | error e => simp [runTurn, h, hq, hr]
  | ok r =>
    obtain ⟨u, rest⟩ := r
    simp [runTurn, h, hq, hr]

/-- A turn that has made no access yet is not over. -/
theorem not_turnOver_beginTurn (h : held s p = false) :
    ¬ ((beginTurn b p s).turnOver = true ∨ held (beginTurn b p s) p = true) := by
  have hheld : held (beginTurn b p s) p = false := by rw [← h]; exact held_congr rfl rfl p
  simp [hheld]

theorem turnOf_of_runTurn (h : runTurn b p s = .ok t) : TurnOf b p s t := by
  cases hheld : held s p with
  | true =>
    rw [runTurn_of_held hheld] at h
    cases h
    exact .held s hheld
  | false =>
    cases hq : s.cores.get p with
    | nil =>
      rw [runTurn_of_idle hheld hq] at h
      cases h
      exact .idle s hheld hq
    | cons os ts =>
      obtain ⟨u, rest, hr, rfl⟩ := (runTurn_of_turn hheld hq).mp h
      obtain ⟨rfl, hall⟩ | ⟨made, hrest, rfl, -, hmade, hend⟩ := runAccesses_performs.mp hr
      · exact .whole s u os ts hheld hq hall
      · obtain ⟨o, rest, rfl⟩ := List.exists_cons_of_ne_nil hrest
        exact .cut s u made o rest ts hheld hq hmade hend

theorem runTurn_of_turnOf (h : TurnOf b p s t) : runTurn b p s = .ok t := by
  cases h with
  | held hheld => exact runTurn_of_held hheld
  | idle hheld hq => exact runTurn_of_idle hheld hq
  | whole u os ts hheld hq hall =>
    exact (runTurn_of_turn hheld hq).mpr ⟨u, [], runAccesses_performs.mpr (.inl ⟨rfl, hall⟩), rfl⟩
  | cut u made o rest ts hheld hq hmade hend =>
    have hne : made ≠ [] := by
      rintro rfl
      cases hmade
      exact not_turnOver_beginTurn (b := b) hheld hend
    exact (runTurn_of_turn hheld hq).mpr ⟨u, o :: rest,
      runAccesses_performs.mpr (.inr ⟨made, List.cons_ne_nil o rest, rfl, hne, hmade, hend⟩), rfl⟩

theorem runTurn_iff_turnOf : runTurn b p s = .ok t ↔ TurnOf b p s t := ⟨turnOf_of_runTurn, runTurn_of_turnOf⟩

/-- A turn takes nothing back that was put out. -/
theorem mem_out_of_runTurn {e : Output} (h : runTurn b p s = .ok t) (he : e ∈ s.out) : e ∈ t.out := by
  obtain ⟨-, -, -, -, ⟨os, hout⟩, -, -⟩ := runTurn_frame h
  rw [hout]
  exact List.mem_append_left os he

/-- The core of a processor that is not held when its turn comes is given execute (R371, R375). -/
theorem execute_mem_of_runTurn (hheld : held s p = false) (h : runTurn b p s = .ok t) :
    Output.execute p (b.cyclesPerSlice p) ∈ t.out := by
  have hbegin : Output.execute p (b.cyclesPerSlice p) ∈ (beginTurn b p s).out := by simp
  cases hq : s.cores.get p with
  | nil =>
    rw [runTurn_of_idle hheld hq] at h
    cases h
    exact hbegin
  | cons os ts =>
    obtain ⟨u, rest, hr, rfl⟩ := (runTurn_of_turn hheld hq).mp h
    obtain ⟨⟨-, -, -, -, -, -, -, os', hout⟩, -⟩ := runAccesses_frame hr
    change _ ∈ u.out
    rw [hout]
    exact List.mem_append_left os' hbegin

end Turn

/-! ### A round of turns (R372) -/

section Round

variable {b : Board} {s t : State}

/-- Turns of different processors are run where none of the accesses that begin their queues is refused: a turn takes
from its own queue alone. -/
theorem runTurns_ok {ps : List Proc} (hps : ps.Nodup)
    (h : ∀ p ∈ ps, ∀ os ∈ (s.cores.get p).head?, ∀ o ∈ os, legalAccess p o = true) : ∃ t, runTurns b ps s = .ok t := by
  induction ps generalizing s with
  | nil => exact ⟨s, rfl⟩
  | cons p ps ih =>
    obtain ⟨hp, hnodup⟩ := List.nodup_cons.mp hps
    obtain ⟨u, hu⟩ := runTurn_ok b p s (h p List.mem_cons_self)
    obtain ⟨-, -, -, -, -, hothers, -⟩ := runTurn_frame hu
    have hrest : ∀ q ∈ ps, ∀ os ∈ (u.cores.get q).head?, ∀ o ∈ os, legalAccess q o = true := fun q hq => by
      rw [hothers q (ne_of_mem_of_not_mem hq hp)]
      exact h q (List.mem_cons_of_mem p hq)
    simp only [runTurns, hu]
    exact ih hnodup hrest

theorem sliceRound_ok (b : Board) (h : TurnsLegal s) : ∃ t, sliceRound b s = .ok t := by
  obtain ⟨u, hu⟩ := runTurns_ok (b := b) (ps := roundOrder) (by decide) fun p _ => h p
  exact ⟨{ u with slice := u.slice + 1 }, by simp only [sliceRound, hu]⟩

/-- What a turn leaves alone of the scheduler's state, a round leaves alone. -/
theorem sliceRound_frame (h : sliceRound b s = .ok t) :
    t.pending = s.pending ∧ t.slice = s.slice + 1 ∧ t.frame = s.frame := by
  obtain ⟨s1, s2, s3, s4, h1, h2, h3, h4, rfl⟩ := sliceRound_iff.mp h
  obtain ⟨pending1, slice1, frame1, -⟩ := runTurn_frame h1
  obtain ⟨pending2, slice2, frame2, -⟩ := runTurn_frame h2
  obtain ⟨pending3, slice3, frame3, -⟩ := runTurn_frame h3
  obtain ⟨pending4, slice4, frame4, -⟩ := runTurn_frame h4
  simp only [pending1, pending2, pending3, pending4, slice1, slice2, slice3, slice4, frame1, frame2, frame3, frame4,
    and_self]

/-- No access of any core's queue is a refused one (60_exceptions.md R402). -/
def QueuesLegal (s : State) : Prop := ∀ p : Proc, ∀ os ∈ s.cores.get p, ∀ o ∈ os, legalAccess p o = true

theorem QueuesLegal.turnsLegal (h : QueuesLegal s) : TurnsLegal s :=
  fun p os hos => h p os (List.mem_of_mem_head? hos)

/-- What a turn leaves of its queue are ends of the turns that were in it. -/
theorem QueuesLegal.runTurn {p : Proc} (h : QueuesLegal s) (ht : runTurn b p s = .ok t) : QueuesLegal t := by
  obtain ⟨-, -, -, -, -, hothers, hself⟩ := runTurn_frame ht
  intro q os hos o ho
  by_cases hq : q = p
  · subst hq
    obtain ⟨os', hos', made, rfl⟩ := hself os hos
    exact h q _ hos' o (List.mem_append_right made ho)
  · rw [hothers q hq] at hos
    exact h q os hos o ho

theorem QueuesLegal.sliceRound (h : QueuesLegal s) (ht : sliceRound b s = .ok t) : QueuesLegal t := by
  obtain ⟨s1, s2, s3, s4, h1, h2, h3, h4, rfl⟩ := sliceRound_iff.mp ht
  have hlast : QueuesLegal s4 := (((h.runTurn h1).runTurn h2).runTurn h3).runTurn h4
  exact hlast

theorem exec_slice_of_ok (h : Machine.sliceRound Config.board s = .ok t) : exec .slice s = .next t :=
  congrArg finish h

end Round

/-! ### The end of a frame (R378) -/

theorem raiseIrq_wdt (k : Gen) (src : Source) (s : State) : (raiseIrq k src s).wdt = s.wdt := by rw [raiseIrq_eq]

theorem raiseIrq_frameCount (k : Gen) (src : Source) (s : State) : (raiseIrq k src s).frame = s.frame := by
  rw [raiseIrq_eq]

section FrameEnd

variable (b : Board) (s : State)

theorem composite_wdt : (composite b s).wdt = s.wdt := by
  obtain ⟨fb, idx, rgb, -, hc, -, -⟩ := composite_eq b s
  rw [hc]

theorem composite_frameCount : (composite b s).frame = s.frame := by
  obtain ⟨fb, idx, rgb, -, hc, -, -⟩ := composite_eq b s
  rw [hc]

theorem closeFrame_eq : closeFrame b s
    = { raiseIrq .slave .vblank (raiseIrq .master .vblank (composite b s)) with wdt := s.wdt + 1 } := by
  simp only [closeFrame, raiseIrq_wdt, composite_wdt]

theorem closeFrame_wdt : (closeFrame b s).wdt = s.wdt + 1 := by rw [closeFrame_eq]

theorem closeFrame_frameCount : (closeFrame b s).frame = s.frame := by
  rw [closeFrame_eq]
  simp only [raiseIrq_frameCount, composite_frameCount]

theorem closeFrame_phase : (closeFrame b s).phase = .done := by
  rw [closeFrame_eq]
  exact ((FrameKept.raiseIrq _ _ _).phase.trans (FrameKept.raiseIrq _ _ _).phase).trans (composite_phase b s)

variable {b s}

theorem frameEnd_of_le (h : s.wdt + 1 ≤ b.wdtLimit) :
    frameEnd b s = { closeFrame b s with frame := s.frame + 1, slice := 0 } := by
  simp only [frameEnd, closeFrame_wdt, closeFrame_frameCount]
  rw [if_neg (Nat.not_lt.mpr h)]

theorem frameEnd_of_lt (h : b.wdtLimit < s.wdt + 1) : frameEnd b s = machineReset b (closeFrame b s) := by
  simp only [frameEnd, closeFrame_wdt]
  rw [if_pos h]

variable (b s)

/-- FRAME_END leaves the machine at the start of a frame: the next one, or the first after a reset by the watchdog. -/
theorem frameEnd_starts_frame : (frameEnd b s).slice = 0 ∧ (frameEnd b s).phase = .done
    ∧ (((frameEnd b s).frame = s.frame + 1 ∧ 0 < (frameEnd b s).wdt ∧ (frameEnd b s).wdt ≤ b.wdtLimit)
      ∨ ((frameEnd b s).frame = 0 ∧ (frameEnd b s).wdt = 0)) := by
  by_cases h : s.wdt + 1 ≤ b.wdtLimit
  · rw [frameEnd_of_le h]
    have hpos : 0 < (closeFrame b s).wdt := by rw [closeFrame_wdt]; exact Nat.succ_pos s.wdt
    have hle : (closeFrame b s).wdt ≤ b.wdtLimit := by rw [closeFrame_wdt]; exact h
    exact ⟨rfl, closeFrame_phase b s, .inl ⟨rfl, hpos, hle⟩⟩
  · rw [frameEnd_of_lt (Nat.not_le.mp h)]
    exact ⟨rfl, rfl, .inr ⟨rfl, rfl⟩⟩

end FrameEnd

/-! ### A whole frame (R377) -/

/-- While the frame has slices left, a step of the loop is a round, after which the queues are legal as before. -/
theorem step_slice {s : State} (hs : s.pending = []) (hslice : s.slice < Config.board.slicesPerFrame)
    (hlegal : QueuesLegal s) : ∃ t, step s = .next t ∧ t.pending = [] ∧ t.slice = s.slice + 1 ∧ t.frame = s.frame
      ∧ QueuesLegal t := by
  have htaken : QueuesLegal (takeOp s []) := hlegal
  obtain ⟨t, ht⟩ := sliceRound_ok Config.board htaken.turnsLegal
  obtain ⟨hpending, hnext, hframe⟩ := sliceRound_frame ht
  refine ⟨t, ?_, hpending, hnext, hframe, htaken.sliceRound ht⟩
  rw [step_of_pending_nil hs, loopInstr, if_pos hslice]
  exact exec_slice_of_ok ht

/-- After them a step of the loop is FRAME_END. -/
theorem step_frameEnd {s : State} (hs : s.pending = []) (hslice : s.slice = Config.board.slicesPerFrame) :
    step s = .next (frameEnd Config.board (takeOp s [])) := by
  rw [step_of_pending_nil hs, loopInstr, if_neg (Nat.not_lt.mpr hslice.ge)]
  rfl

/-- From within a frame, the slices that are left and then FRAME_END are run. -/
theorem run_to_frameEnd {n : Nat} {s : State} (hs : s.pending = [])
    (hslice : s.slice + n = Config.board.slicesPerFrame) (hlegal : QueuesLegal s) :
    ∃ u, Sys2Proof.core.run (n + 1) s = .next (frameEnd Config.board u) ∧ u.frame = s.frame := by
  induction n generalizing s with
  | zero => exact ⟨takeOp s [], run_succ_of_step 0 (step_frameEnd hs hslice), rfl⟩
  | succ n ih =>
    obtain ⟨t, hstep, hpending, hnext, hframe, ht⟩ := step_slice hs (by omega) hlegal
    obtain ⟨u, hrun, hu⟩ := ih hpending (by omega) ht
    exact ⟨u, (run_succ_of_step (n + 1) hstep).trans hrun, hu.trans hframe⟩

end Sys2Proof.Machine

/-! The statements about the scheduler (46_scheduler.md). They have a namespace of their own because the model's function
`frameEnd` already bears the name of one of them. -/

namespace Sys2Proof.Machine.SchedulerClaims

/-- Settles O6: the induction runs the slices of the frame, and FRAME_END starts the next one. -/
theorem frameRunsToCompletion : Obligations.FrameRunsToCompletion := by
  intro s hs hslice hlegal
  obtain ⟨u, hrun, hu⟩ := run_to_frameEnd hs (by rw [hslice, Nat.zero_add]) hlegal
  obtain ⟨hstart, hdone, hcount⟩ := frameEnd_starts_frame Config.board u
  rw [hu] at hcount
  exact ⟨Machine.frameEnd Config.board u, hrun, hstart, hdone, hcount⟩

/-- Settles O57, with the watchdog's count within its limit and past it. -/
theorem frameEnd : Obligations.FrameEnd := by
  intro s
  refine ⟨composite Config.board s, _, _, Machine.frameEnd Config.board s, rfl, exec_raiseOp .master .vblank _,
    exec_raiseOp .slave .vblank _, rfl, ?_⟩
  split
  · rename_i hwithin
    rw [frameEnd_of_le hwithin, closeFrame_eq]
  · rename_i hpast
    rw [frameEnd_of_lt (Nat.not_le.mp hpast), closeFrame_eq]
    rfl

/-- Settles O58: the turns of a round take from different queues, so each finds its own as the round began. -/
theorem sliceCompletes : Obligations.SliceCompletes := by
  intro s hs
  obtain ⟨t, ht⟩ := sliceRound_ok Config.board hs
  obtain ⟨hpending, hslice, hframe⟩ := sliceRound_frame ht
  exact ⟨t, exec_slice_of_ok ht, ht, hslice, hframe, hpending⟩

/-- Settles O59: a round is its four turns, and each is the relation's. -/
theorem roundOfTurns : Obligations.RoundOfTurns := by
  intro b s t
  simp only [sliceRound_iff, runTurn_iff_turnOf]

/-- Settles O60: execute is put out when the turn begins, and the turns after it keep it. -/
theorem releasedRunsInRound : Obligations.ReleasedRunsInRound := by
  intro b s s1 s2 s3 t hround hmaster hslave hsound
  obtain ⟨u1, u2, u3, s4, h1, h2, h3, hio, rfl⟩ := sliceRound_iff.mp hround
  obtain rfl : s1 = u1 := Except.ok.inj (hmaster.symm.trans h1)
  obtain rfl : s2 = u2 := Except.ok.inj (hslave.symm.trans h2)
  obtain rfl : s3 = u3 := Except.ok.inj (hsound.symm.trans h3)
  change (_ → _ ∈ s4.out) ∧ (_ → _ ∈ s4.out) ∧ (_ → _ ∈ s4.out)
  refine ⟨fun hheld => ?_, fun hheld => ?_, fun hheld => execute_mem_of_runTurn hheld hio⟩
  · exact mem_out_of_runTurn hio (mem_out_of_runTurn hsound (execute_mem_of_runTurn hheld hslave))
  · exact mem_out_of_runTurn hio (execute_mem_of_runTurn hheld hsound)

/-- Settles O3: an EVT code with src3 in 5 to 7 decodes to an operation that is refused, any other code outside the tables
to none. -/
theorem reservedCodesRefused : Obligations.ReservedCodesRefused :=
  ⟨fun _ _ => rfl, fun _ _ => rfl, fun _ _ _ => step_of_reservedEvt, fun _ _ _ => step_of_reservedSch⟩

/-- Settles O4: the word presented first is taken away and its operation executed. -/
theorem stepRunsPresentedOperation : Obligations.StepRunsPresentedOperation := fun _ _ _ _ => step_of_decode_ok

/-- Settles O5: with nothing presented the step is the loop's next operation. -/
theorem loopRunsSlicesThenFrameEnd : Obligations.LoopRunsSlicesThenFrameEnd := fun _ => step_of_pending_nil

end Sys2Proof.Machine.SchedulerClaims

/-! What clears an interrupt line (60_exceptions.md R404): a raise only sets one, a level write moves none, and of the
other operations only the acknowledges, the resets and the bus accesses into a C148 window reach the C148 at all. -/

namespace Sys2Proof.Machine

/-! ### The register operations outside the C148 -/

section KeepC148

variable (b : Board) (v : Word) (m : Lanes) (s : State)

/-- The reset controls are beside the owners and levels of their C148 (41_c148.md R193). -/
@[simp] theorem rstSoundWrite_c148 (k : Gen) : (rstSoundWrite b k v m s).c148 = s.c148 := by
  rw [rstSoundWrite_spec b k v m s _ rfl]
  split <;> rfl

@[simp] theorem rstSlaveWrite_c148 (k : Gen) : (rstSlaveWrite b k v m s).c148 = s.c148 := by
  rw [rstSlaveWrite_spec b k v m s _ rfl]
  split <;> rfl

@[simp] theorem c148Reserved_c148 (k : Gen) (wr : Bool) : (c148Reserved b k wr s).c148 = s.c148 := by
  cases wr <;> rfl

@[simp] theorem vidReserved_c148 (p : Proc) (wr : Bool) : (vidReserved b p wr s).c148 = s.c148 := by
  cases wr <;> rfl

@[simp] theorem drawRozPlane_c148 (p : Plane) : (drawRozPlane b p s).c148 = s.c148 := by
  rw [onlyDrawn_iff.mp (onlyDrawn_drawRozPlane b p s)]

@[simp] theorem regionWrite_c148 (r : Region) (o : Nat) (d : Byte) : (regionWrite b r o d s).c148 = s.c148 :=
  (pinsKept_regionWrite b r o d s).c148

@[simp] theorem regionWrite16_c148 (r : Region) (o o' : Nat) : (regionWrite16 b r o o' v m s).c148 = s.c148 := by
  cases m with
  | both => rw [regionWrite16_both, regionWrite_c148, regionWrite_c148]
  | high => rw [regionWrite16_high, regionWrite_c148]
  | low => rw [regionWrite16_low, regionWrite_c148]

/-- No video register is kept in a C148. -/
@[simp] theorem vidWrite_c148 (r : VidReg) : (vidWrite b r v m s).c148 = s.c148 := by
  cases r with
  | bank l => exact (pinsKept_bankWrite b l v m s).c148
  | rozCtrl p i => exact (pinsKept_rozCtrlWrite b p i v m s).c148
  | rozPri p => exact (pinsKept_rozPriWrite b p v m s).c148
  | tile | scrollX | scrollY | pri | flip | sprBank => rfl

@[simp] theorem videoWrite_c148 (off : Addr) : (videoWrite b off v m s).c148 = s.c148 := by
  unfold videoWrite
  split
  · exact vidWrite_c148 b v m s _
  · rfl

@[simp] theorem peripheralWrite_c148 (d : Peripheral) (off : Addr) : (peripheralWrite b d off v m s).c148 = s.c148 := by
  rw [peripheralWrite_eq b d off v m s rfl]

end KeepC148

/-! ### A bus access that reaches no C148 -/

section Access

variable {b : Board} {p : Proc}

/-- What a completed access does, whatever its kind: one of the four router operations at its address (40_router.md
R150-R154). -/
theorem access_cases {o : BusAccess} {s t : State} (h : access b p o s = .ok t) :
    t = busRead8 b p (accessAddr o) s ∨ t = busRead16 b p (accessAddr o) s
      ∨ (∃ v, t = busWrite8 b p (accessAddr o) v s) ∨ ∃ v m, t = busWrite16 b p (accessAddr o) v m s := by
  cases o with
  | rd8 a => cases h; exact .inl rfl
  | wr8 a v => cases h; exact .inr (.inr (.inl ⟨v, rfl⟩))
  | rd16 a =>
    simp only [access] at h
    split at h
    · cases h
    · cases h; exact .inr (.inl rfl)
  | wr16 a v m =>
    simp only [access] at h
    split at h
    · cases h
    · cases h; exact .inr (.inr (.inr ⟨v, m, rfl⟩))
  | ifetch a =>
    simp only [access] at h
    split at h
    · split at h
      · cases h
      · cases h; exact .inr (.inl rfl)
    · cases h; exact .inl rfl

variable {x : Hit} (hx : ∀ R k, x ≠ .c148 R k)

include hx

theorem readEffect_c148 (a : Addr) (w16 : Bool) (off : Addr) (s : State) :
    (readEffect b p a w16 x off s).c148 = s.c148 := by
  cases x with
  | c148 R k => exact absurd rfl (hx R k)
  | openBus | region | video | peripheral => rfl

theorem handlerWrite_c148 (off : Addr) (v : Word) (m : Lanes) (s : State) :
    (handlerWrite b x off v m s).c148 = s.c148 := by
  cases x with
  | c148 R k => exact absurd rfl (hx R k)
  | video R => exact videoWrite_c148 b v m s off
  | peripheral R d => exact peripheralWrite_c148 b v m s d off
  | openBus | region => rfl

end Access

section Bus

variable {b : Board} {p : Proc} {a : Addr} (h : ∀ R k, route b p (busAddr b p a) ≠ .c148 R k) (s : State)

include h

theorem busRead8_c148 : (busRead8 b p a s).c148 = s.c148 := readEffect_c148 h a false _ s

theorem busRead16_c148 : (busRead16 b p a s).c148 = s.c148 := readEffect_c148 h a true _ s

theorem busWrite8_c148 (v : Byte) : (busWrite8 b p a v s).c148 = s.c148 := by
  unfold busWrite8
  dsimp only
  split
  · rfl
  · exact regionWrite_c148 b s _ _ v
  · exact handlerWrite_c148 h _ _ _ s

theorem busWrite16_c148 (v : Word) (m : Lanes) : (busWrite16 b p a v m s).c148 = s.c148 := by
  unfold busWrite16
  dsimp only
  split
  · rfl
  · exact regionWrite16_c148 b v m s _ _ _
  · exact handlerWrite_c148 h _ v m s

end Bus

/-- An access outside the C148 windows leaves both C148s as they were. -/
theorem access_c148 {b : Board} {p : Proc} {o : BusAccess} {s t : State}
    (hroute : ∀ R k, route b p (busAddr b p (accessAddr o)) ≠ .c148 R k) (h : access b p o s = .ok t) :
    t.c148 = s.c148 := by
  obtain rfl | rfl | ⟨v, rfl⟩ | ⟨v, m, rfl⟩ := access_cases h
  · exact busRead8_c148 hroute s
  · exact busRead16_c148 hroute s
  · exact busWrite8_c148 hroute s v
  · exact busWrite16_c148 hroute s v m

/-! ### The operations that may clear no line -/

/-- What an operation that is no acknowledge, no reset, no slice and no bus access does to the C148s: it raises a source,
sets a level, or leaves them alone. -/
inductive C148Change (s t : State) : Prop
  | raised (k : Gen) (src : Source) : t = raiseIrq k src s → C148Change s t
  | level (k : Gen) (src : Source) (v : Word) (m : Lanes) : t = levelWrite k src v m s → C148Change s t
  | kept : t.c148 = s.c148 → C148Change s t

/-- None of the three clears a line (60_exceptions.md R404). -/
theorem C148Change.line_eq_true {s t : State} (h : C148Change s t) {k : Gen} {L : BitVec 3} (hL : line s k L = true) :
    line t k L = true := by
  cases h with
  | raised k' src e =>
    rw [e, line_raiseIrq]
    split
    · rfl
    · exact hL
  | level k' src v m e => rw [e, line_levelWrite]; exact hL
  | kept e => rw [line_congr e]; exact hL

theorem exec_c148Change {i : Instr} {s t : State} (hi : mayClear i = false) (h : exec i s = .next t) :
    C148Change s t := by
  cases i with
  | ackCpuirq | ackExirq | ackPosirq | ackScirq | ackVblank => cases hi
  | ackReadCpuirq | ackReadExirq | ackReadPosirq | ackReadScirq | ackReadVblank => cases hi
  | machineReset | frameEnd | slice => cases hi
  | rd8 | wr8 | rd16 | wr16 | ifetch => cases hi
  | evtRaiseVblank | evtRaisePosirq | evtRaiseExirq | evtRaiseScirq | evtRaiseCpuirq | cpuirqTrig =>
    cases h; exact .raised _ _ rfl
  | lvlWrCpuirq | lvlWrExirq | lvlWrPosirq | lvlWrScirq | lvlWrVblank => cases h; exact .level _ _ _ _ rfl
  | lvlRdCpuirq | lvlRdExirq | lvlRdPosirq | lvlRdScirq | lvlRdVblank => cases h; exact .kept rfl
  | eepromRdy | eepromRdyWr | rstsndRd | rstslvRd | vidRd => cases h; exact .kept rfl
  | rstsndWr k v m => cases h; exact .kept (rstSoundWrite_c148 _ v m s k)
  | rstslvWr k v m => cases h; exact .kept (rstSlaveWrite_c148 _ v m s k)
  | wdtKick k wr =>
    cases h
    cases wr <;> exact .kept (watchdogKick_c148 s)
  | c148RsvdS01 | c148RsvdS2 | c148RsvdS89 | c148RsvdRdS10 | c148RsvdS2023 | c148RsvdS2431 =>
    cases h; exact .kept (c148Reserved_c148 _ s _ _)
  | vidRsvdK9 | vidRsvdKAB | vidRsvdKCF => cases h; exact .kept (vidReserved_c148 _ s _ _)
  | tileWr l x v m => cases h; exact .kept (vidWrite_c148 _ v m s (.tile l x))
  | scrollxWr l v m => cases h; exact .kept (vidWrite_c148 Config.board v m s (.scrollX l))
  | scrollyWr l v m => cases h; exact .kept (vidWrite_c148 Config.board v m s (.scrollY l))
  | bankWr l v m => cases h; exact .kept (vidWrite_c148 _ v m s (.bank l))
  | lpriWr l v m => cases h; exact .kept (vidWrite_c148 _ v m s (.pri l))
  | flipWr v m => cases h; exact .kept (flipWrite_c148 s v m)
  | sprbankWr v m => cases h; exact .kept (sprBankWrite_c148 s v m)
  | rozctrlWr p r v m => cases h; exact .kept (vidWrite_c148 _ v m s (.rozCtrl p r))
  | rozpriWr p v m => cases h; exact .kept (vidWrite_c148 _ v m s (.rozPri p))
  | evtRsvdSrc5 | evtRsvdSrc67 => cases h
  | composite => cases h; exact .kept (pinsKept_composite _ s).c148
  | palScan => cases h; exact .kept (palScan_c148 s _)
  | renderLayer l => cases h; exact .kept (setLayer_c148 s l _)
  | drawLayer l =>
    rw [exec_drawLayer] at h
    split at h
    · cases h
    · cases h; exact .kept (drawTiles_c148 s _ l)
  | drawRoz p =>
    rw [exec_drawRoz] at h
    split at h
    · cases h; exact .kept (drawRozPlane_c148 _ s p)
    · cases h
  | drawSprites v => cases h; exact .kept (drawSpritesAt_c148 s _ v.toNat)

/-- Settles O19: an operation that may not clear a line raises a source, sets a level or leaves the C148s alone; an
access that is routed elsewhere leaves them alone too. -/
theorem onlyAcknowledgeClears : Obligations.OnlyAcknowledgeClears :=
  ⟨fun _ _ _ _ _ hi h => (exec_c148Change hi h).line_eq_true, fun _ _ _ _ _ => access_c148⟩

end Sys2Proof.Machine

/-! Reset and the reprogrammed level (70_reset_and_hazards.md R440, R443, R452). Power-on is the machine reset of a machine
that has put nothing out, so what the reset procedure leaves is said once, of the machine reset of any state. -/

namespace Sys2Proof.Machine

/-! ### Power-on as a machine reset -/

/-- The machine that the power-on reset is applied to: memory at its power-on contents, nothing presented, nothing put
out and no free value drawn. -/
def beforePowerOn : State := { State.reset with out := [], draws := 0 }

theorem reset_eq_machineReset : State.reset = machineReset Config.board beforePowerOn := by
  have hdraws : beforePowerOn.draws = 0 := rfl
  rw [machineReset, hdraws]
  simp only [beforePowerOn, State.reset, State.afterReset, List.nil_append]

theorem exec_machineReset (s : State) : exec .machineReset s = .next (machineReset Config.board s) := rfl

/-! ### What the reset procedure leaves -/

/-- The table of R440, whatever the machine held before. -/
theorem resetDone_machineReset (b : Board) (s : State) : ResetDone (machineReset b s) where
  levels k src := by cases k <;> cases src <;> rfl
  owners k L := by cases k <;> exact ownerAt_reset L
  rstSound := rfl
  rstSlaveIO := rfl
  wdt := rfl
  scroll l := by rw [machineReset_layer]; exact ⟨rfl, rfl⟩
  bank l := by rw [machineReset_layer]; rfl
  pri l := by rw [machineReset_layer]; rfl
  flip := rfl
  dirty l t ht := by rw [dirtyAt_machineReset, decide_eq_true ht]
  sprBank := rfl
  rozBus p r := by simp [rozBusAt, machineReset, State.afterReset]
  rozPri p := Vector.getElem_replicate p.isLt
  visible _ := BitVec.getLsbD_zero
  prevRGB := rfl
  phase := rfl
  frame := rfl
  slice := rfl
  turn := rfl
  irqLines k _ := by cases k <;> exact BitVec.getLsbD_zero
  rstLines := rfl

/-- The narrow registers are 0, and the dirty bits are those of the layer's tiles. -/
theorem widthsLegal_machineReset (b : Board) (s : State) : WidthsLegal b (machineReset b s) where
  bank l := by rw [(resetDone_machineReset b s).bank]; exact Nat.two_pow_pos _
  pri l := by rw [(resetDone_machineReset b s).pri]; exact Nat.two_pow_pos _
  rozPri p := by rw [(resetDone_machineReset b s).rozPri]; exact Nat.two_pow_pos _
  dirty l t ht := by rw [dirtyAt_machineReset, decide_eq_false (Nat.not_lt.mpr ht)]

/-! ### What the reset procedure puts out -/

theorem level_mem_of_ne_zero {L : BitVec 3} : L ≠ 0 → L ∈ ([1, 2, 3, 4, 5, 6, 7] : List (BitVec 3)) := by
  revert L
  decide

/-- Every interrupt line is driven low. -/
theorem irqLine_mem_resetOutputs (k : Gen) {L : BitVec 3} (hL : L ≠ 0) : Output.irqLine k L false ∈ resetOutputs := by
  have hline : ∀ k', Output.irqLine k' L false
      ∈ ([1, 2, 3, 4, 5, 6, 7] : List (BitVec 3)).map fun L => Output.irqLine k' L false :=
    fun _ => List.mem_map_of_mem (level_mem_of_ne_zero hL)
  refine List.mem_append_left _ ?_
  cases k with
  | master => exact List.mem_append_left _ (hline .master)
  | slave => exact List.mem_append_right _ (hline .slave)

/-! ### Memory at power-on -/

/-- A byte of the EEPROM that the store does not list reads as the host's blob (R443). -/
theorem initByte_eeprom (b : Board) (o : Nat) : initByte b (key (.region .eeprom) o) = b.eepromBlob o := by
  have hno : key (.region .eeprom) o % 16 = bankNo (.region .eeprom) := by simp [key, bankNo]
  have hoff : key (.region .eeprom) o / 16 = o := by simp [key, bankNo]; omega
  rw [initByte, hno, hoff, bankOf_bankNo]

/-- The store lists nothing at power-on. -/
theorem readByte_reset (k : Bank) (o : Nat) :
    readByte Config.board State.reset k o = initByte Config.board (key k o) := rfl

theorem memoryCanonical_beforePowerOn (b : Board) : MemoryCanonical b beforePowerOn := memory_wf_nil (initByte b)

/-! ### The statements about reset -/

/-- Settles O25: a machine reset leaves each invariant true, the store's form because it keeps an empty store empty. -/
theorem invariantsAtReset : Obligations.InvariantsAtReset := by
  rw [Obligations.InvariantsAtReset, reset_eq_machineReset]
  exact ⟨pinsAgree_machineReset _ _, cacheCoherent_of_allDirty (dirtyAt_machineReset _ _),
    memoryCanonical_beforePowerOn _, widthsLegal_machineReset _ _, frameSettled_machineReset _ _⟩

/-- Settles O7: power-on and MACHINE_RESET are one procedure, which writes no memory. -/
theorem resetProcedure : Obligations.ResetProcedure := by
  refine ⟨?powerOn, fun o => (readByte_reset _ o).trans (initByte_eeprom _ o), rfl,
    fun k _ => irqLine_mem_resetOutputs k, ⟨_, rfl⟩, fun s => ⟨machineReset Config.board s, exec_machineReset s,
      resetDone_machineReset _ s, rfl, rfl, rfl, rfl⟩⟩
  case powerOn => rw [reset_eq_machineReset]; exact resetDone_machineReset _ _

/-! ### The reprogrammed level -/

theorem line_of_owner {s : State} {k : Gen} {L : BitVec 3} {src : Source} (h : ownerOf s k L = some src) :
    line s k L = true := by
  rw [line_eq_isSome, h, Option.isSome_some]

theorem line_zero (s : State) (k : Gen) : line s k 0 = false := rfl

/-- The line of the level a source has is low once the source is acknowledged; level 0 has no line (R172). -/
theorem line_acknowledge_self (k : Gen) (src : Source) (s : State) :
    line (acknowledge k src s) k (levelOf s k src) = false := by
  by_cases h : levelOf s k src = 0
  · rw [h, line_zero]
  · rw [line_acknowledge, if_pos ⟨rfl, rfl, h⟩]

/-- An acknowledge takes an asserted line low exactly if the source's level is that line's now (R172). -/
theorem line_acknowledge_of_asserted {k : Gen} {L : BitVec 3} {s : State} (hline : line s k L = true) (src : Source) :
    line (acknowledge k src s) k L = decide (levelOf s k src ≠ L) := by
  by_cases h : levelOf s k src = L
  · rw [← h, line_acknowledge_self]
    simp
  · rw [line_acknowledge, if_neg fun e => h e.2.1.symm, hline, decide_eq_true h]

/-- A raised source owns its level's line, and goes on owning it when its level is reprogrammed (R452). -/
theorem ownerOf_levelWrite_raiseIrq {k : Gen} {src : Source} {s : State} (h : levelOf s k src ≠ 0) (v : Word)
    (m : Lanes) : ownerOf (levelWrite k src v m (raiseIrq k src s)) k (levelOf s k src) = some src := by
  rw [ownerOf_levelWrite, ownerOf_raiseIrq, if_pos ⟨rfl, rfl, h⟩]

/-- Settles O18: the level write moves no owner, and an acknowledge goes by the level a source has now. -/
theorem reprogrammedLevel : Obligations.ReprogrammedLevel := by
  intro k src v s hL1 hL2
  have howner := ownerOf_levelWrite_raiseIrq hL1 v .both
  have hline := line_of_owner howner
  have hnew := levelOf_levelWrite k k src src v .both (raiseIrq k src s)
  rw [if_pos ⟨rfl, rfl⟩, if_neg nofun] at hnew
  refine ⟨_, _, exec_raiseOp k src s, exec_lvlWrOp k src v .both _, howner, hline, ?cleared, ?kept,
    line_acknowledge_of_asserted hline⟩
  case cleared => rw [← hnew, line_acknowledge_self]
  case kept => rw [line_acknowledge_of_asserted hline, hnew, decide_eq_true hL2]

end Sys2Proof.Machine
